-- ==== Sys2Proof/Word.lean ====
section
/-! DEFINITION. The widths of 00_scope.md rules R5 and R6 as names: the 36-bit word, and the bit
vectors that the block's registers and fields hold. -/

namespace Sys2Proof

/-- A memory word: `W_WORD` = 36 bits (rule R5). -/
abbrev Word := BitVec 36

/-- A segment number: `W_SEG` = 15 bits (rule R5). -/
abbrev SegNo := BitVec 15

/-- A word offset within a segment: `W_OFF` = 18 bits (rule R5). -/
abbrev Offset := BitVec 18

/-- A ring number, 0 (most privileged) to 7: `W_RING` = 3 bits (rule R5). -/
abbrev Ring := BitVec 3

/-- A physical word address: `W_PA` = 24 bits (rules R5, R41). -/
abbrev PhysAddr := BitVec 24

/-- A bound, in units of 16 words: `W_BOUND` = 14 bits (rule R5). -/
abbrev Bound := BitVec 14

/-- A page number within a segment, `CA[17:10]` (rule R63). -/
abbrev Page := BitVec 8

/-- The current instruction's opcode: `W_OPCODE` = 9 bits (rule R6, decision D44). -/
abbrev Opcode := BitVec 9

/-- The access-violation mask: `W_ACV` = 16 bits (rule R6, decision D9). -/
abbrev AcvMask := BitVec 16

/-- A directed-fault code: `W_FC` = 2 bits (rule R6, decision D7). -/
abbrev FaultCode := BitVec 2

/-- A page frame number in units of 64 words: `W_PTW_ADDR` = 18 bits (rule R6, decision D7). -/
abbrev Frame := BitVec 18

/-- The size of the physical address space, 2^24 words (rule R41). -/
def memSpace : Nat := 16777216

end Sys2Proof
end

