-- ==== Sys2Proof/Syntax.lean ====
section
/-! DEFINITION. The request of 30_encoding.md rule R60: the raw port bundle that starts a cycle, and
the three operations it can ask for (one constructor per row of spec/opcode_table.json). -/

namespace Sys2Proof

/-- The three admitted operations (00_scope.md rule R9). -/
inductive Intent where
  | read
  | store
  | absa
deriving DecidableEq, Repr

/-- The 2-bit `intent` codes (rules R60, R70). -/
def Intent.code : Intent → BitVec 2
  | .read => 0b00#2
  | .store => 0b01#2
  | .absa => 0b10#2

/-- The ports of a request that all three operations latch (rule R60, rows `segno` to `bit29`). -/
structure Ports where
  /-- Segment number, latched into `TSR`. -/
  segno : SegNo
  /-- Word offset in the segment, latched into `CA`. -/
  offset : Offset
  /-- Current ring, latched into `TRR`. -/
  ring : Ring
  /-- Executing segment, latched into `PSR`. -/
  psr : SegNo
  /-- Execution ring, latched into `PRR`. -/
  prr : Ring
  /-- The current instruction's opcode. -/
  opcode : Opcode
  /-- Its "extended opcode" flag. -/
  opcodeX : Bool
  /-- Its "indirection/pointer-register flag" (read by no rule, R19). -/
  indirect : Bool
  /-- Its "bit-29 indicator" (read by no rule, R19). -/
  bit29 : Bool
deriving DecidableEq, Repr

/-- A request as it arrives: every port of rule R60, with nothing yet checked. -/
structure Request where
  intent : BitVec 2
  ports : Ports
  count : Nat
  data : List Word
  zoneMode : Bool
  zone : Word
deriving DecidableEq, Repr

/-- The three operations of rule R70. A field is here exactly when the operation has the port
(rule R71: the others are ignored). -/
inductive Instr where
  /-- Rule R113: translate for a read and deliver `count` words. -/
  | read (ports : Ports) (count : Nat)
  /-- Rule R114: translate for a store and write `data` (the port `count` is the number of words in
  `data`); `zone` is the mask of the zone write when `zoneMode` = 1. -/
  | store (ports : Ports) (data : List Word) (zone : Option Word)
  /-- Rule R115: translate and report the address. -/
  | absa (ports : Ports)
deriving DecidableEq, Repr

/-- The operation an instruction asks for. -/
def Instr.intent : Instr → Intent
  | .read _ _ => .read
  | .store _ _ _ => .store
  | .absa _ => .absa

/-- The latched ports of an instruction. -/
def Instr.ports : Instr → Ports
  | .read p _ => p
  | .store p _ _ => p
  | .absa p => p

end Sys2Proof
end

