-- ==== Sys2Proof/WellFormed.lean ====
section
/-! DEFINITION. Request validity, 30_encoding.md rule R61: the checks on an operation's `count` and
`zoneMode` ports, each with the name of its refusal (60_exceptions.md rule R183). -/

namespace Sys2Proof

/-- Why an operation is not well formed (rule R61). -/
inductive IllFormed where
  /-- READ or STORE with `count` = 0 or `count > N_MAX`. -/
  | badCount
  /-- STORE with `zoneMode` = 1 and `count` other than 1. -/
  | zoneCount
deriving DecidableEq, Repr

/-- The first check of rule R61 that an operation fails, if any. -/
def Instr.illFormed (nMax : Nat) : Instr → Option IllFormed
  | .read _ count => if 1 ≤ count ∧ count ≤ nMax then none else some .badCount
  | .store _ data zone =>
    if 1 ≤ data.length ∧ data.length ≤ nMax then
      if zone.isSome ∧ data.length ≠ 1 then some .zoneCount else none
    else some .badCount
  | .absa _ => none

/-- "A request is well formed when" (rule R61), for the given `N_MAX`. -/
def Instr.wf (nMax : Nat) (i : Instr) : Bool := (i.illFormed nMax).isNone

end Sys2Proof
end

