-- ==== Sys2Proof/Decode.lean ====
section
/-! DEFINITION. Decoding of a request (30_encoding.md rules R60, R61, R70, R71), total on every port
bundle and rejecting by name; after it the encoder, and the reading of an opcode-table word. -/

namespace Sys2Proof

/-- Why a port bundle is no operation. -/
inductive DecodeError where
  /-- `intent` = 0b11 (rules R9, R61, R70). -/
  | unknownIntent
  /-- A STORE bundle whose `data` port does not hold `count` words: it is no bundle of rule R60, in
  which the port is `data[0 .. count-1]`. DESIGN CHOICE (log entry 5), safe. -/
  | dataCount
deriving DecidableEq, Repr

/-- The operation a port bundle asks for (rules R60, R70). Ports that the operation does not have are
ignored (rule R71 (e)). -/
def decode (r : Request) : Except DecodeError Instr :=
  if r.intent = Intent.code .read then .ok (.read r.ports r.count)
  else if r.intent = Intent.code .store then
    if r.data.length = r.count then
      .ok (.store r.ports r.data (if r.zoneMode then some r.zone else none))
    else .error .dataCount
  else if r.intent = Intent.code .absa then .ok (.absa r.ports)
  else .error .unknownIntent

/-- The port bundle of an operation (rule R60). A port the operation does not have carries 0 or the
empty list (log entry 16). -/
def encode : Instr → Request
  | .read p count =>
    { intent := Intent.code .read, ports := p, count := count, data := [], zoneMode := false,
      zone := 0 }
  | .store p data zone =>
    { intent := Intent.code .store, ports := p, count := data.length, data := data,
      zoneMode := zone.isSome, zone := zone.getD 0 }
  | .absa p =>
    { intent := Intent.code .absa, ports := p, count := 0, data := [], zoneMode := false, zone := 0 }

/-- Ports that are all 0: the ports to which spec/opcode_table.json gives no bits. -/
def Ports.zero : Ports where
  segno := 0
  offset := 0
  ring := 0
  psr := 0
  prr := 0
  opcode := 0
  opcodeX := false
  indirect := false
  bit29 := false

/-- The request whose `intent` port holds bits 1..0 of an opcode-table word. The table's `match` and
`mask` "apply to the 2-bit `intent` port alone" (rule R60), so every other port has no bits in the
word: it is 0, except `count`, whose default is 1 (rule R73: "`n` defaults to 1"), with one data word
of 0. DESIGN CHOICE (log entry 4). -/
def Request.ofTableWord (w : Nat) : Request where
  intent := BitVec.ofNat 2 w
  ports := Ports.zero
  count := 1
  data := [0]
  zoneMode := false
  zone := 0

/-- The operation the decoder reads from an opcode-table word of `nbits` bits, numbered as
spec/opcode_table.json numbers them. The reading does not depend on `nbits`: the `intent` port lies
in bits 1..0. -/
def decodeTableWord (_nbits w : Nat) : Option Instr :=
  match decode (Request.ofTableWord w) with
  | .ok i => some i
  | .error _ => none

end Sys2Proof
end

