-- ==== Sys2Proof/Config.lean ====
section
/-! DEFINITION. The parameters that 00_scope.md rule R6 leaves open, as plain data, and the one free
value of the model (`diag`, 46_completion.md rule R164). A value of `Config` stands in
`State.config` and no step changes it, so a statement about every state holds for every value of
every parameter (log entry 2). -/

namespace Sys2Proof

/-- The open parameters of rule R6. The two opcode predicates are finite sets of pairs
`(opcode, opcodeX)`: every predicate on a 9-bit opcode and a 1-bit flag is such a set, and a list,
unlike a function, is plain data. -/
structure Config where
  /-- `PRIV_DESC_OPCODE`: the privileged descriptor-load/store opcodes (rule R111, decision D12). -/
  privDesc : List (Opcode × Bool)
  /-- `UNINTERRUPTIBLE_EIS`: the opcodes of the second page probe (rule R155, decision D13). -/
  uninterruptible : List (Opcode × Bool)
  /-- `PTW_FRAME_MASK` (rule R157, decision D8). -/
  frameMask : Frame
  /-- `AM_SIZE_SDW`: entries of the SDWAM (rule R83, decision D20). -/
  amSizeSdw : Nat
  /-- `AM_SIZE_PTW`: entries of the PTWAM (rule R87, decision D20). -/
  amSizePtw : Nat
  /-- `N_MAX`: the largest word count of one transfer (rule R61, decision D27). -/
  nMax : Nat
  /-- `MEM_WORDS`: populated physical words (rule R42, decision D41). -/
  memWords : Nat
  /-- `DSBR_BND_CHECK`: whether the fetchers check the descriptor segment's bound (rule R89). -/
  dsbrBndCheck : Bool
deriving DecidableEq, Repr

/-- What rule R6 requires of a parameter's value: at most 2^24 populated words, and a count of at
least one word admitted. -/
def Config.wf (c : Config) : Bool :=
  decide (c.memWords ≤ memSpace) && decide (1 ≤ c.nMax)

/-- The default values of rule R6 and of 95_test_vectors.md's introduction. Rule R6 gives no default
for `PRIV_DESC_OPCODE`, `UNINTERRUPTIBLE_EIS` and `N_MAX`: here both predicates are false everywhere
and `N_MAX` is 2^24. DESIGN CHOICE (log entry 2), unsafe: a run from reset shows these values only. -/
def Config.default : Config where
  privDesc := []
  uninterruptible := []
  frameMask := 0xFFF0#18
  amSizeSdw := 16
  amSizePtw := 16
  nMax := memSpace
  memWords := memSpace
  dsbrBndCheck := true

/-- The value `RecordDiag()` leaves in `diag` at its k-th use: any value (rules R28, R164; treatment
"any value", U14). It has no body, so no proof can rest on it (log entry 6). -/
opaque Config.freeDiag : Nat → Nat

end Sys2Proof
end

