-- ==== Sys2Proof/Machine/State.lean ====
section
/-! DEFINITION. The state of the block as plain data: 10_state.md rules R13 to R29, with the
collaborators' state of 40_collaborators.md (associative memories, physical memory), the ports of
30_encoding.md rule R62, and the model's own fields, which are marked as such. -/

namespace Sys2Proof.Machine

/-- The positions of the sequencer (rule R20). -/
inductive SeqStep where
  /-- No cycle in flight. -/
  | idle
  /-- Step A, segment resolution. -/
  | a
  /-- Step B, ring and permission checks. -/
  | b
  /-- Step G, bound check, fault commit and paging branch. -/
  | g
  /-- Step H, final address of an unpaged segment. -/
  | h
  /-- Step I, final address of a paged segment. -/
  | i
  /-- Step Exit, completion. -/
  | exit
  /-- Cycle abandoned. -/
  | fault
deriving DecidableEq, Repr

/-- The 3-bit encoding of the `step` register (rule R20, decision D3). -/
def SeqStep.code : SeqStep → BitVec 3
  | .idle => 0
  | .a => 1
  | .b => 2
  | .g => 3
  | .h => 4
  | .i => 5
  | .exit => 6
  | .fault => 7

/-- The decoded fields of a segment descriptor word (rules R21, R64). -/
structure Sdw where
  /-- `ADDR`: "base physical address or page-table pointer". -/
  addr : PhysAddr
  /-- `R1`, `R2`, `R3`: the ring brackets. -/
  r1 : Ring
  r2 : Ring
  r3 : Ring
  /-- `DF`: the descriptor-valid flag, 1 = valid. -/
  df : Bool
  /-- `FC`: the code of the directed fault when `DF` = 0. -/
  fc : FaultCode
  /-- `BOUND`, in 16-word units. -/
  bound : Bound
  /-- `R`: tested for 0 in the READ and ABSA check. -/
  r : Bool
  /-- `E`: decoded, read by no rule. -/
  e : Bool
  /-- `W`: write permission. -/
  w : Bool
  /-- `P`: decoded, read by no rule. -/
  p : Bool
  /-- `U`: 1 = unpaged. -/
  u : Bool
  /-- `G`, `C`, `EB`: decoded, read by no rule. -/
  g : Bool
  c : Bool
  eb : BitVec 14
  /-- `POINTER`: first component of the PTWAM key (rule R26, decision D23). -/
  pointer : PhysAddr
deriving DecidableEq, Repr

/-- The decoded fields of a page table word (rules R22, R65). -/
structure Ptw where
  /-- `ADDR`: the page frame, in 64-word units. -/
  addr : Frame
  /-- `U`: used. -/
  u : Bool
  /-- `M`: modified. -/
  m : Bool
  /-- `DF`: 1 = present. -/
  df : Bool
  /-- `FC`: the code of the directed fault when `DF` = 0. -/
  fc : FaultCode
deriving DecidableEq, Repr

/-- The descriptor-segment base register (rules R23, R66). -/
structure Dsbr where
  addr : PhysAddr
  bnd : Bound
  /-- `U`: 1 = the descriptor segment is unpaged. -/
  u : Bool
  /-- `STACK`: used by no rule. -/
  stack : BitVec 12
deriving DecidableEq, Repr

/-- An associative memory: its full entries, the most recently used first (rules R83, R87). The place
in the list is the entry's age and an entry that is not `full` is not listed (log entry 8). -/
abbrev AssocMem (κ ρ : Type) := List (κ × ρ)

/-- The key of a PTWAM entry: `(POINTER, page)` (rules R26, R84). -/
abbrev PtwKey := PhysAddr × Page

/-- Physical memory: the words that differ from `Memory.unlisted`, by strictly rising address. The
smallest addressable unit is the 36-bit word ("The block has no bytes", rule R44; log entry 9). -/
abbrev Memory := List (Nat × Word)

/-- What an unlisted address reads as. Power-on memory is "unspecified: any content" (rule R32).
DESIGN CHOICE (log entry 3), unsafe: 0, as in the images of 95_test_vectors.md. -/
def Memory.unlisted : Word := 0

/-- The outcome of an associative-memory lookup (rules R80, R84). -/
inductive Lookup where
  | hit
  | miss
deriving DecidableEq, Repr

/-- The two kinds of fault with what each carries (rule R170). -/
inductive FaultKind where
  /-- Access-violation fault with its mask (rule R171). -/
  | acv (mask : AcvMask)
  /-- Directed fault with its code (rule R172). -/
  | df (fc : FaultCode)
deriving DecidableEq, Repr

/-- The items of a call trace (rule R74). -/
inductive Call where
  | fetchSdwFromSdwam (segno : SegNo) (result : Lookup)
  | fetchDsptw (segno : SegNo)
  | modifyDsptw (segno : SegNo)
  | fetchPsdw (segno : SegNo)
  | fetchNsdw (segno : SegNo)
  | loadSdwam (segno : SegNo) (bypass : Bool)
  | fetchPtwFromPtwam (pointer : PhysAddr) (offset : Offset) (result : Lookup)
  | fetchPtw (sdw : Sdw) (offset : Offset)
  | loadPtwam (pointer : PhysAddr) (offset : Offset) (bypass : Bool)
  | doPtw2 (sdw : Sdw) (offset : Offset)
  | modifyPtw (sdw : Sdw) (offset : Offset)
  | coreReadN (address : PhysAddr) (count : Nat)
  | coreWriteN (address : PhysAddr) (count : Nat)
  | coreWriteZone (address : PhysAddr) (zone : Word)
  | doFault (kind : FaultKind)
deriving DecidableEq, Repr

/-- The response that ends a cycle, as a sum type (rule R62). -/
inductive Response where
  | ok (final : PhysAddr) (rdata : List Word) (trr : Ring)
  | faultAcv (acv : AcvMask) (trr : Ring)
  | faultDf (fc : FaultCode) (trr : Ring)
deriving DecidableEq, Repr

/-- The `status` port of a response (rule R62). -/
def Response.status : Response → BitVec 2
  | .ok _ _ _ => 0
  | .faultAcv _ _ => 1
  | .faultDf _ _ => 2

/-- The `trr` port of a response (rule R62). -/
def Response.trr : Response → Ring
  | .ok _ _ t => t
  | .faultAcv _ t => t
  | .faultDf _ t => t

/-- What the outside may do to the block's state between two cycles (rule R13, column "Written by":
"outside the block"; log entry 7). -/
inductive OutsideAction where
  /-- Load `DSBR` (rules R23, R193). -/
  | loadDsbr (value : Dsbr)
  /-- Set the configuration toggle `AM_ENABLE` (rule R24). -/
  | setAmEnable (value : Bool)
  /-- Clear the SDWAM (rules R53, R193). -/
  | clearSdwam
  /-- Clear the PTWAM. -/
  | clearPtwam
  /-- The SDWAM loses the entry of one segment: "evicted by replacement policy of that cache
  (external)" (rule R81). -/
  | evictSdw (segno : SegNo)
  /-- The PTWAM loses the entry of one page (rule R85). -/
  | evictPtw (pointer : PhysAddr) (page : Page)
  /-- Write a word of physical memory (rule R27). -/
  | writeWord (address : PhysAddr) (value : Word)
deriving DecidableEq, Repr

/-- What arrives at the block between two cycles. -/
inductive Input where
  | request (r : Request)
  | outside (a : OutsideAction)
deriving DecidableEq, Repr

/-- Why the machine stops with a fault of the model's own. A fault of the block is no such stop: it is
a response (rules R170 to R172) and the machine goes on. -/
inductive Fault where
  /-- Raised by `step` where the `step` register says that a cycle is in flight: no request can arrive
  then (rule R110: it "cannot occur"), and no run reaches such a state. Safe. -/
  | cycleInFlight
deriving DecidableEq, Repr

/-- The refusals of 60_exceptions.md rule R183. All are safe: they "err toward unprovable". -/
inductive Refusal where
  /-- An operation without a meaning; raised by no arm of `exec`. Safe. -/
  | notModelled (mnemonic : String)
  /-- `step`, on a request with `intent` = 0b11 (rules R9, R61). Safe. -/
  | unknownIntent
  /-- READ and STORE, with a count of 0 or above `N_MAX`; `step`, with a data port that does not hold
  `count` words (rule R61). Safe. -/
  | badCount
  /-- STORE, a zone write with a count other than 1 (rule R61). Safe. -/
  | zoneCount
  /-- READ and STORE, a transfer that would run past address 2^24 - 1 (rules R100, R101). Safe. -/
  | transferWraps
  /-- Any operation and `OutsideAction.writeWord`, an access at or above `MEM_WORDS` (rule R42).
  Safe. -/
  | unpopulatedMemory
deriving DecidableEq, Repr

/-- The whole state. The first sixteen fields are the Translation Context (rules R14 to R22, R29), the
next seven the persistent state (rules R18, R23 to R28). The last six are the model's own. -/
structure State where
  /-- `TSR`, the segment number being translated (rule R14). -/
  tsr : SegNo
  /-- `CA`, the offset within the segment (rule R14). -/
  ca : Offset
  /-- `TRR`, the current ring (rule R14). -/
  trr : Ring
  /-- `PSR`, the executing segment (rule R15). -/
  psr : SegNo
  /-- `PRR`, the execution ring (rule R15). -/
  prr : Ring
  /-- The latch `intent` (rule R19). -/
  intent : Intent
  /-- The latch `opcode` (rule R19). -/
  opcode : Opcode
  /-- The latch `opcodeX` (rule R19). -/
  opcodeX : Bool
  /-- The latch `indirect`, which no rule reads (rule R19). -/
  indirect : Bool
  /-- The latch `bit29`, which no rule reads (rule R19). -/
  bit29 : Bool
  /-- `acvFaults`, the accumulated access-violation mask (rule R16). -/
  acvFaults : AcvMask
  /-- `nomatch`, the associative-memory bypass flag (rule R17). -/
  noMatch : Bool
  /-- `step`, the sequencer's position (rule R20). -/
  seqStep : SeqStep
  /-- The `SDW` holding register (rule R21). -/
  sdw : Sdw
  /-- The `PTW` holding register (rule R22). -/
  ptw : Ptw
  /-- `final`, the final physical address (rule R29). -/
  finalAddr : PhysAddr
  /-- `DSBR` (rule R23). -/
  dsbr : Dsbr
  /-- `AM_ENABLE` (rule R24). -/
  amEnable : Bool
  /-- `SDWAM` (rule R25). -/
  sdwam : AssocMem SegNo Sdw
  /-- `PTWAM` (rule R26). -/
  ptwam : AssocMem PtwKey Ptw
  /-- `lastCycle`; `none` is the spec's `NONE` = 3 (rule R18; its check: log entry 17). -/
  lastCycle : Option Intent
  /-- `diag`, opaque (rules R28, R164). -/
  diag : Nat
  /-- `M`, physical memory (rule R27). -/
  mem : Memory
  /-- The model's own: the parameters of rule R6 (log entry 2). -/
  config : Config
  /-- The model's own: what is to arrive at the block, the next first (log entry 7). -/
  inputs : List Input
  /-- The response ports (rule R62): the latest response, `none` before the first (log entry 17). -/
  response : Option Response
  /-- The model's own record of the call trace of the latest cycle (rules R30, R50; log entry 17). -/
  trace : List Call
  /-- The model's own record of the values the `step` register took in the latest cycle (rules R20,
  R164: "the `step` at which a cycle ended"). -/
  path : List SeqStep
  /-- The model's own: how many free values have been drawn (log entry 6). -/
  freeCount : Nat
deriving DecidableEq, Repr

/-- A descriptor with every field 0: the holding register at power-on (log entry 1). -/
def Sdw.zero : Sdw where
  addr := 0
  r1 := 0
  r2 := 0
  r3 := 0
  df := false
  fc := 0
  bound := 0
  r := false
  e := false
  w := false
  p := false
  u := false
  g := false
  c := false
  eb := 0
  pointer := 0

/-- A page table word with every field 0: the holding register at power-on (log entry 1). -/
def Ptw.zero : Ptw where
  addr := 0
  u := false
  m := false
  df := false
  fc := 0

/-- Power-on reset (rules R32, R190): `step` = IDLE, both associative memories empty, `lastCycle` =
NONE. Everything else is "unspecified": DESIGN CHOICE (log entries 1, 2, 3, 6, 7, 17), each is 0 or
empty, `AM_ENABLE` is 1, and nothing waits at the inputs. -/
def State.reset : State where
  tsr := 0
  ca := 0
  trr := 0
  psr := 0
  prr := 0
  intent := .read
  opcode := 0
  opcodeX := false
  indirect := false
  bit29 := false
  acvFaults := 0
  noMatch := false
  seqStep := .idle
  sdw := Sdw.zero
  ptw := Ptw.zero
  finalAddr := 0
  dsbr := { addr := 0, bnd := 0, u := false, stack := 0 }
  amEnable := true
  sdwam := []
  ptwam := []
  lastCycle := none
  diag := 0
  mem := []
  config := Config.default
  inputs := []
  response := none
  trace := []
  path := []
  freeCount := 0

end Sys2Proof.Machine
end

