-- ==== Sys2Proof/Machine/Operands.lean ====
section
/-! DEFINITION. Operand assembly (30_encoding.md rule R63), the descriptor formats in memory (rules
R64, R65, with the encoders that go with them), the address formulas of the default fetchers
(40_collaborators.md rules R89 to R97) and of steps H and I (45_step_hi_final_address.md). -/

namespace Sys2Proof.Machine

/-! ## The request's address fields (rule R63) -/

/-- Bound units of the offset, `(CA >> 4) & 0x3FFF` = `CA[17:4]`. -/
def boundUnits (ca : Offset) : Bound := ca.extractLsb' 4 14

/-- Page number, `CA >> 10` = `CA[17:10]`. -/
def pageOf (ca : Offset) : Page := ca.extractLsb' 10 8

/-- Word in page, `CA mod 1024` = `CA[9:0]`. -/
def wordInPage (ca : Offset) : BitVec 10 := ca.extractLsb' 0 10

/-- Offset of the SDW pair in the descriptor segment, `2 * TSR`. -/
def pairOffset (tsr : SegNo) : BitVec 16 := tsr.setWidth 16 <<< 1

/-- Descriptor-segment page index, `(2 * TSR) >> 10` = `TSR[14:9]`. -/
def dsPage (tsr : SegNo) : BitVec 6 := (pairOffset tsr).extractLsb' 10 6

/-- The SDW pair's word in its descriptor-segment page, `(2 * TSR) mod 1024`. -/
def pairInPage (tsr : SegNo) : BitVec 10 := (pairOffset tsr).extractLsb' 0 10

/-! ## Descriptor formats in memory -/

/-- `decodeSDW(even, odd)` (rule R64); `POINTER = ADDR` (decision D23). -/
def decodeSdw (even odd : Word) : Sdw where
  addr := even.extractLsb' 12 24
  r1 := even.extractLsb' 9 3
  r2 := even.extractLsb' 6 3
  r3 := even.extractLsb' 3 3
  df := even.getLsbD 2
  fc := even.extractLsb' 0 2
  bound := odd.extractLsb' 21 14
  r := odd.getLsbD 20
  e := odd.getLsbD 19
  w := odd.getLsbD 18
  p := odd.getLsbD 17
  u := odd.getLsbD 16
  g := odd.getLsbD 15
  c := odd.getLsbD 14
  eb := odd.extractLsb' 0 14
  pointer := even.extractLsb' 12 24

/-- A field at its place in a word, `low` being the number of its lowest bit. -/
def fieldAt {n : Nat} (x : BitVec n) (low : Nat) : Word := x.setWidth 36 <<< low

/-- A one-bit field at its place in a word. -/
def flagAt (b : Bool) (low : Nat) : Word := fieldAt (BitVec.ofBool b) low

/-- The even word that holds a descriptor's fields (rule R64, the table read from field to bits). -/
def encodeSdwEven (d : Sdw) : Word :=
  fieldAt d.addr 12 ||| fieldAt d.r1 9 ||| fieldAt d.r2 6 ||| fieldAt d.r3 3 ||| flagAt d.df 2 |||
    fieldAt d.fc 0

/-- The odd word that holds a descriptor's fields; its unused bit 35 is 0 (rule R64). -/
def encodeSdwOdd (d : Sdw) : Word :=
  fieldAt d.bound 21 ||| flagAt d.r 20 ||| flagAt d.e 19 ||| flagAt d.w 18 ||| flagAt d.p 17 |||
    flagAt d.u 16 ||| flagAt d.g 15 ||| flagAt d.c 14 ||| fieldAt d.eb 0

/-- `decodePTW(w)` (rule R65). -/
def decodePtw (w : Word) : Ptw where
  addr := w.extractLsb' 18 18
  u := w.getLsbD 9
  m := w.getLsbD 6
  df := w.getLsbD 2
  fc := w.extractLsb' 0 2

/-- The word that holds a page table word's fields; its unused bits are 0 (rule R65). -/
def encodePtw (p : Ptw) : Word :=
  fieldAt p.addr 18 ||| flagAt p.u 9 ||| flagAt p.m 6 ||| flagAt p.df 2 ||| fieldAt p.fc 0

/-- Bit 9 of a page table word, `U` (rules R65, R96). -/
def ptwUsedBit : Word := 0x200

/-- Bit 6 of a page table word, `M` (rules R65, R97). -/
def ptwModifiedBit : Word := 0x40

/-! ## Addresses of descriptor words (default realisation) -/

/-- The descriptor-segment bound check: `2 * segno >= 16 * (DSBR.BND + 1)` (rule R89). -/
def beyondDsBound (dsbr : Dsbr) (segno : SegNo) : Bool :=
  decide (16 * (dsbr.bnd.toNat + 1) ≤ 2 * segno.toNat)

/-- `(DSBR.ADDR + 2 * segno) mod 2^24` (rule R90). -/
def nsdwAddr (dsbr : Dsbr) (segno : SegNo) : PhysAddr :=
  dsbr.addr + (pairOffset segno).setWidth 24

/-- `(DSBR.ADDR + ((2 * segno) >> 10)) mod 2^24` (rules R91, R96). -/
def dsptwAddr (dsbr : Dsbr) (segno : SegNo) : PhysAddr :=
  dsbr.addr + (dsPage segno).setWidth 24

/-- `(ADDR & PTW_FRAME_MASK) << 6`, the first word of a page (rules R92, R158). -/
def frameBase (mask : Frame) (addr : Frame) : PhysAddr :=
  (addr &&& mask).setWidth 24 <<< 6

/-- The SDW pair's address through its DSPTW (rule R92). -/
def psdwAddr (mask : Frame) (dsptw : Ptw) (segno : SegNo) : PhysAddr :=
  frameBase mask dsptw.addr + (pairInPage segno).setWidth 24

/-- `(sdw.ADDR + (offset >> 10)) mod 2^24`, `sdw.ADDR` unmasked (rules R93, R97). -/
def ptwAddr (sdw : Sdw) (ca : Offset) : PhysAddr :=
  sdw.addr + (pageOf ca).setWidth 24

/-- The address of the following page's PTW, one word further (rule R94). -/
def nextPtwAddr (sdw : Sdw) (ca : Offset) : PhysAddr := ptwAddr sdw ca + 1

/-- The key under which the PTWAM holds the PTW of the page of `ca` (rule R84). -/
def ptwKey (sdw : Sdw) (ca : Offset) : PtwKey := (sdw.pointer, pageOf ca)

/-! ## The final address -/

/-- FANP: `((SDW.ADDR & 0xFFFFF0) + CA) mod 2^24` (rule R150). -/
def unpagedAddr (sdw : Sdw) (ca : Offset) : PhysAddr :=
  (sdw.addr &&& 0xFFFFF0#24) + ca.setWidth 24

/-- FAP: `(((PTW.ADDR & PTW_FRAME_MASK) << 6) + (CA mod 1024)) mod 2^24` (rule R158). -/
def pagedAddr (mask : Frame) (ptw : Ptw) (ca : Offset) : PhysAddr :=
  frameBase mask ptw.addr + (wordInPage ca).setWidth 24

/-- The zone merge `(old & ~zone) | (data & zone)`, within 36 bits (rule R102). -/
def zoneMerge (old data zone : Word) : Word := (old &&& ~~~zone) ||| (data &&& zone)

end Sys2Proof.Machine
end

