-- ==== Sys2Proof/Machine/Flags.lean ====
section
/-! DEFINITION. The access-violation conditions, the block's only flags: 30_encoding.md rule R68 and
the tests of 43_step_b_ring_checks.md and 44_step_g_bound_commit.md. Each test answers the bits it
adds to `acvFaults`. -/

namespace Sys2Proof.Machine

/-- Condition ACVn is the value `1 << (15 - n)` (rule R68). -/
def acvBit (n : Nat) : AcvMask := 1#16 <<< (15 - n)

/-- A condition's bit where the condition holds, else no bit. -/
def acvIf (n : Nat) (condition : Prop) [Decidable condition] : AcvMask :=
  if condition then acvBit n else 0

/-- ACV0, ring-bracket sanity (rule R130). -/
def bracketBits (d : Sdw) : AcvMask := acvIf 0 (¬(d.r1 ≤ d.r2 ∧ d.r2 ≤ d.r3))

/-- ACV3, outer ring bound on read (rule R131). -/
def readRingBits (trr : Ring) (d : Sdw) : AcvMask := acvIf 3 (d.r2 < trr)

/-- ACV4, read-off, where `SDW.R` = 0 (rule R132). -/
def readOffBits (psr tsr : SegNo) : AcvMask := acvIf 4 (psr ≠ tsr)

/-- ACV5, outer ring bound on write: the comparison is with `R1` (rule R135). -/
def writeRingBits (trr : Ring) (d : Sdw) : AcvMask := acvIf 5 (d.r1 < trr)

/-- ACV6, write-off, where `SDW.W` = 0 (rule R136). -/
def writeOffBits : AcvMask := acvBit 6

/-- ACV15, out of segment bound (rule R140). -/
def boundBits (ca : Offset) (d : Sdw) : AcvMask := acvIf 15 (d.bound < boundUnits ca)

/-- The bypass flag `(AM_ENABLE = 0) or PRIV_DESC_OPCODE(opcode, opcodeX)` (rule R111). -/
def computeNomatch (amEnable : Bool) (c : Config) (opcode : Opcode) (opcodeX : Bool) : Bool :=
  !amEnable || c.privDesc.contains (opcode, opcodeX)

/-- `UNINTERRUPTIBLE_EIS(opcode, opcodeX)` (rule R155). -/
def isUninterruptible (c : Config) (opcode : Opcode) (opcodeX : Bool) : Bool :=
  c.uninterruptible.contains (opcode, opcodeX)

end Sys2Proof.Machine
end

