-- ==== Sys2Proof/Machine/Ops.lean ====
section
/-! DEFINITION. The named operations over the state: memory (20_memory.md), the associative memories
and the other collaborators in their default realisation (40_collaborators.md), each register's
update, and the raise of a fault (60_exceptions.md rules R171, R172). -/

namespace Sys2Proof.Machine

/-! ## Physical memory as a list -/

/-- The word at an address. -/
def Memory.read : Memory → Nat → Word
  | [], _ => Memory.unlisted
  | (b, w) :: rest, a => if b = a then w else Memory.read rest a

/-- Put a listed word in its place by address. -/
def Memory.insert : Memory → Nat → Word → Memory
  | [], a, v => [(a, v)]
  | (b, w) :: rest, a, v =>
    if a < b then (a, v) :: (b, w) :: rest else (b, w) :: Memory.insert rest a v

/-- Write a word, keeping the canonical form `Memory.wf`: writing `Memory.unlisted` removes the
entry. -/
def Memory.write (m : Memory) (a : Nat) (v : Word) : Memory :=
  let others := m.filter (fun e => decide (e.1 ≠ a))
  if v = Memory.unlisted then others else Memory.insert others a v

/-- The canonical form: addresses below 2^24 and strictly rising, no word equal to
`Memory.unlisted`. Two memories in this form that read alike everywhere are equal. -/
def Memory.wf : Memory → Bool
  | [] => true
  | (a, v) :: rest =>
    decide (a < memSpace) && decide (v ≠ Memory.unlisted) &&
      rest.all (fun e => decide (a < e.1)) && Memory.wf rest

/-- `n` consecutive words from an address. -/
def Memory.readRun (m : Memory) : Nat → Nat → List Word
  | _, 0 => []
  | a, n + 1 => Memory.read m a :: Memory.readRun m (a + 1) n

/-- Write consecutive words from an address, in increasing order (rule R166). -/
def Memory.writeRun : Memory → Nat → List Word → Memory
  | m, _, [] => m
  | m, a, v :: vs => Memory.writeRun (Memory.write m a v) (a + 1) vs

/-! ## Associative memories as lists, the most recently used entry first -/

/-- The record under a key. -/
def amLookup {κ ρ : Type} [DecidableEq κ] : AssocMem κ ρ → κ → Option ρ
  | [], _ => none
  | (k', r) :: rest, k => if k' = k then some r else amLookup rest k

/-- The associative memory without the entry of a key. -/
def amRemove {κ ρ : Type} [DecidableEq κ] (am : AssocMem κ ρ) (k : κ) : AssocMem κ ρ :=
  am.filter (fun e => decide (e.1 ≠ k))

/-- A hit makes its entry the most recently used (rule R83). -/
def amTouch {κ ρ : Type} [DecidableEq κ] (am : AssocMem κ ρ) (k : κ) : AssocMem κ ρ :=
  match amLookup am k with
  | some r => (k, r) :: amRemove am k
  | none => am

/-- Install a record: over the entry with this key, else in an entry that is not full, else over the
least recently used one; the entry becomes the most recently used (rule R83). -/
def amInstall {κ ρ : Type} [DecidableEq κ] (size : Nat) (am : AssocMem κ ρ) (k : κ) (r : ρ) :
    AssocMem κ ρ :=
  ((k, r) :: amRemove am k).take size

/-- Change the record under a key in place; its age stays (rule R97). -/
def amUpdate {κ ρ : Type} [DecidableEq κ] (am : AssocMem κ ρ) (k : κ) (f : ρ → ρ) : AssocMem κ ρ :=
  am.map (fun e => if e.1 = k then (e.1, f e.2) else e)

/-! ## Register updates -/

namespace State

/-- `step <- x`; the model's `path` records it. -/
def setStep (s : State) (x : SeqStep) : State := { s with seqStep := x, path := s.path ++ [x] }

/-- Append a collaborator call to the cycle's call trace (rule R50). -/
def record (s : State) (c : Call) : State := { s with trace := s.trace ++ [c] }

/-- `SDW <- d`. -/
def setSdw (s : State) (d : Sdw) : State := { s with sdw := d }

/-- `PTW <- p`. -/
def setPtw (s : State) (p : Ptw) : State := { s with ptw := p }

/-- `TRR <- r`. -/
def setTrr (s : State) (r : Ring) : State := { s with trr := r }

/-- `acvFaults <- acvFaults | bits`. -/
def orAcv (s : State) (bits : AcvMask) : State := { s with acvFaults := s.acvFaults ||| bits }

/-- `final <- a`. -/
def setFinal (s : State) (a : PhysAddr) : State := { s with finalAddr := a }

/-- The contents of the SDWAM become `am`. -/
def setSdwam (s : State) (am : AssocMem SegNo Sdw) : State := { s with sdwam := am }

/-- The contents of the PTWAM become `am`. -/
def setPtwam (s : State) (am : AssocMem PtwKey Ptw) : State := { s with ptwam := am }

/-- The contents of physical memory become `m`. -/
def setMem (s : State) (m : Memory) : State := { s with mem := m }

/-- `diag <- RecordDiag()`: a fresh free value (rule R164; log entry 6). -/
def recordDiag (s : State) : State :=
  { s with diag := Config.freeDiag s.freeCount, freeCount := s.freeCount + 1 }

/-- Deliver the response and return to IDLE (rules R163, R171, R172). -/
def respond (s : State) (r : Response) : State :=
  ({ s with response := some r }).setStep .idle

/-! ## Physical memory access -/

/-- Whether an address has memory behind it (rules R41, R42). -/
def populated (s : State) (a : Nat) : Bool :=
  decide (a < s.config.memWords) && decide (a < memSpace)

/-- `MemRead(addr, 1)` (rule R42); `none` stands for `refuse(UnpopulatedMemory)`. -/
def memRead (s : State) (a : Nat) : Option Word :=
  if s.populated a then some (Memory.read s.mem a) else none

/-- `MemWrite(addr, 1, v)` (rule R42); `none` stands for `refuse(UnpopulatedMemory)`. -/
def memWrite (s : State) (a : Nat) (v : Word) : Option State :=
  if s.populated a then some (s.setMem (Memory.write s.mem a v)) else none

/-- `n` reads `MemRead(a + i, 1)` in increasing `i` (rule R100). -/
def memReadRun (s : State) : Nat → Nat → Option (List Word)
  | _, 0 => some []
  | a, n + 1 =>
    match s.memRead a, s.memReadRun (a + 1) n with
    | some w, some ws => some (w :: ws)
    | _, _ => none

/-- Writes `MemWrite(a + i, 1, data[i])` in increasing `i` (rule R101). -/
def memWriteRun : State → Nat → List Word → Option State
  | s, _, [] => some s
  | s, a, v :: vs =>
    match s.memWrite a v with
    | some t => t.memWriteRun (a + 1) vs
    | none => none

/-- The SDWAM record that a lookup for the current segment finds; `nomatch` forces a miss (rule R80). -/
def cachedSdw (s : State) : Option Sdw := if s.noMatch then none else amLookup s.sdwam s.tsr

/-- The PTWAM record that a lookup for the current page finds (rule R84). -/
def cachedPtw (s : State) : Option Ptw :=
  if s.noMatch then none else amLookup s.ptwam (ptwKey s.sdw s.ca)

end State

/-! ## The course of a cycle -/

/-- How a part of a cycle ends. -/
inductive Flow where
  /-- The cycle goes on. -/
  | go (s : State)
  /-- The cycle has delivered its response. -/
  | ended (s : State)
  /-- `refuse(reason)` (rule R183). -/
  | refuse (r : Refusal)
deriving DecidableEq, Repr

/-- The statements after a part of a cycle: "no statement after [a raise] in the same cycle executes"
(rule R8). -/
def Flow.andThen (f : Flow) (next : State → Flow) : Flow :=
  match f with
  | .go s => next s
  | .ended s => .ended s
  | .refuse r => .refuse r

/-- The outcome of a whole cycle. -/
def Flow.outcome : Flow → Host.Outcome State Fault Refusal
  | .go s => .next s
  | .ended s => .next s
  | .refuse r => .refused r

/-- Go on with the value of a memory access, or `refuse(UnpopulatedMemory)` (rule R42). -/
def Flow.ofAccess {α : Type} (x : Option α) (next : α → Flow) : Flow :=
  match x with
  | some v => next v
  | none => .refuse .unpopulatedMemory

/-! ## Raising a fault -/

/-- The response of a fault (rule R62). -/
def FaultKind.response : FaultKind → Ring → Response
  | .acv mask, trr => .faultAcv mask trr
  | .df fc, trr => .faultDf fc trr

/-- `raise AccessViolation(mask)` and `raise DirectedFault(fc)` (rules R99, R171, R172, R174): record
the `doFault` call, `step <- FAULT`, deliver the response with the current `TRR`, return to IDLE.
Nothing is saved and no mode changes; there is no return operation (rule R176). No register but `step`
and `diag` is written: what rule R174 says is left in `acvFaults` stands there before the raise (the
fetchers' own fault: log entry 11). `diag` is "unconstrained at all times" (90_conflicts.md C15), so it
takes a free value here too. -/
def raiseFault (k : FaultKind) (s : State) : State :=
  (((s.record (.doFault k)).setStep .fault).recordDiag).respond (k.response s.trr)

/-! ## Descriptor cache accessors -/

/-- `fetch_sdw_from_sdwam(TSR)` (rules R80, R83); a forced miss is recorded as a miss (rule R74). -/
def fetchSdwFromSdwam (s : State) : Lookup × State :=
  match s.cachedSdw with
  | some d =>
    (.hit, ((s.record (.fetchSdwFromSdwam s.tsr .hit)).setSdw d).setSdwam (amTouch s.sdwam s.tsr))
  | none => (.miss, s.record (.fetchSdwFromSdwam s.tsr .miss))

/-- `load_sdwam(TSR, nomatch)` (rules R82, R83). -/
def loadSdwam (s : State) : State :=
  let t := s.record (.loadSdwam s.tsr s.noMatch)
  if s.noMatch then t else t.setSdwam (amInstall s.config.amSizeSdw s.sdwam s.tsr s.sdw)

/-- `fetch_ptw_from_ptwam(SDW.POINTER, CA)` (rules R84, R87). -/
def fetchPtwFromPtwam (s : State) : Lookup × State :=
  match s.cachedPtw with
  | some p =>
    (.hit, ((s.record (.fetchPtwFromPtwam s.sdw.pointer s.ca .hit)).setPtw p).setPtwam
      (amTouch s.ptwam (ptwKey s.sdw s.ca)))
  | none => (.miss, s.record (.fetchPtwFromPtwam s.sdw.pointer s.ca .miss))

/-- `loadPTWAM(SDW.POINTER, CA, nomatch)` (rules R86, R87). -/
def loadPtwam (s : State) : State :=
  let t := s.record (.loadPtwam s.sdw.pointer s.ca s.noMatch)
  if s.noMatch then t
  else t.setPtwam (amInstall s.config.amSizePtw s.ptwam (ptwKey s.sdw s.ca) s.ptw)

/-! ## Descriptor fetchers and modifiers, default realisation (log entries 12, 13) -/

/-- The bound check before `fetch_dsptw` and `fetch_nsdw` read memory. The fetcher raises "at once", with
ACV15 alone in the mask, and the fault "does not pass through `acvFaults`" (rule R89), which step A
leaves at 0 (rules R13, R16; log entry 11). -/
def checkDsBound (s : State) : Flow :=
  if s.config.dsbrBndCheck && beyondDsBound s.dsbr s.tsr then .ended (raiseFault (.acv (acvBit 15)) s)
  else .go s

/-- Read an SDW pair, even word at `a`, into the `SDW` holding register (rules R44, R90, R92). -/
def readSdwPair (a : PhysAddr) (s : State) : Flow :=
  Flow.ofAccess (s.memRead a.toNat) fun even =>
    Flow.ofAccess (s.memRead (a + 1).toNat) fun odd => .go (s.setSdw (decodeSdw even odd))

/-- `fetch_nsdw(TSR)` (rule R90). -/
def fetchNsdw (s : State) : Flow :=
  (checkDsBound (s.record (.fetchNsdw s.tsr))).andThen fun t => readSdwPair (nsdwAddr t.dsbr t.tsr) t

/-- `fetch_dsptw(TSR)` (rule R91). -/
def fetchDsptw (s : State) : Flow :=
  (checkDsBound (s.record (.fetchDsptw s.tsr))).andThen fun t =>
    Flow.ofAccess (t.memRead (dsptwAddr t.dsbr t.tsr).toNat) fun w => .go (t.setPtw (decodePtw w))

/-- `fetch_psdw(TSR)`, through the DSPTW in the `PTW` holding register (rule R92). -/
def fetchPsdw (s : State) : Flow :=
  readSdwPair (psdwAddr s.config.frameMask s.ptw s.tsr) (s.record (.fetchPsdw s.tsr))

/-- `fetch_ptw(SDW, CA)` (rule R93). -/
def fetchPtw (s : State) : Flow :=
  Flow.ofAccess (s.memRead (ptwAddr s.sdw s.ca).toNat) fun w =>
    .go ((s.record (.fetchPtw s.sdw s.ca)).setPtw (decodePtw w))

/-- `do_ptw2(SDW, CA)`: probe the following page's PTW; the `PTW` holding register is left alone
(rule R94). -/
def doPtw2 (s : State) : Flow :=
  let t := s.record (.doPtw2 s.sdw s.ca)
  Flow.ofAccess (s.memRead (nextPtwAddr s.sdw s.ca).toNat) fun w =>
    if (decodePtw w).df then .go t else .ended (raiseFault (.df (decodePtw w).fc) t)

/-- Set a bit of the word at `a`; the other 35 bits are kept (rules R96, R97). -/
def setWordBit (a : PhysAddr) (bit : Word) (s : State) : Flow :=
  Flow.ofAccess (s.memRead a.toNat) fun w =>
    Flow.ofAccess (s.memWrite a.toNat (w ||| bit)) fun t => .go t

/-- `modify_dsptw(TSR)` (rule R96). -/
def modifyDsptw (s : State) : Flow :=
  (setWordBit (dsptwAddr s.dsbr s.tsr) ptwUsedBit (s.record (.modifyDsptw s.tsr))).andThen fun t =>
    .go (t.setPtw { t.ptw with u := true })

/-- `modify_ptw(SDW, CA)`; a matching PTWAM entry is updated "whether or not `nomatch` is 1"
(rule R97). -/
def modifyPtw (s : State) : Flow :=
  (setWordBit (ptwAddr s.sdw s.ca) ptwModifiedBit (s.record (.modifyPtw s.sdw s.ca))).andThen fun t =>
    .go ((t.setPtw { t.ptw with m := true }).setPtwam
      (amUpdate t.ptwam (ptwKey t.sdw t.ca) (fun p => { p with m := true })))

/-! ## Physical access layer -/

/-- `core_readN(final, count)` (rule R100): the words read. -/
def coreReadN (s : State) (count : Nat) (next : State → List Word → Flow) : Flow :=
  if memSpace ≤ s.finalAddr.toNat + count - 1 then .refuse .transferWraps
  else
    Flow.ofAccess (s.memReadRun s.finalAddr.toNat count) fun ws =>
      next (s.record (.coreReadN s.finalAddr count)) ws

/-- `core_writeN(final, count)` (rule R101). -/
def coreWriteN (s : State) (data : List Word) : Flow :=
  if memSpace ≤ s.finalAddr.toNat + data.length - 1 then .refuse .transferWraps
  else
    Flow.ofAccess (s.memWriteRun s.finalAddr.toNat data) fun t =>
      .go (t.record (.coreWriteN s.finalAddr data.length))

/-- `core_write_zone(final, zone)` with `data[0]` (rule R102). -/
def coreWriteZone (s : State) (datum zone : Word) : Flow :=
  Flow.ofAccess (s.memRead s.finalAddr.toNat) fun old =>
    Flow.ofAccess (s.memWrite s.finalAddr.toNat (zoneMerge old datum zone)) fun t =>
      .go (t.record (.coreWriteZone s.finalAddr zone))

/-! ## Refusals before a cycle, and the outside -/

/-- The refusal of a request that a check of rule R61 rejects. -/
def refusalOf : IllFormed → Refusal
  | .badCount => .badCount
  | .zoneCount => .zoneCount

/-- The refusal of a port bundle that is no operation (rule R183). -/
def refusalOfDecode : DecodeError → Refusal
  | .unknownIntent => .unknownIntent
  | .dataCount => .badCount

/-- READ's check of its `count` port (rule R61). -/
def readProblem (nMax count : Nat) : Option IllFormed :=
  if count = 0 ∨ nMax < count then some .badCount else none

/-- STORE's checks of its `count` and `zoneMode` ports (rule R61; their order: log entry 14). -/
def storeProblem (nMax count : Nat) (zoneMode : Bool) : Option IllFormed :=
  match readProblem nMax count with
  | some e => some e
  | none => if zoneMode = true ∧ count ≠ 1 then some .zoneCount else none

/-- What an action of the outside does to the state (log entry 7); it can touch nothing but what rule
R13 says is written "outside the block". -/
def applyOutside (a : OutsideAction) (s : State) : Flow :=
  match a with
  | .loadDsbr d => .go { s with dsbr := d }
  | .setAmEnable b => .go { s with amEnable := b }
  | .clearSdwam => .go (s.setSdwam [])
  | .clearPtwam => .go (s.setPtwam [])
  | .evictSdw segno => .go (s.setSdwam (amRemove s.sdwam segno))
  | .evictPtw pointer page => .go (s.setPtwam (amRemove s.ptwam (pointer, page)))
  | .writeWord address value => Flow.ofAccess (s.memWrite address.toNat value) fun t => .go t

/-- What the block finds at its inputs. -/
inductive Arrival where
  /-- A cycle is in flight: nothing can arrive (rule R110). -/
  | inFlight
  /-- Nothing waits: the block stays IDLE (rule R20, "`IDLE -> A` on a request"). -/
  | quiet
  /-- An action of the outside. -/
  | outside (a : OutsideAction) (s : State)
  /-- A request, and the state without it. -/
  | request (r : Request) (s : State)
deriving DecidableEq, Repr

/-- Take what arrives next. -/
def takeInput (s : State) : Arrival :=
  match s.seqStep, s.inputs with
  | .idle, [] => .quiet
  | .idle, .outside a :: rest => .outside a { s with inputs := rest }
  | .idle, .request r :: rest => .request r { s with inputs := rest }
  | _, _ => .inFlight

/-- `s` with an opcode-table word waiting as the next request, and the sequencer at IDLE so that the
next step takes it (log entry 4). -/
def placeTableWord (s : State) (_nbits w : Nat) : State :=
  { s with seqStep := .idle, inputs := .request (Request.ofTableWord w) :: s.inputs }

end Sys2Proof.Machine
end

