-- ==== Sys2Proof/Machine/Cycle.lean ====
section
/-! DEFINITION. The cycle: its start (41_cycle_and_intents.md rules R110, R111) and its steps A, B, G,
H, I and Exit (42_ to 46_), one definition per rule that gives a step its pseudocode. -/

namespace Sys2Proof.Machine

/-- The request's ports that step Exit reads (rule R60, rows `count` to `zone`). The request is not
state (rule R30), so it is handed to the step. -/
structure Transfer where
  count : Nat
  data : List Word
  zone : Option Word
deriving DecidableEq, Repr

/-- Cycle start (rules R31, R110, R111). The call trace and the path are the cycle's own, so they
begin anew (rules R30, R50). -/
def cycleStart (intent : Intent) (p : Ports) (s : State) : State :=
  { s with
    tsr := p.segno
    ca := p.offset
    trr := p.ring
    psr := p.psr
    prr := p.prr
    intent := intent
    opcode := p.opcode
    opcodeX := p.opcodeX
    indirect := p.indirect
    bit29 := p.bit29
    acvFaults := 0
    noMatch := computeNomatch s.amEnable s.config p.opcode p.opcodeX
    lastCycle := some intent
    seqStep := .a
    trace := []
    path := [.a] }

/-! ## Step A (42_step_a_segment_resolution.md) -/

/-- Rule R122, validate and modify: the DSPTW in the `PTW` holding register must be present, for
every intent, and is marked used. -/
def useDsptw (s : State) : Flow :=
  if s.ptw.df then if s.ptw.u then .go s else modifyDsptw s
  else .ended (raiseFault (.df s.ptw.fc) s)

/-- Rule R122 and R123: the SDW through a paged descriptor segment. -/
def pagedWalk (s : State) : Flow :=
  ((fetchDsptw s).andThen useDsptw).andThen fetchPsdw

/-- Rules R124 and R125: the valid check and the installation of a fetched SDW. -/
def admitSdw (s : State) : Flow :=
  if s.sdw.df then .go (loadSdwam s)
  else if s.intent = .absa then .go s
  else .ended (raiseFault (.df s.sdw.fc) s)

/-- The miss path of step A. -/
def walkSegment (s : State) : Flow :=
  (if s.dsbr.u then fetchNsdw s else pagedWalk s).andThen admitSdw

/-- Step A (rule R120). -/
def stepA (s : State) : Flow :=
  let f :=
    match fetchSdwFromSdwam s with
    | (.hit, t) => Flow.go t
    | (.miss, t) => walkSegment t
  f.andThen fun t => .go (t.setStep .b)

/-! ## Step B (43_step_b_ring_checks.md) -/

/-- The READ and ABSA check (rules R131, R132, R133). -/
def checkRead (s : State) : State :=
  let t := s.orAcv (readRingBits s.trr s.sdw)
  if t.sdw.r then t else (t.setTrr t.prr).orAcv (readOffBits t.psr t.tsr)

/-- The STORE check (rules R134, R135, R136). -/
def checkWrite (s : State) : State :=
  let t := if s.tsr = s.psr then s.setTrr s.prr else s
  let v := t.orAcv (writeRingBits t.trr t.sdw)
  if v.sdw.w then v else (v.setTrr v.prr).orAcv writeOffBits

/-- Step B (rule R137). -/
def stepB (s : State) : State :=
  let t := s.orAcv (bracketBits s.sdw)
  let v :=
    match t.intent with
    | .read => checkRead t
    | .absa => checkRead t
    | .store => checkWrite t
  v.setStep .g

/-! ## Step G (44_step_g_bound_commit.md) -/

/-- Step G (rules R140, R142, R143, R144). -/
def stepG (s : State) : Flow :=
  let t := s.orAcv (boundBits s.ca s.sdw)
  if t.acvFaults ≠ 0 then .ended (raiseFault (.acv t.acvFaults) t)
  else .go (t.setStep (if t.sdw.u then .h else .i))

/-! ## Steps H and I (45_step_hi_final_address.md) -/

/-- Step H (rule R150). -/
def stepH (s : State) : State := (s.setFinal (unpagedAddr s.sdw s.ca)).setStep .exit

/-- Rule R154: the present check on the resolved PTW, and its installation if it was fetched. -/
def admitPtw (fetched : Bool) (s : State) : Flow :=
  if s.ptw.df then .go (if fetched then loadPtwam s else s)
  else if s.intent = .absa then .go s
  else .ended (raiseFault (.df s.ptw.fc) s)

/-- Rules R153 and R154: the PTW from the PTWAM or from memory. -/
def resolvePtw (s : State) : Flow :=
  match fetchPtwFromPtwam s with
  | (.hit, t) => admitPtw false t
  | (.miss, t) => (fetchPtw t).andThen (admitPtw true)

/-- Rule R155: the second probe. -/
def probeNext (s : State) : Flow :=
  if s.intent ≠ .absa ∧ isUninterruptible s.config s.opcode s.opcodeX = true then doPtw2 s else .go s

/-- Rule R156: the modified flag. -/
def markModified (s : State) : Flow :=
  if s.intent = .store ∧ s.ptw.m = false then modifyPtw s else .go s

/-- Step I (rule R159). -/
def stepI (s : State) : Flow :=
  (((resolvePtw s).andThen probeNext).andThen markModified).andThen fun t =>
    .go ((t.setFinal (pagedAddr t.config.frameMask t.ptw t.ca)).setStep .exit)

/-! ## Step Exit (46_completion.md) -/

/-- `respond Ok(final, rdata, TRR)` (rule R168). -/
def respondOk (s : State) (rdata : List Word) : Flow :=
  .ended (s.respond (.ok s.finalAddr rdata s.trr))

/-- Step Exit (rules R163 to R167). A zone write takes `data[0]`; a bundle without it is not well
formed (rule R61) and is refused here as there. -/
def stepExit (x : Transfer) (s : State) : Flow :=
  let t := s.recordDiag
  match t.intent with
  | .read => coreReadN t x.count fun v ws => respondOk v ws
  | .store =>
    match x.zone, x.data with
    | none, data => (coreWriteN t data).andThen fun v => respondOk v []
    | some zone, datum :: _ => (coreWriteZone t datum zone).andThen fun v => respondOk v []
    | some _, [] => .refuse .badCount
  | .absa => respondOk t []

/-! ## The whole cycle -/

/-- Steps H and I, as step G's branch on `SDW.U` says (rule R144). -/
def formAddress (s : State) : Flow := if s.sdw.u then .go (stepH s) else stepI s

/-- Steps B and G. -/
def checkAccess (s : State) : Flow := stepG (stepB s)

/-- The cycle from cycle start on: steps A, B, G, H or I, Exit in this order for every intent
(rule R112). -/
def runCycle (x : Transfer) (s : State) : Flow :=
  (((stepA s).andThen checkAccess).andThen formAddress).andThen (stepExit x)

end Sys2Proof.Machine
end

