-- ==== Sys2Proof/Machine/Translate.lean ====
section
/-! DEFINITION. The meanings of the three operations (41_cycle_and_intents.md rules R113, R114, R115).
A request that rule R61 rejects "is refused before the cycle starts". -/

namespace Sys2Proof.Machine

/-- `READ` (rule R113). -/
def execRead (p : Ports) (count : Nat) (s : State) : Host.Outcome State Fault Refusal :=
  match readProblem s.config.nMax count with
  | some e => .refused (refusalOf e)
  | none =>
    (runCycle { count := count, data := [], zone := none } (cycleStart .read p s)).outcome

/-- `STORE` (rule R114). -/
def execStore (p : Ports) (data : List Word) (zone : Option Word) (s : State) :
    Host.Outcome State Fault Refusal :=
  match storeProblem s.config.nMax data.length zone.isSome with
  | some e => .refused (refusalOf e)
  | none =>
    (runCycle { count := data.length, data := data, zone := zone } (cycleStart .store p s)).outcome

/-- `ABSA` (rule R115). -/
def execAbsa (p : Ports) (s : State) : Host.Outcome State Fault Refusal :=
  (runCycle { count := 0, data := [], zone := none } (cycleStart .absa p s)).outcome

end Sys2Proof.Machine
end

