-- ==== Sys2Proof/Machine/Dispatch.lean ====
section
/-! DEFINITION. The opcode map of 30_encoding.md rule R70: one arm per constructor of Instr. -/

namespace Sys2Proof.Machine

def exec (i : Instr) (s : State) : Host.Outcome State Fault Refusal :=
  match i with
  | .read p count => Sys2Proof.Machine.execRead p count s
  | .store p data zone => Sys2Proof.Machine.execStore p data zone s
  | .absa p => Sys2Proof.Machine.execAbsa p s

end Sys2Proof.Machine
end

