-- ==== Sys2Proof/Machine/Step.lean ====
section
/-! DEFINITION. One step of the machine: one whole translation cycle ("a cycle is an atomic,
instantaneous step of the model", 70_reset_and_hazards.md rule R206; log entry 15), or one
action of the outside between two cycles, or nothing while the block is IDLE and nothing waits. -/

namespace Sys2Proof.Machine

/-- One step: take what arrives, decode a request, run the operation it asks for. -/
def step (s : State) : Host.Outcome State Fault Refusal :=
  match takeInput s with
  | .inFlight => .fault .cycleInFlight
  | .quiet => .next s
  | .outside a t => (applyOutside a t).outcome
  | .request r t =>
    match decode r with
    | .ok i => exec i t
    | .error e => .refused (refusalOfDecode e)

/-- `s` with the request of an opcode-table word as what the next step takes (log entry 4). -/
def State.withFetchWord (s : State) (nbits w : Nat) : State := placeTableWord s nbits w

end Sys2Proof.Machine
end

