-- ==== Sys2Proof/Safety.lean ====
section
/-! DEFINITION. The terms in which claims are made: the invariant of the machine, what a safe run is,
and conditions on a state and a request (which descriptor resolves, which access is allowed, which
address results) written from the rules without the cycle's own definitions. A condition that holds a
choice of witness is a `def`; one that can be decided is an `abbrev`. -/

namespace Sys2Proof.Machine

/-! ## The invariant -/

/-- Every record of both associative memories has `DF` = 1 (rule R191). -/
def State.amValid (s : State) : Bool := s.sdwam.all (fun e => e.2.df) && s.ptwam.all (fun e => e.2.df)

/-- No associative memory holds more entries than it has or one key twice (rules R83, R87). -/
def State.amBounded (s : State) : Bool :=
  decide (s.sdwam.length ≤ s.config.amSizeSdw) && decide (s.ptwam.length ≤ s.config.amSizePtw) &&
    decide (s.sdwam.map Prod.fst).Nodup && decide (s.ptwam.map Prod.fst).Nodup

/-- The ten bits of the mask that this block never sets (rule R68: "mask 0x61FE"). -/
def acvNeverSet : AcvMask := 0x61FE#16

/-- `acvFaults` has only bits that the block can set (rule R192 (b)). -/
def State.acvLegal (s : State) : Bool := s.acvFaults &&& acvNeverSet == 0

/-- The invariant: `step` = IDLE between cycles (rule R192 (a)), memory in canonical form, the
associative memories bounded (rules R83, R87), the mask legal (rule R192 (b)). -/
def State.Inv (s : State) : Prop :=
  s.seqStep = .idle ∧ Memory.wf s.mem = true ∧ s.amBounded = true ∧ s.acvLegal = true

/-- The advances of the `step` register (rule R20). -/
def SeqStep.mayAdvance : SeqStep → SeqStep → Bool
  | .idle, .a => true
  | .a, .b => true
  | .b, .g => true
  | .g, .h => true
  | .g, .i => true
  | .h, .exit => true
  | .i, .exit => true
  | .a, .fault => true
  | .g, .fault => true
  | .i, .fault => true
  | .exit, .idle => true
  | .fault, .idle => true
  | _, _ => false

/-- Every two neighbours of a path are an advance of rule R20. -/
def legalPath : List SeqStep → Bool
  | x :: y :: rest => x.mayAdvance y && legalPath (y :: rest)
  | _ => true

/-- A run of up to `n` steps that meets no fault of the model (a refused run is no run, rule R183). -/
def SafeRun (n : Nat) (s : State) : Prop :=
  ∀ k ≤ n, ∀ f : Fault, Sys2Proof.core.run k s ≠ .fault f

/-! ## Calls -/

/-- The calls that read or write operand memory (rule R45). -/
def Call.isTransfer : Call → Bool
  | .coreReadN _ _ => true
  | .coreWriteN _ _ => true
  | .coreWriteZone _ _ => true
  | _ => false

/-- The calls of step I and step Exit: the PTW calls and the transfers. -/
def Call.isAfterCommit : Call → Bool
  | .fetchPtwFromPtwam _ _ _ => true
  | .fetchPtw _ _ => true
  | .loadPtwam _ _ _ => true
  | .doPtw2 _ _ => true
  | .modifyPtw _ _ => true
  | .coreReadN _ _ => true
  | .coreWriteN _ _ => true
  | .coreWriteZone _ _ => true
  | _ => false

/-- The calls of a descriptor-segment walk. -/
def Call.isWalk : Call → Bool
  | .fetchDsptw _ => true
  | .modifyDsptw _ => true
  | .fetchPsdw _ => true
  | .fetchNsdw _ => true
  | .loadSdwam _ _ => true
  | _ => false

/-- The `modify_ptw` calls. -/
def Call.isModifyPtw : Call → Bool
  | .modifyPtw _ _ => true
  | _ => false

/-- The `doFault` calls. -/
def Call.isDoFault : Call → Bool
  | .doFault _ => true
  | _ => false

/-- The calls that may write the `SDW` holding register (rules R80, R88). -/
def Call.mayWriteSdw : Call → Bool
  | .fetchSdwFromSdwam _ .hit => true
  | .fetchPsdw _ => true
  | .fetchNsdw _ => true
  | _ => false

/-- The calls that may write the `PTW` holding register (rules R84, R88, R96, R97). -/
def Call.mayWritePtw : Call → Bool
  | .fetchDsptw _ => true
  | .modifyDsptw _ => true
  | .fetchPtwFromPtwam _ _ .hit => true
  | .fetchPtw _ _ => true
  | .modifyPtw _ _ => true
  | _ => false

/-- Whether a response is `Ok`. -/
def Response.isOk : Response → Bool
  | .ok _ _ _ => true
  | _ => false

/-! ## Conditions on the state before a cycle and the request -/

/-- `nomatch` = 1 (rule R111). -/
abbrev Bypassed (s : State) (p : Ports) : Prop :=
  s.amEnable = false ∨ (p.opcode, p.opcodeX) ∈ s.config.privDesc

/-- The opcode is an uninterruptible one (rule R155). -/
abbrev Uninterruptible (s : State) (p : Ports) : Prop :=
  (p.opcode, p.opcodeX) ∈ s.config.uninterruptible

/-- The SDWAM lookup hits and gives `d` (rule R80). -/
abbrev SdwHit (s : State) (p : Ports) (d : Sdw) : Prop :=
  ¬Bypassed s p ∧ amLookup s.sdwam p.segno = some d

/-- The SDWAM lookup misses (rule R80). -/
abbrev SdwMiss (s : State) (p : Ports) : Prop :=
  Bypassed s p ∨ amLookup s.sdwam p.segno = none

/-- The segment number passes the descriptor-segment bound check, where it is made (rule R89). -/
abbrev WithinDsBound (s : State) (p : Ports) : Prop :=
  s.config.dsbrBndCheck = true → 2 * p.segno.toNat < 16 * (s.dsbr.bnd.toNat + 1)

/-- The address of the DSPTW that covers the segment (rule R91). -/
abbrev dsptwAt (s : State) (p : Ports) : Nat := (dsptwAddr s.dsbr p.segno).toNat

/-- That DSPTW, decoded (rule R91). -/
abbrev dsptwOf (s : State) (p : Ports) : Ptw := decodePtw (Memory.read s.mem (dsptwAt s p))

/-- Memory after the DSPTW has been marked used, if it was not (rules R96, R122). -/
abbrev memAfterUse (s : State) (p : Ports) : Memory :=
  if (dsptwOf s p).u = true then s.mem
  else Memory.write s.mem (dsptwAt s p) (Memory.read s.mem (dsptwAt s p) ||| 0x200#36)

/-- The two words from `a` exist (rule R42). -/
abbrev PairPopulated (s : State) (a : PhysAddr) : Prop :=
  s.populated a.toNat = true ∧ s.populated (a + 1).toNat = true

/-- The SDW decoded from the two words from `a` (rules R44, R64). -/
abbrev sdwIn (m : Memory) (a : PhysAddr) : Sdw :=
  decodeSdw (Memory.read m a.toNat) (Memory.read m (a + 1).toNat)

/-- The walk of an unpaged descriptor segment gives `d` and leaves memory `m` (rules R90, R123). -/
abbrev WalksUnpaged (s : State) (p : Ports) (d : Sdw) (m : Memory) : Prop :=
  s.dsbr.u = true ∧ m = s.mem ∧ PairPopulated s (nsdwAddr s.dsbr p.segno) ∧
    d = sdwIn s.mem (nsdwAddr s.dsbr p.segno)

/-- The walk of a paged descriptor segment gives `d` and leaves memory `m` (rules R91, R92, R96,
R122, R123). -/
abbrev WalksPaged (s : State) (p : Ports) (d : Sdw) (m : Memory) : Prop :=
  s.dsbr.u = false ∧ s.populated (dsptwAt s p) = true ∧ (dsptwOf s p).df = true ∧
    m = memAfterUse s p ∧
    PairPopulated s (psdwAddr s.config.frameMask (dsptwOf s p) p.segno) ∧
    d = sdwIn m (psdwAddr s.config.frameMask (dsptwOf s p) p.segno)

/-- The lookup misses and the walk fetches the descriptor `d`, leaving memory `m`. -/
abbrev Walks (s : State) (p : Ports) (d : Sdw) (m : Memory) : Prop :=
  SdwMiss s p ∧ WithinDsBound s p ∧ (WalksUnpaged s p d m ∨ WalksPaged s p d m)

/-- Step A ends with the descriptor `d` and memory `m` (rules R120, R124, R127). -/
abbrev ResolvesSegment (i : Intent) (s : State) (p : Ports) (d : Sdw) (m : Memory) : Prop :=
  (SdwHit s p d ∧ m = s.mem) ∨ (Walks s p d m ∧ (i ≠ .absa → d.df = true))

/-- The ring that the STORE check compares with `R1` (rule R134). -/
abbrev storeRing (p : Ports) : Ring := if p.psr = p.segno then p.prr else p.ring

/-- The violations of rules R130 to R140 in the closed form of rule R139, as a mask (rule R68). -/
def violations (i : Intent) (p : Ports) (d : Sdw) : AcvMask :=
  (if d.r1 ≤ d.r2 ∧ d.r2 ≤ d.r3 then 0 else 0x8000#16) |||
  (if i ≠ .store ∧ d.r2 < p.ring then 0x1000#16 else 0) |||
  (if i ≠ .store ∧ d.r = false ∧ p.psr ≠ p.segno then 0x0800#16 else 0) |||
  (if i = .store ∧ d.r1 < storeRing p then 0x0400#16 else 0) |||
  (if i = .store ∧ d.w = false then 0x0200#16 else 0) |||
  (if 16 * d.bound.toNat + 15 < p.offset.toNat then 0x0001#16 else 0)

/-- `TRR` at the end of step B (rule R139). -/
def ringAfterChecks (i : Intent) (p : Ports) (d : Sdw) : Ring :=
  if i = .store then (if d.w = false then p.prr else storeRing p)
  else if d.r = false then p.prr else p.ring

/-- Every check of steps B and G passes (rules R130 to R145). -/
abbrev AccessAllowed (i : Intent) (p : Ports) (d : Sdw) : Prop :=
  d.r1 ≤ d.r2 ∧ d.r2 ≤ d.r3 ∧ p.offset.toNat ≤ 16 * d.bound.toNat + 15 ∧
    (i ≠ .store → p.ring ≤ d.r2 ∧ (d.r = true ∨ p.psr = p.segno)) ∧
    (i = .store → storeRing p ≤ d.r1 ∧ d.w = true)

/-- The address of the PTW of the page of the offset (rule R93). -/
abbrev ptwAt (p : Ports) (d : Sdw) : Nat := (ptwAddr d p.offset).toNat

/-- The address of the following page's PTW (rule R94). -/
abbrev nextPtwAt (p : Ports) (d : Sdw) : Nat := (nextPtwAddr d p.offset).toNat

/-- The PTWAM lookup hits and gives `q` (rule R84). -/
abbrev PtwHit (s : State) (p : Ports) (d : Sdw) (q : Ptw) : Prop :=
  ¬Bypassed s p ∧ amLookup s.ptwam (d.pointer, pageOf p.offset) = some q

/-- The PTWAM lookup misses (rule R84). -/
abbrev PtwMiss (s : State) (p : Ports) (d : Sdw) : Prop :=
  Bypassed s p ∨ amLookup s.ptwam (d.pointer, pageOf p.offset) = none

/-- The PTW of the page is `q`, cached or read from memory `m` (rule R153). -/
abbrev ResolvesPage (s : State) (p : Ports) (d : Sdw) (m : Memory) (q : Ptw) : Prop :=
  PtwHit s p d q ∨
    (PtwMiss s p d ∧ s.populated (ptwAt p d) = true ∧ q = decodePtw (Memory.read m (ptwAt p d)))

/-- The following page's PTW, where it is probed, is present (rules R94, R155). -/
abbrev ProbePasses (i : Intent) (s : State) (p : Ports) (d : Sdw) (m : Memory) : Prop :=
  i ≠ .absa → Uninterruptible s p →
    s.populated (nextPtwAt p d) = true ∧ (decodePtw (Memory.read m (nextPtwAt p d))).df = true

/-- Memory after the page has been marked modified, if a store finds it not to be (rules R97, R156). -/
abbrev memAfterMark (i : Intent) (p : Ports) (d : Sdw) (m : Memory) (q : Ptw) : Memory :=
  if i = .store ∧ q.m = false then
    Memory.write m (ptwAt p d) (Memory.read m (ptwAt p d) ||| 0x40#36)
  else m

/-- Step I ends with the page's PTW `q` (as resolved), the address `f` and memory `m'` (rule R159). -/
abbrev FormsPagedAddress (i : Intent) (s : State) (p : Ports) (d : Sdw) (m : Memory) (q : Ptw)
    (f : PhysAddr) (m' : Memory) : Prop :=
  d.u = false ∧ ResolvesPage s p d m q ∧ (i ≠ .absa → q.df = true) ∧ ProbePasses i s p d m ∧
    (i = .store → q.m = false → s.populated (ptwAt p d) = true) ∧
    f = pagedAddr s.config.frameMask q p.offset ∧ m' = memAfterMark i p d m q

/-- Step H ends with the address `f` (rule R150). -/
abbrev FormsUnpagedAddress (p : Ports) (d : Sdw) (m : Memory) (f : PhysAddr) (m' : Memory) : Prop :=
  d.u = true ∧ f = unpagedAddr d p.offset ∧ m' = m

/-- The cycle reaches step Exit with the descriptor `d`, the address `f` and memory `m`. -/
def Translates (i : Intent) (s : State) (p : Ports) (d : Sdw) (f : PhysAddr) (m : Memory) : Prop :=
  ∃ m₁, ResolvesSegment i s p d m₁ ∧ AccessAllowed i p d ∧
    (FormsUnpagedAddress p d m₁ f m ∨ ∃ q, FormsPagedAddress i s p d m₁ q f m)

/-- The run of `n` words from `f` does not leave the address space and is populated (rules R42, R100,
R101). -/
def RunFits (s : State) (f : PhysAddr) (n : Nat) : Prop :=
  f.toNat + n ≤ memSpace ∧ ∀ k < n, s.populated (f.toNat + k) = true

end Sys2Proof.Machine
end

