-- ==== Sys2Proof/Certificates/Slice0/Obligations.lean ====
section
/-! DEFINITION. The statements for the provers. Each says which rule of spec/ it formalises; the
conditions on a state and a request are those of Sys2Proof/Safety.lean. -/

open Sys2Proof Sys2Proof.Machine

/-! ## Encoding -/

/-- Decoding the encoding of an operation gives the operation back; and encoding a decoded request
gives back every port that the operation has (rules R60, R70, R71 (d) and (e)). -/
def Obligations.DecodeOfEncodeIsTheOperation : Prop :=
  (∀ i : Instr, decode (encode i) = .ok i) ∧
    ∀ (r : Request) (i : Instr), decode r = .ok i →
      (encode i).intent = r.intent ∧ (encode i).intent = i.intent.code ∧ (encode i).ports = r.ports ∧
        (i.intent ≠ .absa → (encode i).count = r.count) ∧
        (i.intent = .store →
          (encode i).data = r.data ∧ (encode i).zoneMode = r.zoneMode ∧
            (r.zoneMode = true → (encode i).zone = r.zone))

/-- The descriptor formats lose no field and no used bit (rules R64, R65): fields to words and back,
and words to fields and back but for the unused bits. -/
def Obligations.DescriptorWordsRoundTrip : Prop :=
  (∀ d : Sdw, d.pointer = d.addr → decodeSdw (encodeSdwEven d) (encodeSdwOdd d) = d) ∧
    (∀ even odd : Word, encodeSdwEven (decodeSdw even odd) = even ∧
      encodeSdwOdd (decodeSdw even odd) = odd &&& 0x7FFFFFFFF#36 ∧
      (decodeSdw even odd).pointer = (decodeSdw even odd).addr) ∧
    (∀ q : Ptw, decodePtw (encodePtw q) = q) ∧
    ∀ w : Word, encodePtw (decodePtw w) = w &&& 0xFFFFC0247#36

/-- `intent` = 0b11 is the one code that is no operation (rules R61, R70, R71 (a)), and a request that
carries it is refused before a cycle starts. -/
def Obligations.ReservedIntentIsRefused : Prop :=
  (∀ r : Request, decode r = .error .unknownIntent ↔ r.intent = 0b11#2) ∧
    ∀ (s : State) (r : Request) (rest : List Input), s.seqStep = .idle →
      s.inputs = .request r :: rest → r.intent = 0b11#2 → step s = .refused .unknownIntent

/-- Words written out from the tables of rules R60, R64 and R65 (the vectors of 95_test_vectors.md
section 0) decode to what they stand for. -/
def Obligations.SampleEncodingsDecode : Prop :=
  (decode ⟨0b00#2, Ports.zero, 2, [], false, 0⟩ = .ok (.read Ports.zero 2)) ∧
    (decode ⟨0b01#2, Ports.zero, 1, [5], true, 0o777#36⟩ = .ok (.store Ports.zero [5] (some 0o777#36))) ∧
    (decode ⟨0b01#2, Ports.zero, 2, [5, 6], false, 0⟩ = .ok (.store Ports.zero [5, 6] none)) ∧
    (decode ⟨0b10#2, Ports.zero, 7, [1], true, 1⟩ = .ok (.absa Ports.zero)) ∧
    (decodeSdw 0o000030002464#36 0o001775000000#36 =
      { Sdw.zero with
        addr := 0o3000#24, r1 := 2#3, r2 := 4#3, r3 := 6#3, df := true, bound := 0o177#14, r := true,
        w := true, pointer := 0o3000#24 }) ∧
    (decodePtw 0o000220000104#36 =
      { addr := 0o220#18, u := false, m := true, df := true, fc := 0#2 })

/-! ## The step -/

/-- A step takes the next request and runs the operation it decodes to, on the state without it
(rules R20, R110, R206). -/
def Obligations.StepRunsTheDecodedRequest : Prop :=
  ∀ (s : State) (r : Request) (rest : List Input) (i : Instr), s.seqStep = .idle →
    s.inputs = .request r :: rest → decode r = .ok i → step s = exec i { s with inputs := rest }

/-- An idle block to which nothing comes stays as it is (rule R20: "`IDLE -> A` on a request"); where
a cycle is in flight no request can arrive (rule R110) and the model stops by name (log entry 10). -/
def Obligations.StepWithoutRequest : Prop :=
  (∀ s : State, s.seqStep = .idle → s.inputs = [] → step s = .next s) ∧
    ∀ s : State, s.seqStep ≠ .idle → step s = .fault .cycleInFlight

/-- Each action of the outside changes the one piece of state it names and nothing else (rule R13,
column "Written by"; rules R24, R27, R42, R53, R81; the actions themselves are the model's, log
entry 7). -/
def Obligations.OutsideActionsChangeOneThing : Prop :=
  ∀ (s : State) (a : OutsideAction) (rest : List Input), s.seqStep = .idle →
    s.inputs = .outside a :: rest →
      match a with
      | .loadDsbr d => step s = .next { s with inputs := rest, dsbr := d }
      | .setAmEnable b => step s = .next { s with inputs := rest, amEnable := b }
      | .clearSdwam => step s = .next { s with inputs := rest, sdwam := [] }
      | .clearPtwam => step s = .next { s with inputs := rest, ptwam := [] }
      | .evictSdw segno =>
        ∃ am, step s = .next { s with inputs := rest, sdwam := am } ∧
          ∀ k, amLookup am k = if k = segno then none else amLookup s.sdwam k
      | .evictPtw pointer page =>
        ∃ am, step s = .next { s with inputs := rest, ptwam := am } ∧
          ∀ k, amLookup am k = if k = (pointer, page) then none else amLookup s.ptwam k
      | .writeWord address value =>
        (s.populated address.toNat = false → step s = .refused .unpopulatedMemory) ∧
          (s.populated address.toNat = true →
            ∃ m, step s = .next { s with inputs := rest, mem := m } ∧
              ∀ b, Memory.read m b = if b = address.toNat then value else Memory.read s.mem b)

/-- A run from an idle state never meets the model's own fault, however long it is (rule R192 (a):
"`step` = `IDLE` between cycles"). -/
def Obligations.RunsFromIdleMeetNoFault : Prop :=
  ∀ (n : Nat) (s : State), s.seqStep = .idle → SafeRun n s

/-! ## Reset and invariants -/

/-- Power-on reset, the values the spec gives (rules R32, R190): `step` = IDLE (code 0), "empty: every
lookup misses", `lastCycle` = NONE. -/
def Obligations.PowerOnReset : Prop :=
  State.reset.seqStep = .idle ∧ State.reset.seqStep.code = 0 ∧ State.reset.lastCycle = none ∧
    (∀ k, amLookup State.reset.sdwam k = none) ∧ ∀ k, amLookup State.reset.ptwam k = none

/-- The invariant holds at reset. Rule R190 gives two of its parts there, `step` = IDLE and associative
memories that are empty; the other two are the model's choices: `acvFaults` = 0 (log entry 1, where
R32 has any value) and memory with nothing listed (log entries 3 and 9). -/
def Obligations.ResetMeetsInvariant : Prop := State.Inv State.reset

/-- Every step keeps the invariant: `step` = IDLE between cycles (rule R192 (a)), memory in canonical
form (log entry 9), associative memories within their size and without a double key (rules R83, R87),
and no bit of `acvFaults` that the block cannot set (rules R68, R192 (b)). -/
def Obligations.EveryStepKeepsInvariant : Prop :=
  ∀ s t : State, State.Inv s → step s = .next t → State.Inv t

/-- The records of both associative memories have `DF` = 1 after power-on and every step keeps it so.
Of a step that is a cycle this is rule R191 ("preserved by every cycle"); of a step that is an action
of the outside it is the model's choice, since none of its actions installs an entry (log entry 7;
R191: "An agent outside the block that writes the associative memories must preserve it"). -/
def Obligations.CachedDescriptorsStayValid : Prop :=
  State.reset.amValid = true ∧
    ∀ s t : State, s.amValid = true → step s = .next t → t.amValid = true

/-! ## The course of a cycle -/

/-- Every way a cycle can end, by step (rules R20, R188): the values the `step` register took, with the
response that ended the cycle; and the block is IDLE again. -/
def Obligations.EveryCycleEndsInAStepTheRulesGive : Prop :=
  ∀ (i : Instr) (s t : State), exec i s = .next t →
    t.seqStep = .idle ∧ legalPath (.idle :: t.path) = true ∧
      ((∃ mask r, t.response = some (.faultAcv mask r) ∧
          ((t.path = [.a, .fault, .idle] ∧ mask = 1) ∨ t.path = [.a, .b, .g, .fault, .idle])) ∨
        (∃ fc r, t.response = some (.faultDf fc r) ∧
          (t.path = [.a, .fault, .idle] ∨
            (t.path = [.a, .b, .g, .i, .fault, .idle] ∧ i.intent ≠ .absa))) ∨
        ∃ f ws r, t.response = some (.ok f ws r) ∧ f = t.finalAddr ∧ r = t.trr ∧
          (t.path = [.a, .b, .g, .h, .exit, .idle] ∨ t.path = [.a, .b, .g, .i, .exit, .idle]))

/-- A cycle makes at most 11 collaborator calls (rule R56, 90_conflicts.md C13). -/
def Obligations.AtMostElevenCalls : Prop :=
  ∀ (i : Instr) (s t : State), exec i s = .next t → t.trace.length ≤ 11

/-- The transfer and the fault of a cycle (rules R169, R177): a cycle that answers `Ok` makes exactly
the transfer call of its operation and no `doFault` call; a cycle that faults makes no transfer call,
and one `doFault` call, its last, that carries what the response carries. -/
def Obligations.TransferCallsMatchTheOutcome : Prop :=
  ∀ (i : Instr) (s t : State), exec i s = .next t →
    (∀ f ws r, t.response = some (.ok f ws r) →
      t.trace.filter Call.isDoFault = [] ∧
        t.trace.filter Call.isTransfer =
          match i with
          | .read _ count => [.coreReadN f count]
          | .store _ data none => [.coreWriteN f data.length]
          | .store _ _ (some zone) => [.coreWriteZone f zone]
          | .absa _ => []) ∧
      (t.response.any Response.isOk = false →
        t.trace.filter Call.isTransfer = [] ∧
          ∃ k, t.response = some (k.response t.trr) ∧ t.trace.getLast? = some (.doFault k) ∧
            t.trace.filter Call.isDoFault = [.doFault k])

/-- The mask (rules R138, R192 (b), R145): after a READ or ABSA cycle only ACV0, ACV3, ACV4, ACV15, after
a STORE cycle only ACV0, ACV5, ACV6, ACV15; an access violation carries a mask that is not 0 and
leaves it in `acvFaults` (rule R174), but for the fetchers' own fault in step A, which "does not pass
through `acvFaults`" (rule R89; log entry 11) and leaves 0 there; every other response leaves
`acvFaults` = 0. -/
def Obligations.MaskHoldsOnlyBitsOfTheIntent : Prop :=
  ∀ (i : Instr) (s t : State), exec i s = .next t →
    (i.intent ≠ .store → t.acvFaults &&& ~~~0x9801#16 = 0) ∧
      (i.intent = .store → t.acvFaults &&& ~~~0x8601#16 = 0) ∧
      (∀ mask r, t.response = some (.faultAcv mask r) →
        mask ≠ 0 ∧
          (t.acvFaults = mask ∨
            (mask = 1 ∧ t.acvFaults = 0 ∧ t.path = [.a, .fault, .idle]))) ∧
      ((∀ mask r, t.response ≠ some (.faultAcv mask r)) → t.acvFaults = 0)

/-! ## Frames -/

/-- What a cycle leaves in the registers (rules R31, R110, R174, R192 (d) and (e)): the latches hold the
request; `TRR` is the requested ring or the execution ring; `DSBR`, `AM_ENABLE`, the parameters and
what waits at the inputs are unchanged; `final` is unchanged unless the cycle answers `Ok`; the `SDW`
and `PTW` holding registers are unchanged unless a call that writes them was made. -/
def Obligations.RequestIsLatchedAndRegistersKept : Prop :=
  ∀ (i : Instr) (s t : State), exec i s = .next t →
    t.tsr = i.ports.segno ∧ t.ca = i.ports.offset ∧ t.psr = i.ports.psr ∧ t.prr = i.ports.prr ∧
      t.intent = i.intent ∧ t.opcode = i.ports.opcode ∧ t.opcodeX = i.ports.opcodeX ∧
      t.indirect = i.ports.indirect ∧ t.bit29 = i.ports.bit29 ∧ t.lastCycle = some i.intent ∧
      (t.noMatch = true ↔ Bypassed s i.ports) ∧ (t.trr = i.ports.ring ∨ t.trr = i.ports.prr) ∧
      t.dsbr = s.dsbr ∧ t.amEnable = s.amEnable ∧ t.config = s.config ∧ t.inputs = s.inputs ∧
      (t.response.any Response.isOk = false → t.finalAddr = s.finalAddr) ∧
      ((∀ c ∈ t.trace, c.mayWriteSdw = false) → t.sdw = s.sdw) ∧
      ((∀ c ∈ t.trace, c.mayWritePtw = false) → t.ptw = s.ptw)

/-- Which words of memory a cycle can change (rules R48, R167, R192 (e)). The DSPTW that covers the
segment is the one word that a READ, an ABSA or any faulting cycle can change, by setting its bit 9 in
a walk that finds it clear; a STORE that answers `Ok` can also change the PTW of its page, in a paged
segment, and the words it stores: `count` words from `final`, one word in a zone write. -/
def Obligations.CycleMemoryFrame : Prop :=
  ∀ (i : Instr) (s t : State), exec i s = .next t →
    ((i.intent ≠ .store ∨ t.response.any Response.isOk = false) →
      (∀ a, a ≠ dsptwAt s i.ports → Memory.read t.mem a = Memory.read s.mem a) ∧
        (t.mem = s.mem ∨
          (SdwMiss s i.ports ∧ s.dsbr.u = false ∧ (dsptwOf s i.ports).u = false ∧
            Memory.read t.mem (dsptwAt s i.ports) =
              Memory.read s.mem (dsptwAt s i.ports) ||| 0x200#36))) ∧
      ∀ (p : Ports) (data : List Word) (zone : Option Word), i = .store p data zone →
        ∀ a, a ≠ dsptwAt s p → (t.sdw.u = false → a ≠ ptwAt p t.sdw) →
          (a < t.finalAddr.toNat ∨ t.finalAddr.toNat + data.length ≤ a) →
            Memory.read t.mem a = Memory.read s.mem a

/-- What a cycle changes in the associative memories (rules R80 to R87, R97). A bypassed cycle leaves
the SDWAM as it was and changes no more of a PTWAM record than `M`; a hit changes no record of the
SDWAM; in every cycle another segment's or another page's lookup finds what it found or its entry was
replaced. -/
def Obligations.CycleAssociativeMemoryFrame : Prop :=
  ∀ (i : Instr) (s t : State), exec i s = .next t →
    (Bypassed s i.ports →
      t.sdwam = s.sdwam ∧
        ∀ k, (amLookup t.ptwam k).map (fun q => { q with m := false }) =
          (amLookup s.ptwam k).map (fun q => { q with m := false })) ∧
      (∀ d, SdwHit s i.ports d → ∀ k, amLookup t.sdwam k = amLookup s.sdwam k) ∧
      (∀ k, k ≠ i.ports.segno →
        amLookup t.sdwam k = amLookup s.sdwam k ∨ amLookup t.sdwam k = none) ∧
      ∀ k, k ≠ (t.sdw.pointer, pageOf i.ports.offset) →
        amLookup t.ptwam k = amLookup s.ptwam k ∨ amLookup t.ptwam k = none

/-! ## Step A -/

/-- On a hit the cached record is used, nothing is walked or installed, and the cycle goes on to step B
whatever the record's `DF` is (rules R81, R121). -/
def Obligations.HitUsesTheCachedRecord : Prop :=
  ∀ (i : Instr) (s t : State) (d : Sdw), SdwHit s i.ports d → exec i s = .next t →
    t.sdw = d ∧ t.path.take 3 = [.a, .b, .g] ∧
      t.trace.head? = some (.fetchSdwFromSdwam i.ports.segno .hit) ∧
      ∀ c ∈ t.trace, c.isWalk = false

/-- The order of the calls of a walk (rules R82, R120, R122, R123, R125; the document's properties T9 and
T10): "{fetch_dsptw, fetch_psdw}" with the DSPTW's used flag 1, "{fetch_dsptw, modify_dsptw,
fetch_psdw}" with it 0, `fetch_nsdw` alone in an unpaged descriptor segment; then `load_sdwam`, with
the bypass flag, exactly if the fetched SDW is valid. -/
def Obligations.WalkMakesItsCallsInOrder : Prop :=
  ∀ (i : Instr) (s t : State), SdwMiss s i.ports → WithinDsBound s i.ports → exec i s = .next t →
    t.trace.head? = some (.fetchSdwFromSdwam i.ports.segno .miss) ∧
      (s.dsbr.u = true →
        t.trace.filter Call.isWalk =
          .fetchNsdw i.ports.segno ::
            if t.sdw.df then [.loadSdwam i.ports.segno t.noMatch] else []) ∧
      (s.dsbr.u = false → (dsptwOf s i.ports).df = true →
        t.trace.filter Call.isWalk =
          .fetchDsptw i.ports.segno ::
            ((if (dsptwOf s i.ports).u then [] else [.modifyDsptw i.ports.segno]) ++
              .fetchPsdw i.ports.segno ::
                if t.sdw.df then [.loadSdwam i.ports.segno t.noMatch] else []))

/-- An absent DSPTW raises a directed fault with its code, for every operation, and changes neither
memory nor an associative memory (rule R122, 2; vectors A4 and A5). -/
def Obligations.AbsentDsptwFaults : Prop :=
  ∀ (i : Instr) (s : State), i.wf s.config.nMax = true → SdwMiss s i.ports →
    WithinDsBound s i.ports → s.dsbr.u = false → s.populated (dsptwAt s i.ports) = true →
    (dsptwOf s i.ports).df = false →
      ∃ t, exec i s = .next t ∧
        t.response = some (.faultDf (dsptwOf s i.ports).fc i.ports.ring) ∧ t.mem = s.mem ∧
        t.sdwam = s.sdwam ∧ t.ptwam = s.ptwam ∧
        t.trace =
          [.fetchSdwFromSdwam i.ports.segno .miss, .fetchDsptw i.ports.segno,
            .doFault (.df (dsptwOf s i.ports).fc)]

/-- A fetched SDW with `DF` = 0 raises a directed fault with its code in a READ or STORE; the DSPTW
stays marked used and nothing is installed (rules R124, R172, R179; vector A6). -/
def Obligations.InvalidSdwFaults : Prop :=
  ∀ (i : Instr) (s : State) (d : Sdw) (m : Memory), i.wf s.config.nMax = true → i.intent ≠ .absa →
    Walks s i.ports d m → d.df = false →
      ∃ t, exec i s = .next t ∧ t.response = some (.faultDf d.fc i.ports.ring) ∧ t.mem = m ∧
        t.sdwam = s.sdwam ∧ t.ptwam = s.ptwam ∧ t.path = [.a, .fault, .idle]

/-- A segment number beyond the descriptor segment's bound raises ACV15 alone, at once, from the
fetcher: no memory is read or written (rules R89, R171; vectors A10 and A12). The check is the spec's
default realisation. `acvFaults` stays 0: step A does not write it (rules R13, R16, R89, R120; R174 read
beside them in log entry 11). -/
def Obligations.SegmentBeyondDsBoundFaults : Prop :=
  ∀ (i : Instr) (s : State), i.wf s.config.nMax = true → SdwMiss s i.ports →
    s.config.dsbrBndCheck = true → 2 * i.ports.segno.toNat ≥ 16 * (s.dsbr.bnd.toNat + 1) →
      ∃ t, exec i s = .next t ∧ t.response = some (.faultAcv 0x0001#16 i.ports.ring) ∧
        t.mem = s.mem ∧ t.sdwam = s.sdwam ∧ t.ptwam = s.ptwam ∧
        t.acvFaults = 0 ∧
        t.trace =
          [.fetchSdwFromSdwam i.ports.segno .miss,
            if s.dsbr.u then .fetchNsdw i.ports.segno else .fetchDsptw i.ports.segno,
            .doFault (.acv 0x0001#16)]

/-- A descriptor word that has no memory behind it is refused (rules R42, R98), whichever fetcher reads
it: in step A a word of the SDW pair of an unpaged descriptor segment, the DSPTW, or a word of the SDW
pair through a DSPTW that is present; in step I the PTW of the page, the following PTW where it is
probed, and the PTW that `modify_ptw` reads to mark it. -/
def Obligations.UnpopulatedDescriptorIsRefused : Prop :=
  (∀ (i : Instr) (s : State), i.wf s.config.nMax = true → SdwMiss s i.ports →
    WithinDsBound s i.ports →
    ((s.dsbr.u = true ∧ ¬PairPopulated s (nsdwAddr s.dsbr i.ports.segno)) ∨
      (s.dsbr.u = false ∧ s.populated (dsptwAt s i.ports) = false) ∨
      (s.dsbr.u = false ∧ (dsptwOf s i.ports).df = true ∧
        ¬PairPopulated s (psdwAddr s.config.frameMask (dsptwOf s i.ports) i.ports.segno))) →
        exec i s = .refused .unpopulatedMemory) ∧
    ∀ (i : Instr) (s : State) (d : Sdw) (m : Memory), i.wf s.config.nMax = true →
      ResolvesSegment i.intent s i.ports d m → AccessAllowed i.intent i.ports d → d.u = false →
        (PtwMiss s i.ports d → s.populated (ptwAt i.ports d) = false →
          exec i s = .refused .unpopulatedMemory) ∧
        ∀ q : Ptw, ResolvesPage s i.ports d m q → (i.intent ≠ .absa → q.df = true) →
          (i.intent ≠ .absa → Uninterruptible s i.ports →
            s.populated (nextPtwAt i.ports d) = false → exec i s = .refused .unpopulatedMemory) ∧
          (ProbePasses i.intent s i.ports d m → i.intent = .store → q.m = false →
            s.populated (ptwAt i.ports d) = false → exec i s = .refused .unpopulatedMemory)

/-- A valid fetched SDW is installed, whatever the cycle does afterwards, and the next lookup finds it;
an invalid one, or any under bypass, leaves the SDWAM as it was (rules R82, R125, R179). -/
def Obligations.FetchedDescriptorIsInstalled : Prop :=
  ∀ (i : Instr) (s t : State) (d : Sdw) (m : Memory), Walks s i.ports d m → exec i s = .next t →
    (d.df = true → ¬Bypassed s i.ports → 0 < s.config.amSizeSdw →
      amLookup t.sdwam i.ports.segno = some d) ∧
      (d.df = false ∨ Bypassed s i.ports → t.sdwam = s.sdwam)

/-- `modify_dsptw` (rule R96): bit 9 of the word is set and the other 35 are kept, every other word is
kept, `PTW.U` becomes 1 and nothing else changes. -/
def Obligations.ModifyDsptwSetsTheUsedBit : Prop :=
  ∀ s : State, s.populated (dsptwAddr s.dsbr s.tsr).toNat = true →
    ∃ m, modifyDsptw s =
        .go { s with
          mem := m, ptw := { s.ptw with u := true }, trace := s.trace ++ [.modifyDsptw s.tsr] } ∧
      (∀ a, a ≠ (dsptwAddr s.dsbr s.tsr).toNat → Memory.read m a = Memory.read s.mem a) ∧
      ∀ k, (Memory.read m (dsptwAddr s.dsbr s.tsr).toNat).getLsbD k =
        (decide (k = 9) || (Memory.read s.mem (dsptwAddr s.dsbr s.tsr).toNat).getLsbD k)

/-- `modify_ptw` (rule R97): bit 6 of the word is set and the other 35 are kept, every other word is
kept, `PTW.M` becomes 1, and so does `M` of the PTWAM record of the page if there is one, under bypass
too; no other record changes. -/
def Obligations.ModifyPtwSetsTheModifiedBit : Prop :=
  ∀ s : State, s.populated (ptwAddr s.sdw s.ca).toNat = true →
    ∃ m am, modifyPtw s =
        .go { s with
          mem := m, ptw := { s.ptw with m := true }, ptwam := am,
          trace := s.trace ++ [.modifyPtw s.sdw s.ca] } ∧
      (∀ a, a ≠ (ptwAddr s.sdw s.ca).toNat → Memory.read m a = Memory.read s.mem a) ∧
      (∀ k, (Memory.read m (ptwAddr s.sdw s.ca).toNat).getLsbD k =
        (decide (k = 6) || (Memory.read s.mem (ptwAddr s.sdw s.ca).toNat).getLsbD k)) ∧
      ∀ k, amLookup am k =
        if k = (s.sdw.pointer, pageOf s.ca) then
          (amLookup s.ptwam k).map (fun q => { q with m := true })
        else amLookup s.ptwam k

/-! ## Steps B and G -/

/-- Rule R139, the closed form of step B: which bits it sets, and `TRR` at its end; nothing else but
the `step` register changes. -/
def Obligations.RingChecksClosedForm : Prop :=
  ∀ s : State, s.acvFaults = 0 →
    stepB s = { s with
        acvFaults := (stepB s).acvFaults, trr := (stepB s).trr, seqStep := .g,
        path := s.path ++ [.g] } ∧
      ((stepB s).acvFaults.getLsbD 15 = true ↔ s.sdw.r1 > s.sdw.r2 ∨ s.sdw.r2 > s.sdw.r3) ∧
      ((stepB s).acvFaults.getLsbD 12 = true ↔ s.intent ≠ .store ∧ s.trr > s.sdw.r2) ∧
      ((stepB s).acvFaults.getLsbD 11 = true ↔
        s.intent ≠ .store ∧ s.sdw.r = false ∧ s.psr ≠ s.tsr) ∧
      ((stepB s).acvFaults.getLsbD 10 = true ↔
        s.intent = .store ∧ (if s.psr = s.tsr then s.prr else s.trr) > s.sdw.r1) ∧
      ((stepB s).acvFaults.getLsbD 9 = true ↔ s.intent = .store ∧ s.sdw.w = false) ∧
      (∀ k, k ∉ [15, 12, 11, 10, 9] → (stepB s).acvFaults.getLsbD k = false) ∧
      (s.intent ≠ .store → (stepB s).trr = if s.sdw.r = false then s.prr else s.trr) ∧
      (s.intent = .store → (stepB s).trr =
        if s.sdw.w = false then s.prr else if s.psr = s.tsr then s.prr else s.trr)

/-- Rule R142: where any violation exists the cycle raises one access violation, once, with the exact
mask of all of them, before any page is looked at: no PTW call and no transfer is made, `final` is not
written, and what step A has done is not undone (memory and an installed SDW stay). -/
def Obligations.CommitRaisesTheExactMask : Prop :=
  ∀ (i : Instr) (s : State) (d : Sdw) (m : Memory), i.wf s.config.nMax = true →
    ResolvesSegment i.intent s i.ports d m → violations i.intent i.ports d ≠ 0 →
      ∃ t, exec i s = .next t ∧
        t.response = some (.faultAcv (violations i.intent i.ports d)
          (ringAfterChecks i.intent i.ports d)) ∧
        t.acvFaults = violations i.intent i.ports d ∧ t.mem = m ∧ t.ptwam = s.ptwam ∧
        t.finalAddr = s.finalAddr ∧ (∀ c ∈ t.trace, c.isAfterCommit = false) ∧
        t.trace.filter Call.isDoFault = [.doFault (.acv (violations i.intent i.ports d))] ∧
        (d.df = true → ¬Bypassed s i.ports → 0 < s.config.amSizeSdw →
          amLookup t.sdwam i.ports.segno = some d)

/-- Rule R141: "A segment with bound `B` has the valid offsets `0 .. 16*B + 15`", and no offset is
outside a segment whose bound is 0x3FFF. -/
def Obligations.BoundCountsSixteenWordUnits : Prop :=
  (∀ (ca : Offset) (d : Sdw),
    boundBits ca d = if ca.toNat ≤ 16 * d.bound.toNat + 15 then 0 else 0x0001#16) ∧
    ∀ (ca : Offset) (d : Sdw), d.bound = 0x3FFF#14 → boundBits ca d = 0

/-! ## Steps H and I -/

/-- FANP as arithmetic (rules R150, R151), and its linearity (rule R152). -/
def Obligations.UnpagedAddressIsLinear : Prop :=
  (∀ (d : Sdw) (ca : Offset),
    (unpagedAddr d ca).toNat = (d.addr.toNat / 16 * 16 + ca.toNat) % 16777216) ∧
    ∀ (d : Sdw) (a b : Offset),
      unpagedAddr d a - unpagedAddr d b = a.setWidth 24 - b.setWidth 24

/-- FAP as arithmetic (rule R158); for a mask that clears the low 4 bits the word in the page and the
page frame do not mix; and with either mask of rule R157 the reduction mod 2^24 removes nothing from
the shifted frame. -/
def Obligations.PagedAddressIsFrameAndWord : Prop :=
  (∀ (mask : Frame) (q : Ptw) (ca : Offset),
    (pagedAddr mask q ca).toNat =
      ((q.addr &&& mask).toNat * 64 + ca.toNat % 1024) % 16777216) ∧
    (∀ (mask : Frame) (q : Ptw) (ca : Offset), mask &&& 0xF#18 = 0 →
      (pagedAddr mask q ca).toNat % 1024 = ca.toNat % 1024 ∧
        (pagedAddr mask q ca).toNat / 1024 = (q.addr &&& mask).toNat / 16 % 16384) ∧
    ∀ q : Ptw, (q.addr &&& 0xFFF0#18).toNat * 64 < 4194304 ∧
      (q.addr &&& 0x3FFF0#18).toNat * 64 < 16777216

/-- An absent page raises a directed fault with its PTW's code in a READ or STORE, before anything is
installed, probed, marked or transferred (rules R154, R172; vector T11). -/
def Obligations.AbsentPageFaults : Prop :=
  ∀ (i : Instr) (s : State) (d : Sdw) (m : Memory) (q : Ptw), i.wf s.config.nMax = true →
    i.intent ≠ .absa → ResolvesSegment i.intent s i.ports d m → AccessAllowed i.intent i.ports d →
    d.u = false → ResolvesPage s i.ports d m q → q.df = false →
      ∃ t, exec i s = .next t ∧
        t.response = some (.faultDf q.fc (ringAfterChecks i.intent i.ports d)) ∧ t.mem = m ∧
        t.finalAddr = s.finalAddr ∧ (∀ k, amLookup t.ptwam k = amLookup s.ptwam k) ∧
        (∀ c ∈ t.trace, c.isTransfer = false ∧ c.isModifyPtw = false) ∧
        t.path = [.a, .b, .g, .i, .fault, .idle]

/-- The second probe (rules R94, R155, R179): for an uninterruptible opcode an absent following page
raises a directed fault with that page's code; the first page's PTW stays installed, its modified
flag is untouched, and nothing is transferred (program P5). -/
def Obligations.SecondProbeFaults : Prop :=
  ∀ (i : Instr) (s : State) (d : Sdw) (m : Memory) (q : Ptw), i.wf s.config.nMax = true →
    i.intent ≠ .absa → Uninterruptible s i.ports → ResolvesSegment i.intent s i.ports d m →
    AccessAllowed i.intent i.ports d → d.u = false → ResolvesPage s i.ports d m q → q.df = true →
    s.populated (nextPtwAt i.ports d) = true →
    (decodePtw (Memory.read m (nextPtwAt i.ports d))).df = false →
      ∃ t, exec i s = .next t ∧
        t.response = some (.faultDf (decodePtw (Memory.read m (nextPtwAt i.ports d))).fc
          (ringAfterChecks i.intent i.ports d)) ∧
        t.mem = m ∧ t.ptw = q ∧ t.finalAddr = s.finalAddr ∧
        (∀ c ∈ t.trace, c.isTransfer = false ∧ c.isModifyPtw = false) ∧
        (¬Bypassed s i.ports → 0 < s.config.amSizePtw →
          amLookup t.ptwam (d.pointer, pageOf i.ports.offset) = some q)

/-- The modified flag (rules R97, R156; the document's property T8): a STORE that finds `M` = 0 makes
exactly one `modify_ptw` call, one that finds it 1 makes none; afterwards the holding register and,
unless bypassed, the PTWAM record have `M` = 1, so that the next STORE to the page finds it. READ and
ABSA never make the call. -/
def Obligations.StoreMarksThePageOnce : Prop :=
  (∀ (p : Ports) (data : List Word) (zone : Option Word) (s t : State) (d : Sdw) (m₁ m : Memory)
    (q : Ptw) (f : PhysAddr), ResolvesSegment .store s p d m₁ → AccessAllowed .store p d →
    FormsPagedAddress .store s p d m₁ q f m → exec (.store p data zone) s = .next t →
      t.trace.filter Call.isModifyPtw = (if q.m then [] else [.modifyPtw d p.offset]) ∧
        t.ptw = { q with m := true } ∧
        (¬Bypassed s p → 0 < s.config.amSizePtw →
          amLookup t.ptwam (d.pointer, pageOf p.offset) = some { q with m := true })) ∧
    ∀ (i : Instr) (s t : State), i.intent ≠ .store → exec i s = .next t →
      t.trace.filter Call.isModifyPtw = []

/-! ## The three operations -/

/-- READ completes (rules R113, R165, R168): where the segment resolves, the access is allowed, the
address forms and the run fits, it answers `Ok` with that address, the `count` words there, and the
ring step B leaves. -/
def Obligations.ReadCompletes : Prop :=
  ∀ (p : Ports) (count : Nat) (s : State) (d : Sdw) (f : PhysAddr) (m : Memory),
    1 ≤ count → count ≤ s.config.nMax → Translates .read s p d f m → RunFits s f count →
      ∃ t rdata, exec (.read p count) s = .next t ∧
        t.response = some (.ok f rdata (ringAfterChecks .read p d)) ∧ rdata.length = count ∧
        (∀ k < count, rdata[k]? = some (Memory.read m (f.toNat + k))) ∧ t.mem = m ∧
        t.sdw = d ∧ t.finalAddr = f ∧ t.acvFaults = 0 ∧ t.lastCycle = some .read ∧ t.seqStep = .idle

/-- STORE, word for word, completes (rules R114, R166, R168): word `k` of the data is stored at
`final + k`, and every other word is as translation left it. -/
def Obligations.StoreCompletes : Prop :=
  ∀ (p : Ports) (data : List Word) (s : State) (d : Sdw) (f : PhysAddr) (m : Memory),
    1 ≤ data.length → data.length ≤ s.config.nMax → Translates .store s p d f m →
    RunFits s f data.length →
      ∃ t, exec (.store p data none) s = .next t ∧
        t.response = some (.ok f [] (ringAfterChecks .store p d)) ∧
        (∀ k (h : k < data.length), Memory.read t.mem (f.toNat + k) = data[k]) ∧
        (∀ a, (a < f.toNat ∨ f.toNat + data.length ≤ a) → Memory.read t.mem a = Memory.read m a) ∧
        t.sdw = d ∧ t.finalAddr = f ∧ t.acvFaults = 0 ∧ t.lastCycle = some .store ∧
        t.seqStep = .idle

/-- STORE as a zone write completes (rules R102, R114, R166): the bits under the mask come from the
datum, the others stay, and every other word is as translation left it. -/
def Obligations.ZoneStoreCompletes : Prop :=
  ∀ (p : Ports) (datum zone : Word) (s : State) (d : Sdw) (f : PhysAddr) (m : Memory),
    1 ≤ s.config.nMax → Translates .store s p d f m → RunFits s f 1 →
      ∃ t, exec (.store p [datum] (some zone)) s = .next t ∧
        t.response = some (.ok f [] (ringAfterChecks .store p d)) ∧
        (∀ k, (Memory.read t.mem f.toNat).getLsbD k =
          if zone.getLsbD k then datum.getLsbD k else (Memory.read m f.toNat).getLsbD k) ∧
        (∀ a, a ≠ f.toNat → Memory.read t.mem a = Memory.read m a) ∧
        t.sdw = d ∧ t.finalAddr = f ∧ t.acvFaults = 0 ∧ t.lastCycle = some .store ∧
        t.seqStep = .idle

/-- ABSA completes (rules R115, R167, R202): also through an SDW or PTW that is not valid, it reports
the address and transfers nothing; memory is as step A left it. -/
def Obligations.AbsaCompletes : Prop :=
  ∀ (p : Ports) (s : State) (d : Sdw) (f : PhysAddr) (m : Memory), Translates .absa s p d f m →
    ∃ t, exec (.absa p) s = .next t ∧ t.response = some (.ok f [] (ringAfterChecks .absa p d)) ∧
      t.mem = m ∧ (∀ c ∈ t.trace, c.isTransfer = false) ∧ t.sdw = d ∧ t.finalAddr = f ∧
      t.acvFaults = 0 ∧ t.lastCycle = some .absa ∧ t.seqStep = .idle

/-- Totality (rules R117, R188): with all of the address space populated a well-formed request is
always answered, or, for READ and STORE, refused because its run would leave the address space. -/
def Obligations.EveryWellFormedRequestIsAnswered : Prop :=
  ∀ (i : Instr) (s : State), i.wf s.config.nMax = true → memSpace ≤ s.config.memWords →
    (∃ t, exec i s = .next t ∧ t.response.isSome = true) ∨
      (i.intent ≠ .absa ∧ exec i s = .refused .transferWraps)

/-- A request that rule R61 rejects is refused by a name of rule R183: a count of 0 or above `N_MAX`,
and a zone write of other than one word. A zone write of no word, or of more than `N_MAX`, is rejected
under both names by R61; that it is called `badCount` is the model's choice (log entry 14). -/
def Obligations.IllFormedRequestsAreRefused : Prop :=
  (∀ (p : Ports) (count : Nat) (s : State), (count = 0 ∨ s.config.nMax < count) →
    exec (.read p count) s = .refused .badCount) ∧
    (∀ (p : Ports) (data : List Word) (zone : Option Word) (s : State),
      (data.length = 0 ∨ s.config.nMax < data.length) →
        exec (.store p data zone) s = .refused .badCount) ∧
    ∀ (p : Ports) (data : List Word) (zone : Word) (s : State), 1 ≤ data.length →
      data.length ≤ s.config.nMax → data.length ≠ 1 →
        exec (.store p data (some zone)) s = .refused .zoneCount

/-- A run that would leave the address space is refused (rules R47, R100, R101; vectors of
95_test_vectors.md section 5). -/
def Obligations.WrappingTransferIsRefused : Prop :=
  (∀ (p : Ports) (count : Nat) (s : State) (d : Sdw) (f : PhysAddr) (m : Memory),
    1 ≤ count → count ≤ s.config.nMax → Translates .read s p d f m →
    f.toNat + count - 1 ≥ memSpace → exec (.read p count) s = .refused .transferWraps) ∧
    ∀ (p : Ports) (data : List Word) (s : State) (d : Sdw) (f : PhysAddr) (m : Memory),
      1 ≤ data.length → data.length ≤ s.config.nMax → Translates .store s p d f m →
      f.toNat + data.length - 1 ≥ memSpace →
        exec (.store p data none) s = .refused .transferWraps

/-! ## Whole-machine rules -/

/-- Rule R19: the latches `opcode` and `opcodeX` are read only through the two opcode predicates, and
`indirect` and `bit29` by nothing. A request that differs in them alone, on whose opcode both
predicates answer the same, is answered in the same way and leaves the same state but for the
latches. -/
def Obligations.LatchesAreReadOnlyByThePredicates : Prop :=
  ∀ (p : Ports) (o : Opcode) (x b c : Bool) (s t : State),
    ((o, x) ∈ s.config.privDesc ↔ (p.opcode, p.opcodeX) ∈ s.config.privDesc) →
    ((o, x) ∈ s.config.uninterruptible ↔ (p.opcode, p.opcodeX) ∈ s.config.uninterruptible) →
      (∀ count, exec (.read p count) s = .next t →
        exec (.read { p with opcode := o, opcodeX := x, indirect := b, bit29 := c } count) s =
          .next { t with opcode := o, opcodeX := x, indirect := b, bit29 := c }) ∧
        (∀ data zone, exec (.store p data zone) s = .next t →
          exec (.store { p with opcode := o, opcodeX := x, indirect := b, bit29 := c } data zone) s =
            .next { t with opcode := o, opcodeX := x, indirect := b, bit29 := c }) ∧
        (exec (.absa p) s = .next t →
          exec (.absa { p with opcode := o, opcodeX := x, indirect := b, bit29 := c }) s =
            .next { t with opcode := o, opcodeX := x, indirect := b, bit29 := c })

/-- Rules R31 and R18: "Nothing of the context carries over from the previous cycle". Two states that
agree on `DSBR`, `AM_ENABLE`, the associative memories, memory and the parameters give the same
response and the same calls and agree on the same things afterwards, whatever their working registers,
`lastCycle` and `diag` hold. -/
def Obligations.ContextDoesNotCarryOver : Prop :=
  ∀ (i : Instr) (s s' t : State), s'.dsbr = s.dsbr → s'.amEnable = s.amEnable →
    s'.sdwam = s.sdwam → s'.ptwam = s.ptwam → s'.mem = s.mem → s'.config = s.config →
    exec i s = .next t →
      ∃ t', exec i s' = .next t' ∧ t'.response = t.response ∧ t'.trace = t.trace ∧
        t'.path = t.path ∧ t'.mem = t.mem ∧ t'.sdwam = t.sdwam ∧ t'.ptwam = t.ptwam ∧
        t'.dsbr = t.dsbr ∧ t'.amEnable = t.amEnable ∧ t'.config = t.config ∧
        t'.acvFaults = t.acvFaults ∧ t'.trr = t.trr ∧ t'.lastCycle = t.lastCycle

/-- Rule R17: in a bypassed cycle nothing the associative memories hold reaches the response, the calls
or memory. -/
def Obligations.BypassedCycleIgnoresTheCaches : Prop :=
  ∀ (i : Instr) (s t : State) (am : AssocMem SegNo Sdw) (pm : AssocMem PtwKey Ptw),
    Bypassed s i.ports → exec i s = .next t →
      ∃ t', exec i { s with sdwam := am, ptwam := pm } = .next t' ∧ t'.response = t.response ∧
        t'.trace = t.trace ∧ t'.mem = t.mem ∧ t'.sdwam = am

/-- Rules R81 and R196: "Every result of a cycle must be correct under either outcome", as long as the
associative memories agree with memory. Where the cached SDW is what a walk would fetch without
changing memory, and the cached PTW is what memory holds for the page, the cycle gives the response
and the memory it would give with both associative memories empty. -/
def Obligations.CoherentCachesDoNotChangeTheResult : Prop :=
  ∀ (i : Instr) (s t : State),
    (∀ d, amLookup s.sdwam i.ports.segno = some d →
      d.df = true ∧ Walks { s with sdwam := [], ptwam := [] } i.ports d s.mem) →
    (∀ d m q, ResolvesSegment i.intent s i.ports d m →
      amLookup s.ptwam (d.pointer, pageOf i.ports.offset) = some q →
        s.populated (ptwAt i.ports d) = true ∧ q = decodePtw (Memory.read m (ptwAt i.ports d))) →
    exec i s = .next t →
      ∃ t', exec i { s with sdwam := [], ptwam := [] } = .next t' ∧ t'.response = t.response ∧
        t'.mem = t.mem

/-- Rules R48 and R176: the side effects of a cycle are idempotent. The same request again, after a READ
or an ABSA or after any fault, is answered in the same way and changes no word of memory. -/
def Obligations.RepeatedCycleIsIdempotent : Prop :=
  ∀ (i : Instr) (s t : State), exec i s = .next t →
    (i.intent ≠ .store ∨ t.response.any Response.isOk = false) →
      ∃ t', exec i t = .next t' ∧ t'.response = t.response ∧ t'.mem = t.mem

/-- Rule R55: a word written by a STORE is what a later READ that resolves to the same physical address
delivers, with no operation between, wherever the READ's own walk has not set a bit in that word. -/
def Obligations.StoredWordsAreReadBack : Prop :=
  ∀ (p p' : Ports) (data rdata : List Word) (count : Nat) (s t t' : State) (f : PhysAddr)
    (r r' : Ring) (ws : List Word), exec (.store p data none) s = .next t →
    t.response = some (.ok f ws r) → exec (.read p' count) t = .next t' →
    t'.response = some (.ok f rdata r') →
      ∀ k, k < count → k < data.length →
        Memory.read t'.mem (f.toNat + k) = Memory.read t.mem (f.toNat + k) → rdata[k]? = data[k]?

/-- Rules R83 and R87: which entry an install writes and what a hit does, for both associative
memories. That the list's order is the order of use is the model's form of the age (log entry 8). -/
def Obligations.InstallReplacesTheLeastRecentlyUsed : Prop :=
  (∀ (size : Nat) (am : AssocMem SegNo Sdw) (k : SegNo) (r : Sdw), 0 < size →
    (am.map Prod.fst).Nodup → am.length ≤ size →
      amLookup (amInstall size am k r) k = some r ∧
        ((∃ r', (k, r') ∈ am) → (amInstall size am k r).length = am.length ∧
          ∀ j, j ≠ k → amLookup (amInstall size am k r) j = amLookup am j) ∧
        ((∀ r', (k, r') ∉ am) → am.length < size → amInstall size am k r = (k, r) :: am) ∧
        ((∀ r', (k, r') ∉ am) → am.length = size → amInstall size am k r = (k, r) :: am.dropLast) ∧
        ((k, r) ∈ am → (amTouch am k).head? = some (k, r) ∧ (amTouch am k).Perm am)) ∧
    ∀ (size : Nat) (am : AssocMem PtwKey Ptw) (k : PtwKey) (r : Ptw), 0 < size →
      (am.map Prod.fst).Nodup → am.length ≤ size →
        amLookup (amInstall size am k r) k = some r ∧
          ((∃ r', (k, r') ∈ am) → (amInstall size am k r).length = am.length ∧
            ∀ j, j ≠ k → amLookup (amInstall size am k r) j = amLookup am j) ∧
          ((∀ r', (k, r') ∉ am) → am.length < size → amInstall size am k r = (k, r) :: am) ∧
          ((∀ r', (k, r') ∉ am) → am.length = size →
            amInstall size am k r = (k, r) :: am.dropLast) ∧
          ((k, r) ∈ am → (amTouch am k).head? = some (k, r) ∧ (amTouch am k).Perm am)

/-! ## Operand words that are not there -/

/-- An operand word that has no memory behind it is refused (rules R42, R183): a READ or a STORE that
translates, whose run stays in the address space and meets a word at or above `MEM_WORDS`. That a run
which also leaves the address space is called `transferWraps` is rules R100 and R101. -/
def Obligations.UnpopulatedOperandIsRefused : Prop :=
  ∀ (p : Ports) (s : State) (d : Sdw) (f : PhysAddr) (m : Memory) (k : Nat),
    s.populated (f.toNat + k) = false →
      (∀ count, 1 ≤ count → count ≤ s.config.nMax → Translates .read s p d f m →
        f.toNat + count ≤ memSpace → k < count →
          exec (.read p count) s = .refused .unpopulatedMemory) ∧
      (∀ data : List Word, 1 ≤ data.length → data.length ≤ s.config.nMax →
        Translates .store s p d f m → f.toNat + data.length ≤ memSpace → k < data.length →
          exec (.store p data none) s = .refused .unpopulatedMemory) ∧
      ∀ datum zone : Word, 1 ≤ s.config.nMax → Translates .store s p d f m → k = 0 →
        exec (.store p [datum] (some zone)) s = .refused .unpopulatedMemory
end

