-- ==== Sys2Proof/Laws/Assoc.lean ====
section
/-! SUPPORT. The laws of the associative memories (40_collaborators.md rules R80 to R87): what a lookup
finds after each operation, that records stay valid, that sizes stay bounded and keys distinct. -/

namespace Sys2Proof.Machine

variable {κ ρ : Type} [DecidableEq κ]

@[simp] theorem amLookup_nil (k : κ) : amLookup ([] : AssocMem κ ρ) k = none := rfl

theorem amLookup_cons (e : κ × ρ) (am : AssocMem κ ρ) (k : κ) :
    amLookup (e :: am) k = if e.1 = k then some e.2 else amLookup am k := rfl

theorem mem_of_amLookup (am : AssocMem κ ρ) (k : κ) (r : ρ) (h : amLookup am k = some r) :
    (k, r) ∈ am := by
  induction am with
  | nil => simp at h
  | cons e rest ih =>
    rw [amLookup_cons] at h
    split at h
    · rename_i hk
      simp only [Option.some.injEq] at h
      subst hk; subst h; simp
    · simp [ih h]

theorem amLookup_eq_none (am : AssocMem κ ρ) (k : κ) :
    amLookup am k = none ↔ ∀ e ∈ am, e.1 ≠ k := by
  induction am with
  | nil => simp
  | cons e rest ih =>
    rw [amLookup_cons]
    by_cases h : e.1 = k <;> simp [h, ih]

theorem amLookup_remove (am : AssocMem κ ρ) (k j : κ) :
    amLookup (amRemove am k) j = if j = k then none else amLookup am j := by
  induction am with
  | nil => simp [amRemove]
  | cons e rest ih =>
    have hc : amRemove (e :: rest) k = if e.1 = k then amRemove rest k else e :: amRemove rest k := by
      by_cases h : e.1 = k <;> simp [amRemove, h]
    rw [hc, amLookup_cons]
    by_cases hk : e.1 = k
    · rw [if_pos hk, ih]
      by_cases hj : j = k
      · simp [hj]
      · have : ¬e.1 = j := fun h => hj (h ▸ hk)
        simp [hj, this]
    · rw [if_neg hk, amLookup_cons, ih]
      by_cases hj : e.1 = j
      · subst hj; simp [hk]
      · simp [hj]

/-- A hit changes no record (rule R83). -/
theorem amLookup_touch (am : AssocMem κ ρ) (k j : κ) : amLookup (amTouch am k) j = amLookup am j := by
  unfold amTouch
  split
  · rename_i r hr
    rw [amLookup_cons, amLookup_remove]
    by_cases h : j = k
    · subst h; simp [hr]
    · have : ¬k = j := fun e => h e.symm
      simp [h, this]
  · rfl

theorem amLookup_update (am : AssocMem κ ρ) (k j : κ) (f : ρ → ρ) :
    amLookup (amUpdate am k f) j = if j = k then (amLookup am k).map f else amLookup am j := by
  induction am with
  | nil => simp [amUpdate]
  | cons e rest ih =>
    have hc : amUpdate (e :: rest) k f = (if e.1 = k then (e.1, f e.2) else e) :: amUpdate rest k f := rfl
    rw [hc, amLookup_cons, amLookup_cons, amLookup_cons, ih]
    by_cases hk : e.1 = k
    · subst hk
      by_cases hj : j = e.1
      · subst hj; simp
      · have : ¬e.1 = j := fun h => hj h.symm
        simp [hj, this]
    · by_cases hj : e.1 = j
      · subst hj; simp [hk]
      · by_cases hjk : j = k
        · subst hjk; simp [hk]
        · simp [hk, hj, hjk]

/-- A lookup after an install finds the installed record, where there is an entry to hold it. -/
theorem amLookup_install_same (size : Nat) (am : AssocMem κ ρ) (k : κ) (r : ρ) (h : 0 < size) :
    amLookup (amInstall size am k r) k = some r := by
  obtain ⟨n, rfl⟩ : ∃ n, size = n + 1 := ⟨size - 1, by omega⟩
  simp [amInstall, amLookup_cons]

theorem amLookup_take (n : Nat) (am : AssocMem κ ρ) (k : κ) :
    amLookup (am.take n) k = amLookup am k ∨ amLookup (am.take n) k = none := by
  induction am generalizing n with
  | nil => simp
  | cons e rest ih =>
    cases n with
    | zero => simp
    | succ n =>
      rw [List.take_succ_cons, amLookup_cons, amLookup_cons]
      split
      · exact Or.inl rfl
      · exact ih n

/-- Another key's lookup finds after an install what it found before, or its entry was replaced. -/
theorem amLookup_install_other (size : Nat) (am : AssocMem κ ρ) (k j : κ) (r : ρ) (h : j ≠ k) :
    amLookup (amInstall size am k r) j = amLookup am j ∨ amLookup (amInstall size am k r) j = none := by
  have h2 := amLookup_take size ((k, r) :: amRemove am k) j
  have : ¬k = j := fun e => h e.symm
  rwa [amLookup_cons, if_neg this, amLookup_remove, if_neg h] at h2

/-! ## A property of every record -/

theorem amRemove_all (am : AssocMem κ ρ) (k : κ) (p : κ × ρ → Bool) (h : am.all p = true) :
    (amRemove am k).all p = true :=
  List.all_eq_true.2 fun e he => List.all_eq_true.1 h e (List.mem_of_mem_filter he)

theorem amTouch_all (am : AssocMem κ ρ) (k : κ) (p : κ × ρ → Bool) (h : am.all p = true) :
    (amTouch am k).all p = true := by
  unfold amTouch
  split
  · rename_i r hr
    rw [List.all_cons, List.all_eq_true.1 h _ (mem_of_amLookup _ _ _ hr), Bool.true_and]
    exact amRemove_all am k p h
  · exact h

theorem amInstall_all (size : Nat) (am : AssocMem κ ρ) (k : κ) (r : ρ) (p : κ × ρ → Bool)
    (h : am.all p = true) (hr : p (k, r) = true) : (amInstall size am k r).all p = true := by
  refine List.all_eq_true.2 fun e he => ?_
  rcases List.mem_cons.1 (List.mem_of_mem_take he) with rfl | he
  · exact hr
  · exact List.all_eq_true.1 (amRemove_all am k p h) e he

theorem amUpdate_all (am : AssocMem κ ρ) (k : κ) (f : ρ → ρ) (p : κ × ρ → Bool)
    (h : am.all p = true) (hf : ∀ j r, p (j, r) = true → p (j, f r) = true) :
    (amUpdate am k f).all p = true := by
  refine List.all_eq_true.2 fun e he => ?_
  obtain ⟨e', he', rfl⟩ := List.mem_map.1 he
  have := List.all_eq_true.1 h e' he'
  split
  · exact hf _ _ this
  · exact this

/-! ## Size and distinct keys -/

/-- An associative memory holds at most `size` entries. -/
theorem length_amInstall (size : Nat) (am : AssocMem κ ρ) (k : κ) (r : ρ) :
    (amInstall size am k r).length ≤ size := by
  simp [amInstall]

theorem length_amRemove (am : AssocMem κ ρ) (k : κ) : (amRemove am k).length ≤ am.length :=
  List.length_filter_le _ _

theorem length_amTouch (am : AssocMem κ ρ) (k : κ) : (amTouch am k).length ≤ am.length := by
  unfold amTouch
  split
  · rename_i r hr
    have : (amRemove am k).length < am.length := by
      refine List.length_filter_lt_length_iff_exists.2 ⟨(k, r), mem_of_amLookup _ _ _ hr, ?_⟩
      simp
    simpa using this
  · exact Nat.le_refl _

@[simp] theorem length_amUpdate (am : AssocMem κ ρ) (k : κ) (f : ρ → ρ) :
    (amUpdate am k f).length = am.length := by
  simp [amUpdate]

theorem keys_amUpdate (am : AssocMem κ ρ) (k : κ) (f : ρ → ρ) :
    (amUpdate am k f).map Prod.fst = am.map Prod.fst := by
  rw [amUpdate, List.map_map]
  refine List.map_congr_left fun e _ => ?_
  simp only [Function.comp]
  split <;> rfl

theorem keys_amRemove_nodup (am : AssocMem κ ρ) (k : κ) (h : (am.map Prod.fst).Nodup) :
    ((amRemove am k).map Prod.fst).Nodup :=
  h.sublist ((List.filter_sublist).map _)

theorem keys_cons_amRemove_nodup (am : AssocMem κ ρ) (k : κ) (r : ρ) (h : (am.map Prod.fst).Nodup) :
    (((k, r) :: amRemove am k).map Prod.fst).Nodup := by
  rw [List.map_cons, List.nodup_cons]
  refine ⟨fun hk => ?_, keys_amRemove_nodup am k h⟩
  obtain ⟨e, he, hek⟩ := List.mem_map.1 hk
  have := List.of_mem_filter he
  simp at this
  exact this hek

theorem keys_amTouch_nodup (am : AssocMem κ ρ) (k : κ) (h : (am.map Prod.fst).Nodup) :
    ((amTouch am k).map Prod.fst).Nodup := by
  unfold amTouch
  split
  · exact keys_cons_amRemove_nodup am k _ h
  · exact h

theorem keys_amInstall_nodup (size : Nat) (am : AssocMem κ ρ) (k : κ) (r : ρ)
    (h : (am.map Prod.fst).Nodup) : ((amInstall size am k r).map Prod.fst).Nodup :=
  (keys_cons_amRemove_nodup am k r h).sublist ((List.take_sublist _ _).map _)

end Sys2Proof.Machine
end

