-- ==== Sys2Proof/Laws/Memory.lean ====
section
/-! SUPPORT. The laws of memory: a read after a write, the canonical form, runs of words. -/

namespace Sys2Proof.Machine

namespace Memory

theorem read_filter_ne (m : Memory) (a b : Nat) :
    read (m.filter (fun e => decide (e.1 ≠ a))) b = if b = a then unlisted else read m b := by
  induction m with
  | nil => simp [read]
  | cons e rest ih =>
    obtain ⟨c, w⟩ := e
    by_cases hca : c = a
    · subst hca
      by_cases hb : b = c
      · subst hb; simp_all
      · have : ¬c = b := fun h => hb h.symm
        simp_all [read]
    · by_cases hcb : c = b
      · subst hcb; simp [read, hca]
      · simp_all [read]

theorem read_insert (m : Memory) (a b : Nat) (v : Word) (hm : ∀ e ∈ m, e.1 ≠ a) : read (insert m a v) b = if b = a then v else read m b := by
  induction m with
  | nil =>
    by_cases hb : b = a
    · subst hb; simp [insert, read]
    · have : ¬a = b := fun h => hb h.symm
      simp [insert, read, hb, this]
  | cons e rest ih =>
    obtain ⟨c, w⟩ := e
    have hc : c ≠ a := hm (c, w) (by simp)
    have ih := ih (fun e he => hm e (by simp [he]))
    by_cases hb : b = a
    · subst hb
      simp only [insert, if_true] at ih ⊢
      split
      · simp [read]
      · simp [read, hc, ih]
    · have : ¬a = b := fun h => hb h.symm
      simp only [insert, hb, if_false] at ih ⊢
      split
      · simp [read, this]
      · simp [read, ih]

/-- A read after a write: the value written at its address, the old value elsewhere. -/
theorem read_write (m : Memory) (a b : Nat) (v : Word) :
    read (write m a v) b = if b = a then v else read m b := by
  unfold write
  by_cases hv : v = unlisted
  · simp only [hv, if_true, read_filter_ne]
  · simp only [hv, if_false]
    rw [read_insert _ _ _ _ (by simp), read_filter_ne]
    split <;> rfl

@[simp] theorem read_write_same (m : Memory) (a : Nat) (v : Word) : read (write m a v) a = v := by
  simp [read_write]

theorem read_write_other (m : Memory) {a b : Nat} (v : Word) (h : b ≠ a) :
    read (write m a v) b = read m b := by
  simp [read_write, h]

/-! ## The canonical form -/

/-- The canonical form with a lower limit on every address. -/
theorem wf_cons (a : Nat) (v : Word) (m : Memory) :
    wf ((a, v) :: m) = true ↔
      a < memSpace ∧ v ≠ unlisted ∧ (∀ e ∈ m, a < e.1) ∧ wf m = true := by
  simp [wf, and_assoc]

theorem wf_filter (m : Memory) (a : Nat) (h : wf m = true) :
    wf (m.filter (fun e => decide (e.1 ≠ a))) = true := by
  induction m with
  | nil => rfl
  | cons e rest ih =>
    obtain ⟨b, w⟩ := e
    rw [wf_cons] at h
    have ih := ih h.2.2.2
    by_cases hb : b = a
    · simpa [hb] using ih
    · have : List.filter (fun e => decide (e.1 ≠ a)) ((b, w) :: rest) =
          (b, w) :: List.filter (fun e => decide (e.1 ≠ a)) rest := by simp [hb]
      rw [this, wf_cons]
      exact ⟨h.1, h.2.1, fun e he => h.2.2.1 e (List.mem_of_mem_filter he), ih⟩

theorem mem_insert (m : Memory) (a : Nat) (v : Word) (e : Nat × Word) (h : e ∈ insert m a v) :
    e = (a, v) ∨ e ∈ m := by
  induction m with
  | nil => simpa [insert] using h
  | cons f rest ih =>
    obtain ⟨b, w⟩ := f
    unfold insert at h
    split at h
    · simpa using h
    · rcases List.mem_cons.1 h with h | h
      · simp [h]
      · rcases ih h with h | h <;> simp [h]

theorem wf_insert (m : Memory) (a : Nat) (v : Word) (ha : a < memSpace) (hv : v ≠ unlisted)
    (hm : ∀ e ∈ m, e.1 ≠ a) (h : wf m = true) : wf (insert m a v) = true := by
  induction m with
  | nil => simp [insert, ha, hv, wf]
  | cons f rest ih =>
    obtain ⟨b, w⟩ := f
    have hb : b ≠ a := hm (b, w) (by simp)
    have h' := (wf_cons _ _ _).1 h
    unfold insert
    split
    · rename_i hab
      rw [wf_cons]
      refine ⟨ha, hv, fun e he => ?_, h⟩
      rcases List.mem_cons.1 he with rfl | he
      · exact hab
      · exact Nat.lt_trans hab (h'.2.2.1 e he)
    · rename_i hab
      rw [wf_cons]
      refine ⟨h'.1, h'.2.1, fun e he => ?_, ih (fun e he => hm e (by simp [he])) h'.2.2.2⟩
      rcases mem_insert _ _ _ _ he with rfl | he
      · exact lt_of_le_of_ne (Nat.le_of_not_lt hab) hb
      · exact h'.2.2.1 e he

/-- A write below 2^24 keeps the canonical form. -/
theorem wf_write (m : Memory) (a : Nat) (v : Word) (ha : a < memSpace) (h : wf m = true) :
    wf (write m a v) = true := by
  unfold write
  by_cases hv : v = unlisted
  · simpa [hv] using wf_filter m a h
  · simp only [hv, if_false]
    exact wf_insert _ _ _ ha hv (by simp) (wf_filter m a h)

theorem read_of_lt (m : Memory) (a : Nat) (h : ∀ e ∈ m, a < e.1) : read m a = unlisted := by
  induction m with
  | nil => rfl
  | cons e rest ih =>
    have : ¬e.1 = a := fun he => absurd (h e (by simp)) (by omega)
    rw [show e = (e.1, e.2) from rfl, read, if_neg this]
    exact ih (fun e he => h e (by simp [he]))

/-- Two memories in canonical form that read alike everywhere are equal. -/
theorem ext_of_wf : ∀ (m n : Memory), wf m = true → wf n = true → (∀ a, read m a = read n a) → m = n
  | [], [], _, _, _ => rfl
  | [], (b, w) :: n, _, hn, h => by
    have hn := (wf_cons _ _ _).1 hn
    exact absurd ((h b).symm.trans rfl) (by simpa [read] using hn.2.1)
  | (a, v) :: m, [], hm, _, h => by
    have hm := (wf_cons _ _ _).1 hm
    exact absurd (h a) (by simpa [read] using hm.2.1)
  | (a, v) :: m, (b, w) :: n, hm, hn, h => by
    have hm' := (wf_cons _ _ _).1 hm
    have hn' := (wf_cons _ _ _).1 hn
    have hab : a = b := by
      rcases Nat.lt_trichotomy a b with hlt | heq | hlt
      · have h1 := h a
        rw [read_of_lt ((b, w) :: n) a] at h1
        · exact absurd (by simpa [read] using h1) hm'.2.1
        · intro e he
          rcases List.mem_cons.1 he with rfl | he
          · exact hlt
          · exact Nat.lt_trans hlt (hn'.2.2.1 e he)
      · exact heq
      · have h1 := h b
        rw [read_of_lt ((a, v) :: m) b] at h1
        · exact absurd (by simpa [read] using h1.symm) hn'.2.1
        · intro e he
          rcases List.mem_cons.1 he with rfl | he
          · exact hlt
          · exact Nat.lt_trans hlt (hm'.2.2.1 e he)
    subst hab
    have hvw : v = w := by simpa [read] using h a
    subst hvw
    have : m = n := by
      refine ext_of_wf m n hm'.2.2.2 hn'.2.2.2 fun c => ?_
      by_cases hc : a = c
      · subst hc
        rw [read_of_lt m a hm'.2.2.1, read_of_lt n a hn'.2.2.1]
      · simpa [read, hc] using h c
    rw [this]

/-! ## Runs of words -/

@[simp] theorem length_readRun (m : Memory) (n a : Nat) : (readRun m a n).length = n := by
  induction n generalizing a with
  | zero => rfl
  | succ n ih => simp [readRun, ih]

theorem getElem?_readRun (m : Memory) (n a i : Nat) (h : i < n) :
    (readRun m a n)[i]? = some (read m (a + i)) := by
  induction n generalizing a i with
  | zero => omega
  | succ n ih =>
    cases i with
    | zero => simp [readRun]
    | succ i =>
      rw [readRun, List.getElem?_cons_succ, ih _ _ (by omega)]
      congr 2; omega

/-- A run of writes leaves every word outside the run alone. -/
theorem read_writeRun_outside (vs : List Word) (m : Memory) (a b : Nat)
    (h : b < a ∨ a + vs.length ≤ b) : read (writeRun m a vs) b = read m b := by
  induction vs generalizing m a with
  | nil => rfl
  | cons v vs ih =>
    rw [List.length_cons] at h
    rw [writeRun, ih _ _ (by omega), read_write_other _ _ (by omega)]

/-- After a run of writes word `i` of the run holds datum `i`. -/
theorem read_writeRun_inside (vs : List Word) (m : Memory) (a i : Nat) (h : i < vs.length) :
    read (writeRun m a vs) (a + i) = vs[i] := by
  induction vs generalizing m a i with
  | nil => simp at h
  | cons v vs ih =>
    cases i with
    | zero =>
      rw [writeRun, read_writeRun_outside _ _ _ _ (by omega), Nat.add_zero]
      simp
    | succ i =>
      rw [writeRun, show a + (i + 1) = a + 1 + i by omega]
      simpa using ih (write m a v) (a + 1) i (by simpa using h)

theorem wf_writeRun (vs : List Word) (m : Memory) (a : Nat) (ha : a + vs.length ≤ memSpace)
    (h : wf m = true) : wf (writeRun m a vs) = true := by
  induction vs generalizing m a with
  | nil => exact h
  | cons v vs ih =>
    rw [List.length_cons] at ha
    exact ih _ _ (by omega) (wf_write m a v (by omega) h)

end Memory

/-! ## The checked accesses -/

namespace State

theorem populated_iff (s : State) (a : Nat) :
    s.populated a = true ↔ a < s.config.memWords ∧ a < memSpace := by
  simp [populated]

theorem memRead_some (s : State) (a : Nat) (h : s.populated a = true) :
    s.memRead a = some (Memory.read s.mem a) := by
  simp [memRead, h]

/-- Everything a checked read can do. -/
theorem memRead_eq_some (s : State) (a : Nat) (w : Word) :
    s.memRead a = some w ↔ s.populated a = true ∧ w = Memory.read s.mem a := by
  unfold memRead
  split
  · rename_i h
    simp only [Option.some.injEq, h, true_and]
    exact ⟨Eq.symm, Eq.symm⟩
  · rename_i h
    simp [h]

theorem memWrite_some (s : State) (a : Nat) (v : Word) (h : s.populated a = true) :
    s.memWrite a v = some (s.setMem (Memory.write s.mem a v)) := by
  simp [memWrite, h]

/-- Everything a checked write can do. -/
theorem memWrite_eq_some (s t : State) (a : Nat) (v : Word) :
    s.memWrite a v = some t ↔
      s.populated a = true ∧ t = s.setMem (Memory.write s.mem a v) := by
  unfold memWrite
  split
  · rename_i h
    simp only [Option.some.injEq, h, true_and]
    exact ⟨Eq.symm, Eq.symm⟩
  · rename_i h
    simp [h]

/-- Everything a checked run of reads can do. -/
theorem memReadRun_eq_some (s : State) (n a : Nat) (ws : List Word) :
    s.memReadRun a n = some ws ↔
      (∀ i < n, s.populated (a + i) = true) ∧ ws = Memory.readRun s.mem a n := by
  induction n generalizing a ws with
  | zero =>
    simp only [memReadRun, Memory.readRun, Option.some.injEq, Nat.not_lt_zero, false_implies,
      implies_true, true_and]
    exact ⟨Eq.symm, Eq.symm⟩
  | succ n ih =>
    rw [memReadRun]
    constructor
    · intro h
      split at h
      · rename_i w ws' hw hws
        obtain ⟨hp, rfl⟩ := (memRead_eq_some _ _ _).1 hw
        obtain ⟨hq, rfl⟩ := (ih _ _).1 hws
        refine ⟨fun i hi => ?_, ?_⟩
        · cases i with
          | zero => exact hp
          | succ i => rw [show a + (i + 1) = a + 1 + i by omega]; exact hq i (by omega)
        · simpa [Memory.readRun, eq_comm] using h
      · cases h
    · rintro ⟨hp, rfl⟩
      have h0 : s.memRead a = some (Memory.read s.mem a) := memRead_some s a (hp 0 (by omega))
      have h1 : s.memReadRun (a + 1) n = some (Memory.readRun s.mem (a + 1) n) :=
        (ih _ _).2 ⟨fun i hi => by
          have := hp (i + 1) (by omega)
          rwa [show a + (i + 1) = a + 1 + i by omega] at this, rfl⟩
      simp [h0, h1, Memory.readRun]

/-- Everything a checked run of writes can do. -/
theorem memWriteRun_eq_some (vs : List Word) (s t : State) (a : Nat) :
    s.memWriteRun a vs = some t ↔
      (∀ i < vs.length, s.populated (a + i) = true) ∧
        t = s.setMem (Memory.writeRun s.mem a vs) := by
  induction vs generalizing s a with
  | nil =>
    simp only [memWriteRun, Memory.writeRun, Option.some.injEq, List.length_nil, Nat.not_lt_zero,
      false_implies, implies_true, true_and, setMem]
    exact ⟨Eq.symm, Eq.symm⟩
  | cons v vs ih =>
    rw [memWriteRun]
    by_cases hp : s.populated a = true
    · rw [memWrite_some s a v hp]
      simp only
      rw [ih]
      have hpop : ∀ b, (s.setMem (Memory.write s.mem a v)).populated b = s.populated b := fun _ => rfl
      simp only [hpop]
      have hmem : (s.setMem (Memory.write s.mem a v)).setMem
          (Memory.writeRun (s.setMem (Memory.write s.mem a v)).mem (a + 1) vs) =
          s.setMem (Memory.writeRun s.mem a (v :: vs)) := rfl
      rw [hmem]
      refine and_congr_left fun _ => ⟨fun h i hi => ?_, fun h i hi => ?_⟩
      · cases i with
        | zero => exact hp
        | succ i =>
          rw [show a + (i + 1) = a + 1 + i by omega]
          exact h i (by simpa using hi)
      · have := h (i + 1) (by simpa using hi)
        rwa [show a + (i + 1) = a + 1 + i by omega] at this
    · have : s.memWrite a v = none := by simp [memWrite, hp]
      rw [this]
      simp only [reduceCtorEq, false_iff]
      exact fun h => hp (h.1 0 (by simp))

end State

end Sys2Proof.Machine
end

