-- ==== Sys2Proof/Laws/State.lean ====
section
/-! SUPPORT. For each update of the state one lemma per field, true by rfl and given to simp: no later
proof unfolds a record update. The proofs are written `(rfl)`, in parentheses: simp then uses each as an
equation and not as a definitional unfolding, and so rewrites a condition together with the instance
that decides it. -/

namespace Sys2Proof.Machine.State

variable (s : State)

/-! ## `setStep` -/

@[simp] theorem setStep_tsr (x : SeqStep) : (s.setStep x).tsr = s.tsr := (rfl)
@[simp] theorem setStep_ca (x : SeqStep) : (s.setStep x).ca = s.ca := (rfl)
@[simp] theorem setStep_trr (x : SeqStep) : (s.setStep x).trr = s.trr := (rfl)
@[simp] theorem setStep_psr (x : SeqStep) : (s.setStep x).psr = s.psr := (rfl)
@[simp] theorem setStep_prr (x : SeqStep) : (s.setStep x).prr = s.prr := (rfl)
@[simp] theorem setStep_intent (x : SeqStep) : (s.setStep x).intent = s.intent := (rfl)
@[simp] theorem setStep_opcode (x : SeqStep) : (s.setStep x).opcode = s.opcode := (rfl)
@[simp] theorem setStep_opcodeX (x : SeqStep) : (s.setStep x).opcodeX = s.opcodeX := (rfl)
@[simp] theorem setStep_indirect (x : SeqStep) : (s.setStep x).indirect = s.indirect := (rfl)
@[simp] theorem setStep_bit29 (x : SeqStep) : (s.setStep x).bit29 = s.bit29 := (rfl)
@[simp] theorem setStep_acvFaults (x : SeqStep) : (s.setStep x).acvFaults = s.acvFaults := (rfl)
@[simp] theorem setStep_noMatch (x : SeqStep) : (s.setStep x).noMatch = s.noMatch := (rfl)
@[simp] theorem setStep_seqStep (x : SeqStep) : (s.setStep x).seqStep = x := (rfl)
@[simp] theorem setStep_sdw (x : SeqStep) : (s.setStep x).sdw = s.sdw := (rfl)
@[simp] theorem setStep_ptw (x : SeqStep) : (s.setStep x).ptw = s.ptw := (rfl)
@[simp] theorem setStep_finalAddr (x : SeqStep) : (s.setStep x).finalAddr = s.finalAddr := (rfl)
@[simp] theorem setStep_dsbr (x : SeqStep) : (s.setStep x).dsbr = s.dsbr := (rfl)
@[simp] theorem setStep_amEnable (x : SeqStep) : (s.setStep x).amEnable = s.amEnable := (rfl)
@[simp] theorem setStep_sdwam (x : SeqStep) : (s.setStep x).sdwam = s.sdwam := (rfl)
@[simp] theorem setStep_ptwam (x : SeqStep) : (s.setStep x).ptwam = s.ptwam := (rfl)
@[simp] theorem setStep_lastCycle (x : SeqStep) : (s.setStep x).lastCycle = s.lastCycle := (rfl)
@[simp] theorem setStep_diag (x : SeqStep) : (s.setStep x).diag = s.diag := (rfl)
@[simp] theorem setStep_mem (x : SeqStep) : (s.setStep x).mem = s.mem := (rfl)
@[simp] theorem setStep_config (x : SeqStep) : (s.setStep x).config = s.config := (rfl)
@[simp] theorem setStep_inputs (x : SeqStep) : (s.setStep x).inputs = s.inputs := (rfl)
@[simp] theorem setStep_response (x : SeqStep) : (s.setStep x).response = s.response := (rfl)
@[simp] theorem setStep_trace (x : SeqStep) : (s.setStep x).trace = s.trace := (rfl)
@[simp] theorem setStep_path (x : SeqStep) : (s.setStep x).path = s.path ++ [x] := (rfl)
@[simp] theorem setStep_freeCount (x : SeqStep) : (s.setStep x).freeCount = s.freeCount := (rfl)

/-! ## `record` -/

@[simp] theorem record_tsr (c : Call) : (s.record c).tsr = s.tsr := (rfl)
@[simp] theorem record_ca (c : Call) : (s.record c).ca = s.ca := (rfl)
@[simp] theorem record_trr (c : Call) : (s.record c).trr = s.trr := (rfl)
@[simp] theorem record_psr (c : Call) : (s.record c).psr = s.psr := (rfl)
@[simp] theorem record_prr (c : Call) : (s.record c).prr = s.prr := (rfl)
@[simp] theorem record_intent (c : Call) : (s.record c).intent = s.intent := (rfl)
@[simp] theorem record_opcode (c : Call) : (s.record c).opcode = s.opcode := (rfl)
@[simp] theorem record_opcodeX (c : Call) : (s.record c).opcodeX = s.opcodeX := (rfl)
@[simp] theorem record_indirect (c : Call) : (s.record c).indirect = s.indirect := (rfl)
@[simp] theorem record_bit29 (c : Call) : (s.record c).bit29 = s.bit29 := (rfl)
@[simp] theorem record_acvFaults (c : Call) : (s.record c).acvFaults = s.acvFaults := (rfl)
@[simp] theorem record_noMatch (c : Call) : (s.record c).noMatch = s.noMatch := (rfl)
@[simp] theorem record_seqStep (c : Call) : (s.record c).seqStep = s.seqStep := (rfl)
@[simp] theorem record_sdw (c : Call) : (s.record c).sdw = s.sdw := (rfl)
@[simp] theorem record_ptw (c : Call) : (s.record c).ptw = s.ptw := (rfl)
@[simp] theorem record_finalAddr (c : Call) : (s.record c).finalAddr = s.finalAddr := (rfl)
@[simp] theorem record_dsbr (c : Call) : (s.record c).dsbr = s.dsbr := (rfl)
@[simp] theorem record_amEnable (c : Call) : (s.record c).amEnable = s.amEnable := (rfl)
@[simp] theorem record_sdwam (c : Call) : (s.record c).sdwam = s.sdwam := (rfl)
@[simp] theorem record_ptwam (c : Call) : (s.record c).ptwam = s.ptwam := (rfl)
@[simp] theorem record_lastCycle (c : Call) : (s.record c).lastCycle = s.lastCycle := (rfl)
@[simp] theorem record_diag (c : Call) : (s.record c).diag = s.diag := (rfl)
@[simp] theorem record_mem (c : Call) : (s.record c).mem = s.mem := (rfl)
@[simp] theorem record_config (c : Call) : (s.record c).config = s.config := (rfl)
@[simp] theorem record_inputs (c : Call) : (s.record c).inputs = s.inputs := (rfl)
@[simp] theorem record_response (c : Call) : (s.record c).response = s.response := (rfl)
@[simp] theorem record_trace (c : Call) : (s.record c).trace = s.trace ++ [c] := (rfl)
@[simp] theorem record_path (c : Call) : (s.record c).path = s.path := (rfl)
@[simp] theorem record_freeCount (c : Call) : (s.record c).freeCount = s.freeCount := (rfl)

/-! ## `setSdw` -/

@[simp] theorem setSdw_tsr (d : Sdw) : (s.setSdw d).tsr = s.tsr := (rfl)
@[simp] theorem setSdw_ca (d : Sdw) : (s.setSdw d).ca = s.ca := (rfl)
@[simp] theorem setSdw_trr (d : Sdw) : (s.setSdw d).trr = s.trr := (rfl)
@[simp] theorem setSdw_psr (d : Sdw) : (s.setSdw d).psr = s.psr := (rfl)
@[simp] theorem setSdw_prr (d : Sdw) : (s.setSdw d).prr = s.prr := (rfl)
@[simp] theorem setSdw_intent (d : Sdw) : (s.setSdw d).intent = s.intent := (rfl)
@[simp] theorem setSdw_opcode (d : Sdw) : (s.setSdw d).opcode = s.opcode := (rfl)
@[simp] theorem setSdw_opcodeX (d : Sdw) : (s.setSdw d).opcodeX = s.opcodeX := (rfl)
@[simp] theorem setSdw_indirect (d : Sdw) : (s.setSdw d).indirect = s.indirect := (rfl)
@[simp] theorem setSdw_bit29 (d : Sdw) : (s.setSdw d).bit29 = s.bit29 := (rfl)
@[simp] theorem setSdw_acvFaults (d : Sdw) : (s.setSdw d).acvFaults = s.acvFaults := (rfl)
@[simp] theorem setSdw_noMatch (d : Sdw) : (s.setSdw d).noMatch = s.noMatch := (rfl)
@[simp] theorem setSdw_seqStep (d : Sdw) : (s.setSdw d).seqStep = s.seqStep := (rfl)
@[simp] theorem setSdw_sdw (d : Sdw) : (s.setSdw d).sdw = d := (rfl)
@[simp] theorem setSdw_ptw (d : Sdw) : (s.setSdw d).ptw = s.ptw := (rfl)
@[simp] theorem setSdw_finalAddr (d : Sdw) : (s.setSdw d).finalAddr = s.finalAddr := (rfl)
@[simp] theorem setSdw_dsbr (d : Sdw) : (s.setSdw d).dsbr = s.dsbr := (rfl)
@[simp] theorem setSdw_amEnable (d : Sdw) : (s.setSdw d).amEnable = s.amEnable := (rfl)
@[simp] theorem setSdw_sdwam (d : Sdw) : (s.setSdw d).sdwam = s.sdwam := (rfl)
@[simp] theorem setSdw_ptwam (d : Sdw) : (s.setSdw d).ptwam = s.ptwam := (rfl)
@[simp] theorem setSdw_lastCycle (d : Sdw) : (s.setSdw d).lastCycle = s.lastCycle := (rfl)
@[simp] theorem setSdw_diag (d : Sdw) : (s.setSdw d).diag = s.diag := (rfl)
@[simp] theorem setSdw_mem (d : Sdw) : (s.setSdw d).mem = s.mem := (rfl)
@[simp] theorem setSdw_config (d : Sdw) : (s.setSdw d).config = s.config := (rfl)
@[simp] theorem setSdw_inputs (d : Sdw) : (s.setSdw d).inputs = s.inputs := (rfl)
@[simp] theorem setSdw_response (d : Sdw) : (s.setSdw d).response = s.response := (rfl)
@[simp] theorem setSdw_trace (d : Sdw) : (s.setSdw d).trace = s.trace := (rfl)
@[simp] theorem setSdw_path (d : Sdw) : (s.setSdw d).path = s.path := (rfl)
@[simp] theorem setSdw_freeCount (d : Sdw) : (s.setSdw d).freeCount = s.freeCount := (rfl)

/-! ## `setPtw` -/

@[simp] theorem setPtw_tsr (p : Ptw) : (s.setPtw p).tsr = s.tsr := (rfl)
@[simp] theorem setPtw_ca (p : Ptw) : (s.setPtw p).ca = s.ca := (rfl)
@[simp] theorem setPtw_trr (p : Ptw) : (s.setPtw p).trr = s.trr := (rfl)
@[simp] theorem setPtw_psr (p : Ptw) : (s.setPtw p).psr = s.psr := (rfl)
@[simp] theorem setPtw_prr (p : Ptw) : (s.setPtw p).prr = s.prr := (rfl)
@[simp] theorem setPtw_intent (p : Ptw) : (s.setPtw p).intent = s.intent := (rfl)
@[simp] theorem setPtw_opcode (p : Ptw) : (s.setPtw p).opcode = s.opcode := (rfl)
@[simp] theorem setPtw_opcodeX (p : Ptw) : (s.setPtw p).opcodeX = s.opcodeX := (rfl)
@[simp] theorem setPtw_indirect (p : Ptw) : (s.setPtw p).indirect = s.indirect := (rfl)
@[simp] theorem setPtw_bit29 (p : Ptw) : (s.setPtw p).bit29 = s.bit29 := (rfl)
@[simp] theorem setPtw_acvFaults (p : Ptw) : (s.setPtw p).acvFaults = s.acvFaults := (rfl)
@[simp] theorem setPtw_noMatch (p : Ptw) : (s.setPtw p).noMatch = s.noMatch := (rfl)
@[simp] theorem setPtw_seqStep (p : Ptw) : (s.setPtw p).seqStep = s.seqStep := (rfl)
@[simp] theorem setPtw_sdw (p : Ptw) : (s.setPtw p).sdw = s.sdw := (rfl)
@[simp] theorem setPtw_ptw (p : Ptw) : (s.setPtw p).ptw = p := (rfl)
@[simp] theorem setPtw_finalAddr (p : Ptw) : (s.setPtw p).finalAddr = s.finalAddr := (rfl)
@[simp] theorem setPtw_dsbr (p : Ptw) : (s.setPtw p).dsbr = s.dsbr := (rfl)
@[simp] theorem setPtw_amEnable (p : Ptw) : (s.setPtw p).amEnable = s.amEnable := (rfl)
@[simp] theorem setPtw_sdwam (p : Ptw) : (s.setPtw p).sdwam = s.sdwam := (rfl)
@[simp] theorem setPtw_ptwam (p : Ptw) : (s.setPtw p).ptwam = s.ptwam := (rfl)
@[simp] theorem setPtw_lastCycle (p : Ptw) : (s.setPtw p).lastCycle = s.lastCycle := (rfl)
@[simp] theorem setPtw_diag (p : Ptw) : (s.setPtw p).diag = s.diag := (rfl)
@[simp] theorem setPtw_mem (p : Ptw) : (s.setPtw p).mem = s.mem := (rfl)
@[simp] theorem setPtw_config (p : Ptw) : (s.setPtw p).config = s.config := (rfl)
@[simp] theorem setPtw_inputs (p : Ptw) : (s.setPtw p).inputs = s.inputs := (rfl)
@[simp] theorem setPtw_response (p : Ptw) : (s.setPtw p).response = s.response := (rfl)
@[simp] theorem setPtw_trace (p : Ptw) : (s.setPtw p).trace = s.trace := (rfl)
@[simp] theorem setPtw_path (p : Ptw) : (s.setPtw p).path = s.path := (rfl)
@[simp] theorem setPtw_freeCount (p : Ptw) : (s.setPtw p).freeCount = s.freeCount := (rfl)

/-! ## `setTrr` -/

@[simp] theorem setTrr_tsr (r : Ring) : (s.setTrr r).tsr = s.tsr := (rfl)
@[simp] theorem setTrr_ca (r : Ring) : (s.setTrr r).ca = s.ca := (rfl)
@[simp] theorem setTrr_trr (r : Ring) : (s.setTrr r).trr = r := (rfl)
@[simp] theorem setTrr_psr (r : Ring) : (s.setTrr r).psr = s.psr := (rfl)
@[simp] theorem setTrr_prr (r : Ring) : (s.setTrr r).prr = s.prr := (rfl)
@[simp] theorem setTrr_intent (r : Ring) : (s.setTrr r).intent = s.intent := (rfl)
@[simp] theorem setTrr_opcode (r : Ring) : (s.setTrr r).opcode = s.opcode := (rfl)
@[simp] theorem setTrr_opcodeX (r : Ring) : (s.setTrr r).opcodeX = s.opcodeX := (rfl)
@[simp] theorem setTrr_indirect (r : Ring) : (s.setTrr r).indirect = s.indirect := (rfl)
@[simp] theorem setTrr_bit29 (r : Ring) : (s.setTrr r).bit29 = s.bit29 := (rfl)
@[simp] theorem setTrr_acvFaults (r : Ring) : (s.setTrr r).acvFaults = s.acvFaults := (rfl)
@[simp] theorem setTrr_noMatch (r : Ring) : (s.setTrr r).noMatch = s.noMatch := (rfl)
@[simp] theorem setTrr_seqStep (r : Ring) : (s.setTrr r).seqStep = s.seqStep := (rfl)
@[simp] theorem setTrr_sdw (r : Ring) : (s.setTrr r).sdw = s.sdw := (rfl)
@[simp] theorem setTrr_ptw (r : Ring) : (s.setTrr r).ptw = s.ptw := (rfl)
@[simp] theorem setTrr_finalAddr (r : Ring) : (s.setTrr r).finalAddr = s.finalAddr := (rfl)
@[simp] theorem setTrr_dsbr (r : Ring) : (s.setTrr r).dsbr = s.dsbr := (rfl)
@[simp] theorem setTrr_amEnable (r : Ring) : (s.setTrr r).amEnable = s.amEnable := (rfl)
@[simp] theorem setTrr_sdwam (r : Ring) : (s.setTrr r).sdwam = s.sdwam := (rfl)
@[simp] theorem setTrr_ptwam (r : Ring) : (s.setTrr r).ptwam = s.ptwam := (rfl)
@[simp] theorem setTrr_lastCycle (r : Ring) : (s.setTrr r).lastCycle = s.lastCycle := (rfl)
@[simp] theorem setTrr_diag (r : Ring) : (s.setTrr r).diag = s.diag := (rfl)
@[simp] theorem setTrr_mem (r : Ring) : (s.setTrr r).mem = s.mem := (rfl)
@[simp] theorem setTrr_config (r : Ring) : (s.setTrr r).config = s.config := (rfl)
@[simp] theorem setTrr_inputs (r : Ring) : (s.setTrr r).inputs = s.inputs := (rfl)
@[simp] theorem setTrr_response (r : Ring) : (s.setTrr r).response = s.response := (rfl)
@[simp] theorem setTrr_trace (r : Ring) : (s.setTrr r).trace = s.trace := (rfl)
@[simp] theorem setTrr_path (r : Ring) : (s.setTrr r).path = s.path := (rfl)
@[simp] theorem setTrr_freeCount (r : Ring) : (s.setTrr r).freeCount = s.freeCount := (rfl)

/-! ## `orAcv` -/

@[simp] theorem orAcv_tsr (b : AcvMask) : (s.orAcv b).tsr = s.tsr := (rfl)
@[simp] theorem orAcv_ca (b : AcvMask) : (s.orAcv b).ca = s.ca := (rfl)
@[simp] theorem orAcv_trr (b : AcvMask) : (s.orAcv b).trr = s.trr := (rfl)
@[simp] theorem orAcv_psr (b : AcvMask) : (s.orAcv b).psr = s.psr := (rfl)
@[simp] theorem orAcv_prr (b : AcvMask) : (s.orAcv b).prr = s.prr := (rfl)
@[simp] theorem orAcv_intent (b : AcvMask) : (s.orAcv b).intent = s.intent := (rfl)
@[simp] theorem orAcv_opcode (b : AcvMask) : (s.orAcv b).opcode = s.opcode := (rfl)
@[simp] theorem orAcv_opcodeX (b : AcvMask) : (s.orAcv b).opcodeX = s.opcodeX := (rfl)
@[simp] theorem orAcv_indirect (b : AcvMask) : (s.orAcv b).indirect = s.indirect := (rfl)
@[simp] theorem orAcv_bit29 (b : AcvMask) : (s.orAcv b).bit29 = s.bit29 := (rfl)
@[simp] theorem orAcv_acvFaults (b : AcvMask) : (s.orAcv b).acvFaults = s.acvFaults ||| b := (rfl)
@[simp] theorem orAcv_noMatch (b : AcvMask) : (s.orAcv b).noMatch = s.noMatch := (rfl)
@[simp] theorem orAcv_seqStep (b : AcvMask) : (s.orAcv b).seqStep = s.seqStep := (rfl)
@[simp] theorem orAcv_sdw (b : AcvMask) : (s.orAcv b).sdw = s.sdw := (rfl)
@[simp] theorem orAcv_ptw (b : AcvMask) : (s.orAcv b).ptw = s.ptw := (rfl)
@[simp] theorem orAcv_finalAddr (b : AcvMask) : (s.orAcv b).finalAddr = s.finalAddr := (rfl)
@[simp] theorem orAcv_dsbr (b : AcvMask) : (s.orAcv b).dsbr = s.dsbr := (rfl)
@[simp] theorem orAcv_amEnable (b : AcvMask) : (s.orAcv b).amEnable = s.amEnable := (rfl)
@[simp] theorem orAcv_sdwam (b : AcvMask) : (s.orAcv b).sdwam = s.sdwam := (rfl)
@[simp] theorem orAcv_ptwam (b : AcvMask) : (s.orAcv b).ptwam = s.ptwam := (rfl)
@[simp] theorem orAcv_lastCycle (b : AcvMask) : (s.orAcv b).lastCycle = s.lastCycle := (rfl)
@[simp] theorem orAcv_diag (b : AcvMask) : (s.orAcv b).diag = s.diag := (rfl)
@[simp] theorem orAcv_mem (b : AcvMask) : (s.orAcv b).mem = s.mem := (rfl)
@[simp] theorem orAcv_config (b : AcvMask) : (s.orAcv b).config = s.config := (rfl)
@[simp] theorem orAcv_inputs (b : AcvMask) : (s.orAcv b).inputs = s.inputs := (rfl)
@[simp] theorem orAcv_response (b : AcvMask) : (s.orAcv b).response = s.response := (rfl)
@[simp] theorem orAcv_trace (b : AcvMask) : (s.orAcv b).trace = s.trace := (rfl)
@[simp] theorem orAcv_path (b : AcvMask) : (s.orAcv b).path = s.path := (rfl)
@[simp] theorem orAcv_freeCount (b : AcvMask) : (s.orAcv b).freeCount = s.freeCount := (rfl)

/-! ## `setFinal` -/

@[simp] theorem setFinal_tsr (a : PhysAddr) : (s.setFinal a).tsr = s.tsr := (rfl)
@[simp] theorem setFinal_ca (a : PhysAddr) : (s.setFinal a).ca = s.ca := (rfl)
@[simp] theorem setFinal_trr (a : PhysAddr) : (s.setFinal a).trr = s.trr := (rfl)
@[simp] theorem setFinal_psr (a : PhysAddr) : (s.setFinal a).psr = s.psr := (rfl)
@[simp] theorem setFinal_prr (a : PhysAddr) : (s.setFinal a).prr = s.prr := (rfl)
@[simp] theorem setFinal_intent (a : PhysAddr) : (s.setFinal a).intent = s.intent := (rfl)
@[simp] theorem setFinal_opcode (a : PhysAddr) : (s.setFinal a).opcode = s.opcode := (rfl)
@[simp] theorem setFinal_opcodeX (a : PhysAddr) : (s.setFinal a).opcodeX = s.opcodeX := (rfl)
@[simp] theorem setFinal_indirect (a : PhysAddr) : (s.setFinal a).indirect = s.indirect := (rfl)
@[simp] theorem setFinal_bit29 (a : PhysAddr) : (s.setFinal a).bit29 = s.bit29 := (rfl)
@[simp] theorem setFinal_acvFaults (a : PhysAddr) : (s.setFinal a).acvFaults = s.acvFaults := (rfl)
@[simp] theorem setFinal_noMatch (a : PhysAddr) : (s.setFinal a).noMatch = s.noMatch := (rfl)
@[simp] theorem setFinal_seqStep (a : PhysAddr) : (s.setFinal a).seqStep = s.seqStep := (rfl)
@[simp] theorem setFinal_sdw (a : PhysAddr) : (s.setFinal a).sdw = s.sdw := (rfl)
@[simp] theorem setFinal_ptw (a : PhysAddr) : (s.setFinal a).ptw = s.ptw := (rfl)
@[simp] theorem setFinal_finalAddr (a : PhysAddr) : (s.setFinal a).finalAddr = a := (rfl)
@[simp] theorem setFinal_dsbr (a : PhysAddr) : (s.setFinal a).dsbr = s.dsbr := (rfl)
@[simp] theorem setFinal_amEnable (a : PhysAddr) : (s.setFinal a).amEnable = s.amEnable := (rfl)
@[simp] theorem setFinal_sdwam (a : PhysAddr) : (s.setFinal a).sdwam = s.sdwam := (rfl)
@[simp] theorem setFinal_ptwam (a : PhysAddr) : (s.setFinal a).ptwam = s.ptwam := (rfl)
@[simp] theorem setFinal_lastCycle (a : PhysAddr) : (s.setFinal a).lastCycle = s.lastCycle := (rfl)
@[simp] theorem setFinal_diag (a : PhysAddr) : (s.setFinal a).diag = s.diag := (rfl)
@[simp] theorem setFinal_mem (a : PhysAddr) : (s.setFinal a).mem = s.mem := (rfl)
@[simp] theorem setFinal_config (a : PhysAddr) : (s.setFinal a).config = s.config := (rfl)
@[simp] theorem setFinal_inputs (a : PhysAddr) : (s.setFinal a).inputs = s.inputs := (rfl)
@[simp] theorem setFinal_response (a : PhysAddr) : (s.setFinal a).response = s.response := (rfl)
@[simp] theorem setFinal_trace (a : PhysAddr) : (s.setFinal a).trace = s.trace := (rfl)
@[simp] theorem setFinal_path (a : PhysAddr) : (s.setFinal a).path = s.path := (rfl)
@[simp] theorem setFinal_freeCount (a : PhysAddr) : (s.setFinal a).freeCount = s.freeCount := (rfl)

/-! ## `setSdwam` -/

@[simp] theorem setSdwam_tsr (am : AssocMem SegNo Sdw) : (s.setSdwam am).tsr = s.tsr := (rfl)
@[simp] theorem setSdwam_ca (am : AssocMem SegNo Sdw) : (s.setSdwam am).ca = s.ca := (rfl)
@[simp] theorem setSdwam_trr (am : AssocMem SegNo Sdw) : (s.setSdwam am).trr = s.trr := (rfl)
@[simp] theorem setSdwam_psr (am : AssocMem SegNo Sdw) : (s.setSdwam am).psr = s.psr := (rfl)
@[simp] theorem setSdwam_prr (am : AssocMem SegNo Sdw) : (s.setSdwam am).prr = s.prr := (rfl)
@[simp] theorem setSdwam_intent (am : AssocMem SegNo Sdw) :
    (s.setSdwam am).intent = s.intent := (rfl)
@[simp] theorem setSdwam_opcode (am : AssocMem SegNo Sdw) :
    (s.setSdwam am).opcode = s.opcode := (rfl)
@[simp] theorem setSdwam_opcodeX (am : AssocMem SegNo Sdw) :
    (s.setSdwam am).opcodeX = s.opcodeX := (rfl)
@[simp] theorem setSdwam_indirect (am : AssocMem SegNo Sdw) :
    (s.setSdwam am).indirect = s.indirect := (rfl)
@[simp] theorem setSdwam_bit29 (am : AssocMem SegNo Sdw) : (s.setSdwam am).bit29 = s.bit29 := (rfl)
@[simp] theorem setSdwam_acvFaults (am : AssocMem SegNo Sdw) :
    (s.setSdwam am).acvFaults = s.acvFaults := (rfl)
@[simp] theorem setSdwam_noMatch (am : AssocMem SegNo Sdw) :
    (s.setSdwam am).noMatch = s.noMatch := (rfl)
@[simp] theorem setSdwam_seqStep (am : AssocMem SegNo Sdw) :
    (s.setSdwam am).seqStep = s.seqStep := (rfl)
@[simp] theorem setSdwam_sdw (am : AssocMem SegNo Sdw) : (s.setSdwam am).sdw = s.sdw := (rfl)
@[simp] theorem setSdwam_ptw (am : AssocMem SegNo Sdw) : (s.setSdwam am).ptw = s.ptw := (rfl)
@[simp] theorem setSdwam_finalAddr (am : AssocMem SegNo Sdw) :
    (s.setSdwam am).finalAddr = s.finalAddr := (rfl)
@[simp] theorem setSdwam_dsbr (am : AssocMem SegNo Sdw) : (s.setSdwam am).dsbr = s.dsbr := (rfl)
@[simp] theorem setSdwam_amEnable (am : AssocMem SegNo Sdw) :
    (s.setSdwam am).amEnable = s.amEnable := (rfl)
@[simp] theorem setSdwam_sdwam (am : AssocMem SegNo Sdw) : (s.setSdwam am).sdwam = am := (rfl)
@[simp] theorem setSdwam_ptwam (am : AssocMem SegNo Sdw) : (s.setSdwam am).ptwam = s.ptwam := (rfl)
@[simp] theorem setSdwam_lastCycle (am : AssocMem SegNo Sdw) :
    (s.setSdwam am).lastCycle = s.lastCycle := (rfl)
@[simp] theorem setSdwam_diag (am : AssocMem SegNo Sdw) : (s.setSdwam am).diag = s.diag := (rfl)
@[simp] theorem setSdwam_mem (am : AssocMem SegNo Sdw) : (s.setSdwam am).mem = s.mem := (rfl)
@[simp] theorem setSdwam_config (am : AssocMem SegNo Sdw) :
    (s.setSdwam am).config = s.config := (rfl)
@[simp] theorem setSdwam_inputs (am : AssocMem SegNo Sdw) :
    (s.setSdwam am).inputs = s.inputs := (rfl)
@[simp] theorem setSdwam_response (am : AssocMem SegNo Sdw) :
    (s.setSdwam am).response = s.response := (rfl)
@[simp] theorem setSdwam_trace (am : AssocMem SegNo Sdw) : (s.setSdwam am).trace = s.trace := (rfl)
@[simp] theorem setSdwam_path (am : AssocMem SegNo Sdw) : (s.setSdwam am).path = s.path := (rfl)
@[simp] theorem setSdwam_freeCount (am : AssocMem SegNo Sdw) :
    (s.setSdwam am).freeCount = s.freeCount := (rfl)

/-! ## `setPtwam` -/

@[simp] theorem setPtwam_tsr (am : AssocMem PtwKey Ptw) : (s.setPtwam am).tsr = s.tsr := (rfl)
@[simp] theorem setPtwam_ca (am : AssocMem PtwKey Ptw) : (s.setPtwam am).ca = s.ca := (rfl)
@[simp] theorem setPtwam_trr (am : AssocMem PtwKey Ptw) : (s.setPtwam am).trr = s.trr := (rfl)
@[simp] theorem setPtwam_psr (am : AssocMem PtwKey Ptw) : (s.setPtwam am).psr = s.psr := (rfl)
@[simp] theorem setPtwam_prr (am : AssocMem PtwKey Ptw) : (s.setPtwam am).prr = s.prr := (rfl)
@[simp] theorem setPtwam_intent (am : AssocMem PtwKey Ptw) :
    (s.setPtwam am).intent = s.intent := (rfl)
@[simp] theorem setPtwam_opcode (am : AssocMem PtwKey Ptw) :
    (s.setPtwam am).opcode = s.opcode := (rfl)
@[simp] theorem setPtwam_opcodeX (am : AssocMem PtwKey Ptw) :
    (s.setPtwam am).opcodeX = s.opcodeX := (rfl)
@[simp] theorem setPtwam_indirect (am : AssocMem PtwKey Ptw) :
    (s.setPtwam am).indirect = s.indirect := (rfl)
@[simp] theorem setPtwam_bit29 (am : AssocMem PtwKey Ptw) : (s.setPtwam am).bit29 = s.bit29 := (rfl)
@[simp] theorem setPtwam_acvFaults (am : AssocMem PtwKey Ptw) :
    (s.setPtwam am).acvFaults = s.acvFaults := (rfl)
@[simp] theorem setPtwam_noMatch (am : AssocMem PtwKey Ptw) :
    (s.setPtwam am).noMatch = s.noMatch := (rfl)
@[simp] theorem setPtwam_seqStep (am : AssocMem PtwKey Ptw) :
    (s.setPtwam am).seqStep = s.seqStep := (rfl)
@[simp] theorem setPtwam_sdw (am : AssocMem PtwKey Ptw) : (s.setPtwam am).sdw = s.sdw := (rfl)
@[simp] theorem setPtwam_ptw (am : AssocMem PtwKey Ptw) : (s.setPtwam am).ptw = s.ptw := (rfl)
@[simp] theorem setPtwam_finalAddr (am : AssocMem PtwKey Ptw) :
    (s.setPtwam am).finalAddr = s.finalAddr := (rfl)
@[simp] theorem setPtwam_dsbr (am : AssocMem PtwKey Ptw) : (s.setPtwam am).dsbr = s.dsbr := (rfl)
@[simp] theorem setPtwam_amEnable (am : AssocMem PtwKey Ptw) :
    (s.setPtwam am).amEnable = s.amEnable := (rfl)
@[simp] theorem setPtwam_sdwam (am : AssocMem PtwKey Ptw) : (s.setPtwam am).sdwam = s.sdwam := (rfl)
@[simp] theorem setPtwam_ptwam (am : AssocMem PtwKey Ptw) : (s.setPtwam am).ptwam = am := (rfl)
@[simp] theorem setPtwam_lastCycle (am : AssocMem PtwKey Ptw) :
    (s.setPtwam am).lastCycle = s.lastCycle := (rfl)
@[simp] theorem setPtwam_diag (am : AssocMem PtwKey Ptw) : (s.setPtwam am).diag = s.diag := (rfl)
@[simp] theorem setPtwam_mem (am : AssocMem PtwKey Ptw) : (s.setPtwam am).mem = s.mem := (rfl)
@[simp] theorem setPtwam_config (am : AssocMem PtwKey Ptw) :
    (s.setPtwam am).config = s.config := (rfl)
@[simp] theorem setPtwam_inputs (am : AssocMem PtwKey Ptw) :
    (s.setPtwam am).inputs = s.inputs := (rfl)
@[simp] theorem setPtwam_response (am : AssocMem PtwKey Ptw) :
    (s.setPtwam am).response = s.response := (rfl)
@[simp] theorem setPtwam_trace (am : AssocMem PtwKey Ptw) : (s.setPtwam am).trace = s.trace := (rfl)
@[simp] theorem setPtwam_path (am : AssocMem PtwKey Ptw) : (s.setPtwam am).path = s.path := (rfl)
@[simp] theorem setPtwam_freeCount (am : AssocMem PtwKey Ptw) :
    (s.setPtwam am).freeCount = s.freeCount := (rfl)

/-! ## `setMem` -/

@[simp] theorem setMem_tsr (m : Memory) : (s.setMem m).tsr = s.tsr := (rfl)
@[simp] theorem setMem_ca (m : Memory) : (s.setMem m).ca = s.ca := (rfl)
@[simp] theorem setMem_trr (m : Memory) : (s.setMem m).trr = s.trr := (rfl)
@[simp] theorem setMem_psr (m : Memory) : (s.setMem m).psr = s.psr := (rfl)
@[simp] theorem setMem_prr (m : Memory) : (s.setMem m).prr = s.prr := (rfl)
@[simp] theorem setMem_intent (m : Memory) : (s.setMem m).intent = s.intent := (rfl)
@[simp] theorem setMem_opcode (m : Memory) : (s.setMem m).opcode = s.opcode := (rfl)
@[simp] theorem setMem_opcodeX (m : Memory) : (s.setMem m).opcodeX = s.opcodeX := (rfl)
@[simp] theorem setMem_indirect (m : Memory) : (s.setMem m).indirect = s.indirect := (rfl)
@[simp] theorem setMem_bit29 (m : Memory) : (s.setMem m).bit29 = s.bit29 := (rfl)
@[simp] theorem setMem_acvFaults (m : Memory) : (s.setMem m).acvFaults = s.acvFaults := (rfl)
@[simp] theorem setMem_noMatch (m : Memory) : (s.setMem m).noMatch = s.noMatch := (rfl)
@[simp] theorem setMem_seqStep (m : Memory) : (s.setMem m).seqStep = s.seqStep := (rfl)
@[simp] theorem setMem_sdw (m : Memory) : (s.setMem m).sdw = s.sdw := (rfl)
@[simp] theorem setMem_ptw (m : Memory) : (s.setMem m).ptw = s.ptw := (rfl)
@[simp] theorem setMem_finalAddr (m : Memory) : (s.setMem m).finalAddr = s.finalAddr := (rfl)
@[simp] theorem setMem_dsbr (m : Memory) : (s.setMem m).dsbr = s.dsbr := (rfl)
@[simp] theorem setMem_amEnable (m : Memory) : (s.setMem m).amEnable = s.amEnable := (rfl)
@[simp] theorem setMem_sdwam (m : Memory) : (s.setMem m).sdwam = s.sdwam := (rfl)
@[simp] theorem setMem_ptwam (m : Memory) : (s.setMem m).ptwam = s.ptwam := (rfl)
@[simp] theorem setMem_lastCycle (m : Memory) : (s.setMem m).lastCycle = s.lastCycle := (rfl)
@[simp] theorem setMem_diag (m : Memory) : (s.setMem m).diag = s.diag := (rfl)
@[simp] theorem setMem_mem (m : Memory) : (s.setMem m).mem = m := (rfl)
@[simp] theorem setMem_config (m : Memory) : (s.setMem m).config = s.config := (rfl)
@[simp] theorem setMem_inputs (m : Memory) : (s.setMem m).inputs = s.inputs := (rfl)
@[simp] theorem setMem_response (m : Memory) : (s.setMem m).response = s.response := (rfl)
@[simp] theorem setMem_trace (m : Memory) : (s.setMem m).trace = s.trace := (rfl)
@[simp] theorem setMem_path (m : Memory) : (s.setMem m).path = s.path := (rfl)
@[simp] theorem setMem_freeCount (m : Memory) : (s.setMem m).freeCount = s.freeCount := (rfl)

/-! ## `recordDiag` -/

@[simp] theorem recordDiag_tsr : (s.recordDiag).tsr = s.tsr := (rfl)
@[simp] theorem recordDiag_ca : (s.recordDiag).ca = s.ca := (rfl)
@[simp] theorem recordDiag_trr : (s.recordDiag).trr = s.trr := (rfl)
@[simp] theorem recordDiag_psr : (s.recordDiag).psr = s.psr := (rfl)
@[simp] theorem recordDiag_prr : (s.recordDiag).prr = s.prr := (rfl)
@[simp] theorem recordDiag_intent : (s.recordDiag).intent = s.intent := (rfl)
@[simp] theorem recordDiag_opcode : (s.recordDiag).opcode = s.opcode := (rfl)
@[simp] theorem recordDiag_opcodeX : (s.recordDiag).opcodeX = s.opcodeX := (rfl)
@[simp] theorem recordDiag_indirect : (s.recordDiag).indirect = s.indirect := (rfl)
@[simp] theorem recordDiag_bit29 : (s.recordDiag).bit29 = s.bit29 := (rfl)
@[simp] theorem recordDiag_acvFaults : (s.recordDiag).acvFaults = s.acvFaults := (rfl)
@[simp] theorem recordDiag_noMatch : (s.recordDiag).noMatch = s.noMatch := (rfl)
@[simp] theorem recordDiag_seqStep : (s.recordDiag).seqStep = s.seqStep := (rfl)
@[simp] theorem recordDiag_sdw : (s.recordDiag).sdw = s.sdw := (rfl)
@[simp] theorem recordDiag_ptw : (s.recordDiag).ptw = s.ptw := (rfl)
@[simp] theorem recordDiag_finalAddr : (s.recordDiag).finalAddr = s.finalAddr := (rfl)
@[simp] theorem recordDiag_dsbr : (s.recordDiag).dsbr = s.dsbr := (rfl)
@[simp] theorem recordDiag_amEnable : (s.recordDiag).amEnable = s.amEnable := (rfl)
@[simp] theorem recordDiag_sdwam : (s.recordDiag).sdwam = s.sdwam := (rfl)
@[simp] theorem recordDiag_ptwam : (s.recordDiag).ptwam = s.ptwam := (rfl)
@[simp] theorem recordDiag_lastCycle : (s.recordDiag).lastCycle = s.lastCycle := (rfl)
@[simp] theorem recordDiag_diag : (s.recordDiag).diag = Config.freeDiag s.freeCount := (rfl)
@[simp] theorem recordDiag_mem : (s.recordDiag).mem = s.mem := (rfl)
@[simp] theorem recordDiag_config : (s.recordDiag).config = s.config := (rfl)
@[simp] theorem recordDiag_inputs : (s.recordDiag).inputs = s.inputs := (rfl)
@[simp] theorem recordDiag_response : (s.recordDiag).response = s.response := (rfl)
@[simp] theorem recordDiag_trace : (s.recordDiag).trace = s.trace := (rfl)
@[simp] theorem recordDiag_path : (s.recordDiag).path = s.path := (rfl)
@[simp] theorem recordDiag_freeCount : (s.recordDiag).freeCount = s.freeCount + 1 := (rfl)

/-! ## `respond` -/

@[simp] theorem respond_tsr (r : Response) : (s.respond r).tsr = s.tsr := (rfl)
@[simp] theorem respond_ca (r : Response) : (s.respond r).ca = s.ca := (rfl)
@[simp] theorem respond_trr (r : Response) : (s.respond r).trr = s.trr := (rfl)
@[simp] theorem respond_psr (r : Response) : (s.respond r).psr = s.psr := (rfl)
@[simp] theorem respond_prr (r : Response) : (s.respond r).prr = s.prr := (rfl)
@[simp] theorem respond_intent (r : Response) : (s.respond r).intent = s.intent := (rfl)
@[simp] theorem respond_opcode (r : Response) : (s.respond r).opcode = s.opcode := (rfl)
@[simp] theorem respond_opcodeX (r : Response) : (s.respond r).opcodeX = s.opcodeX := (rfl)
@[simp] theorem respond_indirect (r : Response) : (s.respond r).indirect = s.indirect := (rfl)
@[simp] theorem respond_bit29 (r : Response) : (s.respond r).bit29 = s.bit29 := (rfl)
@[simp] theorem respond_acvFaults (r : Response) : (s.respond r).acvFaults = s.acvFaults := (rfl)
@[simp] theorem respond_noMatch (r : Response) : (s.respond r).noMatch = s.noMatch := (rfl)
@[simp] theorem respond_seqStep (r : Response) : (s.respond r).seqStep = .idle := (rfl)
@[simp] theorem respond_sdw (r : Response) : (s.respond r).sdw = s.sdw := (rfl)
@[simp] theorem respond_ptw (r : Response) : (s.respond r).ptw = s.ptw := (rfl)
@[simp] theorem respond_finalAddr (r : Response) : (s.respond r).finalAddr = s.finalAddr := (rfl)
@[simp] theorem respond_dsbr (r : Response) : (s.respond r).dsbr = s.dsbr := (rfl)
@[simp] theorem respond_amEnable (r : Response) : (s.respond r).amEnable = s.amEnable := (rfl)
@[simp] theorem respond_sdwam (r : Response) : (s.respond r).sdwam = s.sdwam := (rfl)
@[simp] theorem respond_ptwam (r : Response) : (s.respond r).ptwam = s.ptwam := (rfl)
@[simp] theorem respond_lastCycle (r : Response) : (s.respond r).lastCycle = s.lastCycle := (rfl)
@[simp] theorem respond_diag (r : Response) : (s.respond r).diag = s.diag := (rfl)
@[simp] theorem respond_mem (r : Response) : (s.respond r).mem = s.mem := (rfl)
@[simp] theorem respond_config (r : Response) : (s.respond r).config = s.config := (rfl)
@[simp] theorem respond_inputs (r : Response) : (s.respond r).inputs = s.inputs := (rfl)
@[simp] theorem respond_response (r : Response) : (s.respond r).response = some r := (rfl)
@[simp] theorem respond_trace (r : Response) : (s.respond r).trace = s.trace := (rfl)
@[simp] theorem respond_path (r : Response) : (s.respond r).path = s.path ++ [.idle] := (rfl)
@[simp] theorem respond_freeCount (r : Response) : (s.respond r).freeCount = s.freeCount := (rfl)

end Sys2Proof.Machine.State

namespace Sys2Proof.Machine

variable (s : State)

/-! ## `raiseFault` -/

@[simp] theorem raiseFault_tsr (k : FaultKind) : (raiseFault k s).tsr = s.tsr := (rfl)
@[simp] theorem raiseFault_ca (k : FaultKind) : (raiseFault k s).ca = s.ca := (rfl)
@[simp] theorem raiseFault_trr (k : FaultKind) : (raiseFault k s).trr = s.trr := (rfl)
@[simp] theorem raiseFault_psr (k : FaultKind) : (raiseFault k s).psr = s.psr := (rfl)
@[simp] theorem raiseFault_prr (k : FaultKind) : (raiseFault k s).prr = s.prr := (rfl)
@[simp] theorem raiseFault_intent (k : FaultKind) : (raiseFault k s).intent = s.intent := (rfl)
@[simp] theorem raiseFault_opcode (k : FaultKind) : (raiseFault k s).opcode = s.opcode := (rfl)
@[simp] theorem raiseFault_opcodeX (k : FaultKind) : (raiseFault k s).opcodeX = s.opcodeX := (rfl)
@[simp] theorem raiseFault_indirect (k : FaultKind) :
    (raiseFault k s).indirect = s.indirect := (rfl)
@[simp] theorem raiseFault_bit29 (k : FaultKind) : (raiseFault k s).bit29 = s.bit29 := (rfl)
@[simp] theorem raiseFault_acvFaults (k : FaultKind) :
    (raiseFault k s).acvFaults = s.acvFaults := (rfl)
@[simp] theorem raiseFault_noMatch (k : FaultKind) : (raiseFault k s).noMatch = s.noMatch := (rfl)
@[simp] theorem raiseFault_seqStep (k : FaultKind) : (raiseFault k s).seqStep = .idle := (rfl)
@[simp] theorem raiseFault_sdw (k : FaultKind) : (raiseFault k s).sdw = s.sdw := (rfl)
@[simp] theorem raiseFault_ptw (k : FaultKind) : (raiseFault k s).ptw = s.ptw := (rfl)
@[simp] theorem raiseFault_finalAddr (k : FaultKind) :
    (raiseFault k s).finalAddr = s.finalAddr := (rfl)
@[simp] theorem raiseFault_dsbr (k : FaultKind) : (raiseFault k s).dsbr = s.dsbr := (rfl)
@[simp] theorem raiseFault_amEnable (k : FaultKind) :
    (raiseFault k s).amEnable = s.amEnable := (rfl)
@[simp] theorem raiseFault_sdwam (k : FaultKind) : (raiseFault k s).sdwam = s.sdwam := (rfl)
@[simp] theorem raiseFault_ptwam (k : FaultKind) : (raiseFault k s).ptwam = s.ptwam := (rfl)
@[simp] theorem raiseFault_lastCycle (k : FaultKind) :
    (raiseFault k s).lastCycle = s.lastCycle := (rfl)
@[simp] theorem raiseFault_diag (k : FaultKind) :
    (raiseFault k s).diag = Config.freeDiag s.freeCount := (rfl)
@[simp] theorem raiseFault_mem (k : FaultKind) : (raiseFault k s).mem = s.mem := (rfl)
@[simp] theorem raiseFault_config (k : FaultKind) : (raiseFault k s).config = s.config := (rfl)
@[simp] theorem raiseFault_inputs (k : FaultKind) : (raiseFault k s).inputs = s.inputs := (rfl)
@[simp] theorem raiseFault_response (k : FaultKind) :
    (raiseFault k s).response = some (k.response s.trr) := (rfl)
@[simp] theorem raiseFault_trace (k : FaultKind) :
    (raiseFault k s).trace = s.trace ++ [.doFault k] := (rfl)
@[simp] theorem raiseFault_path (k : FaultKind) :
    (raiseFault k s).path = s.path ++ [.fault] ++ [.idle] := (rfl)
@[simp] theorem raiseFault_freeCount (k : FaultKind) :
    (raiseFault k s).freeCount = s.freeCount + 1 := (rfl)

/-! ## `cycleStart` -/

@[simp] theorem cycleStart_tsr (i : Intent) (p : Ports) : (cycleStart i p s).tsr = p.segno := (rfl)
@[simp] theorem cycleStart_ca (i : Intent) (p : Ports) : (cycleStart i p s).ca = p.offset := (rfl)
@[simp] theorem cycleStart_trr (i : Intent) (p : Ports) : (cycleStart i p s).trr = p.ring := (rfl)
@[simp] theorem cycleStart_psr (i : Intent) (p : Ports) : (cycleStart i p s).psr = p.psr := (rfl)
@[simp] theorem cycleStart_prr (i : Intent) (p : Ports) : (cycleStart i p s).prr = p.prr := (rfl)
@[simp] theorem cycleStart_intent (i : Intent) (p : Ports) : (cycleStart i p s).intent = i := (rfl)
@[simp] theorem cycleStart_opcode (i : Intent) (p : Ports) :
    (cycleStart i p s).opcode = p.opcode := (rfl)
@[simp] theorem cycleStart_opcodeX (i : Intent) (p : Ports) :
    (cycleStart i p s).opcodeX = p.opcodeX := (rfl)
@[simp] theorem cycleStart_indirect (i : Intent) (p : Ports) :
    (cycleStart i p s).indirect = p.indirect := (rfl)
@[simp] theorem cycleStart_bit29 (i : Intent) (p : Ports) :
    (cycleStart i p s).bit29 = p.bit29 := (rfl)
@[simp] theorem cycleStart_acvFaults (i : Intent) (p : Ports) :
    (cycleStart i p s).acvFaults = 0 := (rfl)
@[simp] theorem cycleStart_noMatch (i : Intent) (p : Ports) :
    (cycleStart i p s).noMatch = computeNomatch s.amEnable s.config p.opcode p.opcodeX := (rfl)
@[simp] theorem cycleStart_seqStep (i : Intent) (p : Ports) :
    (cycleStart i p s).seqStep = .a := (rfl)
@[simp] theorem cycleStart_sdw (i : Intent) (p : Ports) : (cycleStart i p s).sdw = s.sdw := (rfl)
@[simp] theorem cycleStart_ptw (i : Intent) (p : Ports) : (cycleStart i p s).ptw = s.ptw := (rfl)
@[simp] theorem cycleStart_finalAddr (i : Intent) (p : Ports) :
    (cycleStart i p s).finalAddr = s.finalAddr := (rfl)
@[simp] theorem cycleStart_dsbr (i : Intent) (p : Ports) : (cycleStart i p s).dsbr = s.dsbr := (rfl)
@[simp] theorem cycleStart_amEnable (i : Intent) (p : Ports) :
    (cycleStart i p s).amEnable = s.amEnable := (rfl)
@[simp] theorem cycleStart_sdwam (i : Intent) (p : Ports) :
    (cycleStart i p s).sdwam = s.sdwam := (rfl)
@[simp] theorem cycleStart_ptwam (i : Intent) (p : Ports) :
    (cycleStart i p s).ptwam = s.ptwam := (rfl)
@[simp] theorem cycleStart_lastCycle (i : Intent) (p : Ports) :
    (cycleStart i p s).lastCycle = some i := (rfl)
@[simp] theorem cycleStart_diag (i : Intent) (p : Ports) : (cycleStart i p s).diag = s.diag := (rfl)
@[simp] theorem cycleStart_mem (i : Intent) (p : Ports) : (cycleStart i p s).mem = s.mem := (rfl)
@[simp] theorem cycleStart_config (i : Intent) (p : Ports) :
    (cycleStart i p s).config = s.config := (rfl)
@[simp] theorem cycleStart_inputs (i : Intent) (p : Ports) :
    (cycleStart i p s).inputs = s.inputs := (rfl)
@[simp] theorem cycleStart_response (i : Intent) (p : Ports) :
    (cycleStart i p s).response = s.response := (rfl)
@[simp] theorem cycleStart_trace (i : Intent) (p : Ports) : (cycleStart i p s).trace = [] := (rfl)
@[simp] theorem cycleStart_path (i : Intent) (p : Ports) : (cycleStart i p s).path = [.a] := (rfl)
@[simp] theorem cycleStart_freeCount (i : Intent) (p : Ports) :
    (cycleStart i p s).freeCount = s.freeCount := (rfl)

end Sys2Proof.Machine
end

