-- ==== Sys2Proof/Laws/Ops.lean ====
section
/-! SUPPORT. How the parts of a cycle compose, and for each shared operation one lemma that says all it
can do. -/

namespace Sys2Proof.Machine

/-! ## Composition -/

namespace Flow

@[simp] theorem go_andThen (s : State) (k : State → Flow) : (go s).andThen k = k s := rfl

@[simp] theorem ended_andThen (s : State) (k : State → Flow) : (ended s).andThen k = ended s := rfl

@[simp] theorem refuse_andThen (r : Refusal) (k : State → Flow) : (refuse r).andThen k = refuse r := rfl

@[simp] theorem ite_andThen (c : Prop) [Decidable c] (f g : Flow) (k : State → Flow) :
    (if c then f else g).andThen k = if c then f.andThen k else g.andThen k := by
  split <;> rfl

theorem andThen_assoc (f : Flow) (g k : State → Flow) :
    (f.andThen g).andThen k = f.andThen fun s => (g s).andThen k := by
  cases f <;> rfl

/-- What holds of the state where a part of a cycle goes on (`G`) and where it has ended (`E`). -/
def Ends (f : Flow) (G E : State → Prop) : Prop :=
  match f with
  | go s => G s
  | ended s => E s
  | refuse _ => True

@[simp] theorem ends_go (s : State) (G E : State → Prop) : (go s).Ends G E ↔ G s := Iff.rfl

@[simp] theorem ends_ended (s : State) (G E : State → Prop) : (ended s).Ends G E ↔ E s := Iff.rfl

@[simp] theorem ends_refuse (r : Refusal) (G E : State → Prop) : (refuse r).Ends G E := trivial

theorem ends_ite (c : Prop) [Decidable c] (f g : Flow) (G E : State → Prop)
    (hf : c → f.Ends G E) (hg : ¬c → g.Ends G E) : (if c then f else g).Ends G E := by
  split
  · exact hf ‹_›
  · exact hg ‹_›

/-- The rule of composition: what the first part leaves is what the second part starts from. -/
theorem Ends.andThen {f : Flow} {k : State → Flow} {F G E : State → Prop} (hf : f.Ends F E)
    (hk : ∀ s, F s → (k s).Ends G E) : (f.andThen k).Ends G E := by
  cases f with
  | go s => exact hk s hf
  | ended s => exact hf
  | refuse r => trivial

theorem Ends.mono {f : Flow} {G G' E E' : State → Prop} (h : f.Ends G E) (hG : ∀ s, G s → G' s)
    (hE : ∀ s, E s → E' s) : f.Ends G' E' := by
  cases f with
  | go s => exact hG s h
  | ended s => exact hE s h
  | refuse r => trivial

theorem Ends.and {f : Flow} {G G' E E' : State → Prop} (h : f.Ends G E) (h' : f.Ends G' E') :
    f.Ends (fun s => G s ∧ G' s) (fun s => E s ∧ E' s) := by
  cases f with
  | go s => exact ⟨h, h'⟩
  | ended s => exact ⟨h, h'⟩
  | refuse r => trivial

/-- A next state of a cycle is where it ended, or where it went on. -/
theorem outcome_eq_next (f : Flow) (t : State) :
    f.outcome = .next t ↔ f = .go t ∨ f = .ended t := by
  cases f <;> simp [outcome]

@[simp] theorem outcome_ended (t : State) : (ended t).outcome = .next t := rfl

@[simp] theorem outcome_go (t : State) : (go t).outcome = .next t := rfl

@[simp] theorem outcome_refuse (r : Refusal) : (refuse r).outcome = .refused r := rfl

theorem outcome_ne_fault (f : Flow) (r : Fault) : f.outcome ≠ .fault r := by
  cases f <;> simp [outcome]

theorem Ends.of_outcome {f : Flow} {P : State → Prop} {t : State} (h : f.Ends P P)
    (ht : f.outcome = .next t) : P t := by
  rcases (outcome_eq_next f t).1 ht with rfl | rfl <;> exact h

end Flow

/-! ## The checked memory accesses in a flow -/

theorem ofAccess_memRead (s : State) (a : Nat) (k : Word → Flow) :
    Flow.ofAccess (s.memRead a) k =
      if s.populated a = true then k (Memory.read s.mem a) else .refuse .unpopulatedMemory := by
  unfold State.memRead
  split <;> rfl

theorem ofAccess_memWrite (s : State) (a : Nat) (v : Word) (k : State → Flow) :
    Flow.ofAccess (s.memWrite a v) k =
      if s.populated a = true then k (s.setMem (Memory.write s.mem a v))
      else .refuse .unpopulatedMemory := by
  unfold State.memWrite
  split <;> rfl

/-! ## What depends on the configuration alone -/

section
variable (s : State)
@[simp] theorem populated_setStep (x : SeqStep) (a : Nat) : (s.setStep x).populated a = s.populated a := (rfl)
@[simp] theorem populated_record (c : Call) (a : Nat) : (s.record c).populated a = s.populated a := (rfl)
@[simp] theorem populated_setSdw (d : Sdw) (a : Nat) : (s.setSdw d).populated a = s.populated a := (rfl)
@[simp] theorem populated_setPtw (p : Ptw) (a : Nat) : (s.setPtw p).populated a = s.populated a := (rfl)
@[simp] theorem populated_setTrr (r : Ring) (a : Nat) : (s.setTrr r).populated a = s.populated a := (rfl)
@[simp] theorem populated_orAcv (b : AcvMask) (a : Nat) : (s.orAcv b).populated a = s.populated a := (rfl)
@[simp] theorem populated_setFinal (f : PhysAddr) (a : Nat) :
    (s.setFinal f).populated a = s.populated a := (rfl)
@[simp] theorem populated_setSdwam (am : AssocMem SegNo Sdw) (a : Nat) :
    (s.setSdwam am).populated a = s.populated a := (rfl)
@[simp] theorem populated_setPtwam (am : AssocMem PtwKey Ptw) (a : Nat) :
    (s.setPtwam am).populated a = s.populated a := (rfl)
@[simp] theorem populated_setMem (m : Memory) (a : Nat) : (s.setMem m).populated a = s.populated a := (rfl)
@[simp] theorem populated_recordDiag (a : Nat) : s.recordDiag.populated a = s.populated a := (rfl)
@[simp] theorem populated_cycleStart (i : Intent) (p : Ports) (a : Nat) :
    (cycleStart i p s).populated a = s.populated a := (rfl)
end

/-! ## Associative-memory accessors -/

/-- A hit (rules R80, R83). -/
theorem fetchSdwFromSdwam_hit (s : State) (d : Sdw) (h : s.cachedSdw = some d) :
    fetchSdwFromSdwam s =
      (.hit, ((s.record (.fetchSdwFromSdwam s.tsr .hit)).setSdw d).setSdwam
        (amTouch s.sdwam s.tsr)) := by
  simp [fetchSdwFromSdwam, h]

/-- A miss, forced or not (rule R80). -/
theorem fetchSdwFromSdwam_miss (s : State) (h : s.cachedSdw = none) :
    fetchSdwFromSdwam s = (.miss, s.record (.fetchSdwFromSdwam s.tsr .miss)) := by
  simp [fetchSdwFromSdwam, h]

/-- A hit (rules R84, R87). -/
theorem fetchPtwFromPtwam_hit (s : State) (p : Ptw) (h : s.cachedPtw = some p) :
    fetchPtwFromPtwam s =
      (.hit, ((s.record (.fetchPtwFromPtwam s.sdw.pointer s.ca .hit)).setPtw p).setPtwam
        (amTouch s.ptwam (ptwKey s.sdw s.ca))) := by
  simp [fetchPtwFromPtwam, h]

/-- A miss, forced or not (rule R84). -/
theorem fetchPtwFromPtwam_miss (s : State) (h : s.cachedPtw = none) :
    fetchPtwFromPtwam s = (.miss, s.record (.fetchPtwFromPtwam s.sdw.pointer s.ca .miss)) := by
  simp [fetchPtwFromPtwam, h]

/-- Everything `load_sdwam` does (rule R82). -/
theorem loadSdwam_eq (s : State) :
    loadSdwam s = (s.record (.loadSdwam s.tsr s.noMatch)).setSdwam
      (if s.noMatch then s.sdwam else amInstall s.config.amSizeSdw s.sdwam s.tsr s.sdw) := by
  unfold loadSdwam
  by_cases h : s.noMatch = true <;> simp [h]
  rfl

/-- Everything `loadPTWAM` does (rule R86). -/
theorem loadPtwam_eq (s : State) :
    loadPtwam s = (s.record (.loadPtwam s.sdw.pointer s.ca s.noMatch)).setPtwam
      (if s.noMatch then s.ptwam
        else amInstall s.config.amSizePtw s.ptwam (ptwKey s.sdw s.ca) s.ptw) := by
  unfold loadPtwam
  by_cases h : s.noMatch = true <;> simp [h]
  rfl

/-! ## Fetchers and modifiers -/

/-- Everything `fetch_nsdw` can do (rules R89, R90). -/
theorem fetchNsdw_eq (s : State) :
    fetchNsdw s =
      let t := s.record (.fetchNsdw s.tsr)
      let a := nsdwAddr s.dsbr s.tsr
      if (s.config.dsbrBndCheck && beyondDsBound s.dsbr s.tsr) = true then
        .ended (raiseFault (.acv (acvBit 15)) t)
      else if s.populated a.toNat = true then
        if s.populated (a + 1).toNat = true then
          .go (t.setSdw (decodeSdw (Memory.read s.mem a.toNat) (Memory.read s.mem (a + 1).toNat)))
        else .refuse .unpopulatedMemory
      else .refuse .unpopulatedMemory := by
  simp only [fetchNsdw, checkDsBound, readSdwPair, ofAccess_memRead, Flow.ite_andThen,
    Flow.go_andThen, Flow.ended_andThen, populated_record, State.record_config, State.record_dsbr,
    State.record_tsr, State.record_mem]

/-- Everything `fetch_dsptw` can do (rules R89, R91). -/
theorem fetchDsptw_eq (s : State) :
    fetchDsptw s =
      let t := s.record (.fetchDsptw s.tsr)
      let a := (dsptwAddr s.dsbr s.tsr).toNat
      if (s.config.dsbrBndCheck && beyondDsBound s.dsbr s.tsr) = true then
        .ended (raiseFault (.acv (acvBit 15)) t)
      else if s.populated a = true then .go (t.setPtw (decodePtw (Memory.read s.mem a)))
      else .refuse .unpopulatedMemory := by
  simp only [fetchDsptw, checkDsBound, ofAccess_memRead, Flow.ite_andThen, Flow.go_andThen,
    Flow.ended_andThen, populated_record, State.record_config, State.record_dsbr, State.record_tsr,
    State.record_mem]

/-- Everything `fetch_psdw` can do (rule R92). -/
theorem fetchPsdw_eq (s : State) :
    fetchPsdw s =
      let a := psdwAddr s.config.frameMask s.ptw s.tsr
      if s.populated a.toNat = true then
        if s.populated (a + 1).toNat = true then
          .go ((s.record (.fetchPsdw s.tsr)).setSdw
            (decodeSdw (Memory.read s.mem a.toNat) (Memory.read s.mem (a + 1).toNat)))
        else .refuse .unpopulatedMemory
      else .refuse .unpopulatedMemory := by
  simp only [fetchPsdw, readSdwPair, ofAccess_memRead, populated_record, State.record_mem]

/-- Everything `fetch_ptw` can do (rule R93). -/
theorem fetchPtw_eq (s : State) :
    fetchPtw s =
      let a := (ptwAddr s.sdw s.ca).toNat
      if s.populated a = true then
        .go ((s.record (.fetchPtw s.sdw s.ca)).setPtw (decodePtw (Memory.read s.mem a)))
      else .refuse .unpopulatedMemory := by
  simp only [fetchPtw, ofAccess_memRead]

/-- Everything `do_ptw2` can do (rule R94). -/
theorem doPtw2_eq (s : State) :
    doPtw2 s =
      let t := s.record (.doPtw2 s.sdw s.ca)
      let next := decodePtw (Memory.read s.mem (nextPtwAddr s.sdw s.ca).toNat)
      if s.populated (nextPtwAddr s.sdw s.ca).toNat = true then
        if next.df = true then .go t else .ended (raiseFault (.df next.fc) t)
      else .refuse .unpopulatedMemory := by
  simp only [doPtw2, ofAccess_memRead]

/-- Everything the setting of one bit can do. -/
theorem setWordBit_eq (a : PhysAddr) (bit : Word) (s : State) :
    setWordBit a bit s =
      if s.populated a.toNat = true then
        .go (s.setMem (Memory.write s.mem a.toNat (Memory.read s.mem a.toNat ||| bit)))
      else .refuse .unpopulatedMemory := by
  simp only [setWordBit, ofAccess_memRead, ofAccess_memWrite]
  split <;> simp_all

/-- Everything `modify_dsptw` can do (rule R96). -/
theorem modifyDsptw_eq (s : State) :
    modifyDsptw s =
      let a := (dsptwAddr s.dsbr s.tsr).toNat
      if s.populated a = true then
        .go (((s.record (.modifyDsptw s.tsr)).setMem
          (Memory.write s.mem a (Memory.read s.mem a ||| ptwUsedBit))).setPtw { s.ptw with u := true })
      else .refuse .unpopulatedMemory := by
  simp only [modifyDsptw, setWordBit_eq, populated_record, Flow.ite_andThen, Flow.go_andThen,
    Flow.refuse_andThen, State.record_mem, State.setMem_ptw, State.record_ptw]

/-- Everything `modify_ptw` can do (rule R97). -/
theorem modifyPtw_eq (s : State) :
    modifyPtw s =
      let a := (ptwAddr s.sdw s.ca).toNat
      if s.populated a = true then
        .go ((((s.record (.modifyPtw s.sdw s.ca)).setMem
          (Memory.write s.mem a (Memory.read s.mem a ||| ptwModifiedBit))).setPtw
            { s.ptw with m := true }).setPtwam
              (amUpdate s.ptwam (ptwKey s.sdw s.ca) (fun p => { p with m := true })))
      else .refuse .unpopulatedMemory := by
  simp only [modifyPtw, setWordBit_eq, populated_record, Flow.ite_andThen, Flow.go_andThen,
    Flow.refuse_andThen, State.record_mem, State.setMem_ptw, State.record_ptw, State.setMem_ptwam,
    State.record_ptwam, State.setMem_sdw, State.record_sdw, State.setMem_ca, State.record_ca]

/-! ## Physical access layer -/

/-- Everything `core_readN` can do (rule R100), with what follows it. -/
theorem coreReadN_ok (s : State) (n : Nat) (k : State → List Word → Flow)
    (hw : s.finalAddr.toNat + n - 1 < memSpace)
    (hp : ∀ i < n, s.populated (s.finalAddr.toNat + i) = true) :
    coreReadN s n k =
      k (s.record (.coreReadN s.finalAddr n)) (Memory.readRun s.mem s.finalAddr.toNat n) := by
  have := (State.memReadRun_eq_some s n s.finalAddr.toNat _).2 ⟨hp, rfl⟩
  rw [coreReadN, if_neg (by omega), this]
  rfl

/-- `core_readN` refuses, or it reads the run (rule R100). -/
theorem coreReadN_cases (s : State) (n : Nat) (k : State → List Word → Flow) :
    (∃ r, coreReadN s n k = .refuse r) ∨
      (s.finalAddr.toNat + n - 1 < memSpace ∧
        (∀ i < n, s.populated (s.finalAddr.toNat + i) = true) ∧
        coreReadN s n k =
          k (s.record (.coreReadN s.finalAddr n)) (Memory.readRun s.mem s.finalAddr.toNat n)) := by
  by_cases hw : memSpace ≤ s.finalAddr.toNat + n - 1
  · exact .inl ⟨.transferWraps, by rw [coreReadN, if_pos hw]⟩
  · cases hr : s.memReadRun s.finalAddr.toNat n with
    | none => exact .inl ⟨.unpopulatedMemory, by rw [coreReadN, if_neg hw, hr]; rfl⟩
    | some ws =>
      obtain ⟨hp, rfl⟩ := (State.memReadRun_eq_some _ _ _ _).1 hr
      exact .inr ⟨by omega, hp, coreReadN_ok s n k (by omega) hp⟩

/-- A read run past the address space (rule R100). -/
theorem coreReadN_wraps (s : State) (n : Nat) (k : State → List Word → Flow)
    (h : memSpace ≤ s.finalAddr.toNat + n - 1) : coreReadN s n k = .refuse .transferWraps := by
  rw [coreReadN, if_pos h]

/-- A read run with a word that is not there (rule R42). -/
theorem coreReadN_unpopulated (s : State) (n j : Nat) (k : State → List Word → Flow)
    (hw : s.finalAddr.toNat + n - 1 < memSpace) (hj : j < n)
    (hp : s.populated (s.finalAddr.toNat + j) = false) :
    coreReadN s n k = .refuse .unpopulatedMemory := by
  rw [coreReadN, if_neg (by omega)]
  cases hr : s.memReadRun s.finalAddr.toNat n with
  | none => rfl
  | some ws => simp [((State.memReadRun_eq_some _ _ _ _).1 hr).1 j hj] at hp

/-- A write run past the address space (rule R101). -/
theorem coreWriteN_wraps (s : State) (data : List Word)
    (h : memSpace ≤ s.finalAddr.toNat + data.length - 1) :
    coreWriteN s data = .refuse .transferWraps := by
  rw [coreWriteN, if_pos h]

/-- Everything `core_writeN` does when it does not refuse (rule R101). -/
theorem coreWriteN_ok (s : State) (data : List Word)
    (hw : s.finalAddr.toNat + data.length - 1 < memSpace)
    (hp : ∀ i < data.length, s.populated (s.finalAddr.toNat + i) = true) :
    coreWriteN s data =
      .go ((s.setMem (Memory.writeRun s.mem s.finalAddr.toNat data)).record
        (.coreWriteN s.finalAddr data.length)) := by
  have := (State.memWriteRun_eq_some data s _ s.finalAddr.toNat).2 ⟨hp, rfl⟩
  rw [coreWriteN, if_neg (by omega), this]
  rfl

/-- A write run with a word that is not there (rule R42). -/
theorem coreWriteN_unpopulated (s : State) (data : List Word) (j : Nat)
    (hw : s.finalAddr.toNat + data.length - 1 < memSpace) (hj : j < data.length)
    (hp : s.populated (s.finalAddr.toNat + j) = false) :
    coreWriteN s data = .refuse .unpopulatedMemory := by
  rw [coreWriteN, if_neg (by omega)]
  cases hr : s.memWriteRun s.finalAddr.toNat data with
  | none => rfl
  | some t => simp [((State.memWriteRun_eq_some _ _ _ _).1 hr).1 j hj] at hp

/-- `core_writeN` refuses, or it writes the run (rule R101). -/
theorem coreWriteN_cases (s : State) (data : List Word) :
    (∃ r, coreWriteN s data = .refuse r) ∨
      (s.finalAddr.toNat + data.length - 1 < memSpace ∧
        (∀ i < data.length, s.populated (s.finalAddr.toNat + i) = true) ∧
        coreWriteN s data =
          .go ((s.setMem (Memory.writeRun s.mem s.finalAddr.toNat data)).record
            (.coreWriteN s.finalAddr data.length))) := by
  by_cases hw : memSpace ≤ s.finalAddr.toNat + data.length - 1
  · exact .inl ⟨.transferWraps, by rw [coreWriteN, if_pos hw]⟩
  · cases hr : s.memWriteRun s.finalAddr.toNat data with
    | none => exact .inl ⟨.unpopulatedMemory, by rw [coreWriteN, if_neg hw, hr]; rfl⟩
    | some t =>
      obtain ⟨hp, rfl⟩ := (State.memWriteRun_eq_some _ _ _ _).1 hr
      exact .inr ⟨by omega, hp, coreWriteN_ok s data (by omega) hp⟩

/-- Everything `core_write_zone` can do (rule R102). -/
theorem coreWriteZone_eq (s : State) (datum zone : Word) :
    coreWriteZone s datum zone =
      let a := s.finalAddr.toNat
      if s.populated a = true then
        .go ((s.setMem (Memory.write s.mem a (zoneMerge (Memory.read s.mem a) datum zone))).record
          (.coreWriteZone s.finalAddr zone))
      else .refuse .unpopulatedMemory := by
  simp only [coreWriteZone, ofAccess_memRead, ofAccess_memWrite]
  split <;> simp_all

end Sys2Proof.Machine
end

