-- ==== Sys2Proof/Laws/Cycle.lean ====
section
/-! SUPPORT. What each step of a cycle does, once: the state a step leaves, as one record, under the
conditions of Sys2Proof/Safety.lean, and the ways a step can end otherwise. -/

namespace Sys2Proof.Machine

/-! ## The states between the steps -/

/-- The state at the end of step A: the descriptor `d`, memory `m`, the `PTW` register `q`, the SDWAM `am`
and the calls made. -/
def atB (i : Intent) (p : Ports) (s : State) (d : Sdw) (m : Memory) (q : Ptw)
    (am : AssocMem SegNo Sdw) (calls : List Call) : State :=
  { cycleStart i p s with
    sdw := d, ptw := q, mem := m, sdwam := am, trace := calls, seqStep := .b, path := [.a, .b] }

/-- The step that follows step G (rule R144). -/
def stepAfterG (d : Sdw) : SeqStep := if d.u then .h else .i

/-- The state at the end of step G: as after step A, with `TRR` as step B leaves it. -/
def atHI (i : Intent) (p : Ports) (s : State) (d : Sdw) (m : Memory) (q : Ptw)
    (am : AssocMem SegNo Sdw) (calls : List Call) : State :=
  { atB i p s d m q am calls with
    trr := ringAfterChecks i p d, seqStep := stepAfterG d, path := [.a, .b, .g, stepAfterG d] }

/-- The state at the end of step H or I: the address `f`, and the PTWAM `pm`. -/
def atExit (i : Intent) (p : Ports) (s : State) (d : Sdw) (m : Memory) (q : Ptw)
    (am : AssocMem SegNo Sdw) (pm : AssocMem PtwKey Ptw) (f : PhysAddr) (calls : List Call) : State :=
  { atHI i p s d m q am calls with
    ptwam := pm, finalAddr := f, seqStep := .exit, path := [.a, .b, .g, stepAfterG d, .exit] }

/-! ## The lookups -/

theorem computeNomatch_iff (i : Intent) (p : Ports) (s : State) :
    (cycleStart i p s).noMatch = true ↔ Bypassed s p := by
  simp [computeNomatch, Bypassed]

theorem noMatch_of_not_bypassed (i : Intent) (p : Ports) (s : State) (h : ¬Bypassed s p) :
    (cycleStart i p s).noMatch = false := by
  rw [← computeNomatch_iff i p s] at h
  simpa using h

theorem cachedSdw_hit (i : Intent) (p : Ports) (s : State) (d : Sdw) (h : SdwHit s p d) :
    (cycleStart i p s).cachedSdw = some d := by
  rw [State.cachedSdw, noMatch_of_not_bypassed i p s h.1]
  simpa using h.2

theorem cachedSdw_miss (i : Intent) (p : Ports) (s : State) (h : SdwMiss s p) :
    (cycleStart i p s).cachedSdw = none := by
  rw [State.cachedSdw]
  split
  · rfl
  · rename_i hn
    rcases h with h | h
    · exact absurd ((computeNomatch_iff i p s).2 h) hn
    · simpa using h

/-- Every lookup in the SDWAM hits or misses. -/
theorem sdwHit_or_miss (s : State) (p : Ports) : (∃ d, SdwHit s p d) ∨ SdwMiss s p := by
  by_cases hb : Bypassed s p
  · exact .inr (.inl hb)
  · cases h : amLookup s.sdwam p.segno with
    | none => exact .inr (.inr h)
    | some d => exact .inl ⟨d, hb, h⟩

/-- Every lookup in the PTWAM hits or misses. -/
theorem ptwHit_or_miss (s : State) (p : Ports) (d : Sdw) : (∃ q, PtwHit s p d q) ∨ PtwMiss s p d := by
  by_cases hb : Bypassed s p
  · exact .inr (.inl hb)
  · cases h : amLookup s.ptwam (d.pointer, pageOf p.offset) with
    | none => exact .inr (.inr h)
    | some q => exact .inl ⟨q, hb, h⟩

theorem not_miss_of_hit {s : State} {p : Ports} {d : Sdw} (h : SdwHit s p d) : ¬SdwMiss s p := by
  rintro (hb | hn)
  · exact h.1 hb
  · rw [h.2] at hn; cases hn

theorem not_ptwMiss_of_hit {s : State} {p : Ports} {d : Sdw} {q : Ptw} (h : PtwHit s p d q) :
    ¬PtwMiss s p d := by
  rintro (hb | hn)
  · exact h.1 hb
  · rw [h.2] at hn; cases hn

/-! ## Step A -/

/-- The calls of the installation (rules R82, R125). -/
def loadCalls (s : State) (p : Ports) (d : Sdw) : List Call :=
  if d.df then [.loadSdwam p.segno (decide (Bypassed s p))] else []

/-- The calls of the walk, up to the read of the SDW (rules R122, R123). -/
def walkCalls (s : State) (p : Ports) : List Call :=
  if s.dsbr.u then [.fetchNsdw p.segno]
  else .fetchDsptw p.segno ::
    ((if (dsptwOf s p).u then [] else [.modifyDsptw p.segno]) ++ [.fetchPsdw p.segno])

/-- The `PTW` register after the walk. -/
def ptwAfterWalk (s : State) (p : Ports) : Ptw :=
  if s.dsbr.u then s.ptw else { dsptwOf s p with u := true }

/-- The SDWAM after the walk (rule R125). -/
def sdwamAfterWalk (s : State) (p : Ports) (d : Sdw) : AssocMem SegNo Sdw :=
  if d.df = true ∧ ¬Bypassed s p then amInstall s.config.amSizeSdw s.sdwam p.segno d else s.sdwam

theorem noMatch_eq_decide (i : Intent) (p : Ports) (s : State) :
    (cycleStart i p s).noMatch = decide (Bypassed s p) := by
  rw [Bool.eq_iff_iff, computeNomatch_iff, decide_eq_true_iff]

/-- The state in which a walk of step A ends: the fields it has written so far. -/
def walked (i : Intent) (p : Ports) (s : State) (d : Sdw) (m : Memory) (q : Ptw) (calls : List Call) :
    State :=
  { cycleStart i p s with sdw := d, ptw := q, mem := m, trace := calls }

/-- The descriptor segment's bound is exceeded, where it is checked (rule R89). -/
theorem dsBound_false (s : State) (p : Ports) (h : WithinDsBound s p) :
    (s.config.dsbrBndCheck && beyondDsBound s.dsbr p.segno) = false := by
  by_cases hc : s.config.dsbrBndCheck = true
  · have := h hc
    simp [hc, beyondDsBound, this]
  · simp [hc]

theorem dsBound_true (s : State) (p : Ports) (h : ¬WithinDsBound s p) :
    (s.config.dsbrBndCheck && beyondDsBound s.dsbr p.segno) = true := by
  rw [Classical.not_imp] at h
  simp [h.1, beyondDsBound]
  omega

/-- The unpaged walk reads the descriptor. -/
theorem fetchNsdw_walked (i : Intent) (p : Ports) (s : State) (hb : WithinDsBound s p)
    (hp : PairPopulated s (nsdwAddr s.dsbr p.segno)) (calls : List Call) :
    fetchNsdw (walked i p s s.sdw s.mem s.ptw calls) =
      .go (walked i p s (sdwIn s.mem (nsdwAddr s.dsbr p.segno)) s.mem s.ptw
        (calls ++ [.fetchNsdw p.segno])) := by
  rw [fetchNsdw_eq]
  have h1 : ((walked i p s s.sdw s.mem s.ptw calls).config.dsbrBndCheck &&
      beyondDsBound (walked i p s s.sdw s.mem s.ptw calls).dsbr
        (walked i p s s.sdw s.mem s.ptw calls).tsr) = false := dsBound_false s p hb
  have h2 : (walked i p s s.sdw s.mem s.ptw calls).populated
      (nsdwAddr (walked i p s s.sdw s.mem s.ptw calls).dsbr
        (walked i p s s.sdw s.mem s.ptw calls).tsr).toNat = true := hp.1
  have h3 : (walked i p s s.sdw s.mem s.ptw calls).populated
      (nsdwAddr (walked i p s s.sdw s.mem s.ptw calls).dsbr
        (walked i p s s.sdw s.mem s.ptw calls).tsr + 1).toNat = true := hp.2
  simp only [h1, h2, h3, Bool.false_eq_true, if_false, if_true]
  rfl

/-- The paged walk up to the DSPTW in use. -/
theorem useDsptw_walked (i : Intent) (p : Ports) (s : State) (hb : WithinDsBound s p)
    (hp : s.populated (dsptwAt s p) = true) (hd : (dsptwOf s p).df = true) (calls : List Call) :
    (fetchDsptw (walked i p s s.sdw s.mem s.ptw calls)).andThen useDsptw =
      .go (walked i p s s.sdw (memAfterUse s p) { dsptwOf s p with u := true }
        (calls ++ .fetchDsptw p.segno ::
          if (dsptwOf s p).u then [] else [.modifyDsptw p.segno])) := by
  have h1 : ((walked i p s s.sdw s.mem s.ptw calls).config.dsbrBndCheck &&
      beyondDsBound (walked i p s s.sdw s.mem s.ptw calls).dsbr
        (walked i p s s.sdw s.mem s.ptw calls).tsr) = false := dsBound_false s p hb
  have h2 : (walked i p s s.sdw s.mem s.ptw calls).populated
      (dsptwAddr (walked i p s s.sdw s.mem s.ptw calls).dsbr
        (walked i p s s.sdw s.mem s.ptw calls).tsr).toNat = true := hp
  have h3 : fetchDsptw (walked i p s s.sdw s.mem s.ptw calls) =
      .go (walked i p s s.sdw s.mem (dsptwOf s p) (calls ++ [.fetchDsptw p.segno])) := by
    rw [fetchDsptw_eq]
    simp only [h1, h2, Bool.false_eq_true, if_false, if_true]
    rfl
  rw [h3, Flow.go_andThen, useDsptw]
  have h4 : (walked i p s s.sdw s.mem (dsptwOf s p) (calls ++ [.fetchDsptw p.segno])).ptw.df = true :=
    hd
  rw [if_pos h4]
  by_cases hu : (dsptwOf s p).u = true
  · have h5 : (walked i p s s.sdw s.mem (dsptwOf s p) (calls ++ [.fetchDsptw p.segno])).ptw.u = true :=
      hu
    rw [if_pos h5]
    have h6 : { dsptwOf s p with u := true } = dsptwOf s p := by
      rw [← hu]
    simp only [memAfterUse, if_pos hu, h6]
  · have h5 : ¬(walked i p s s.sdw s.mem (dsptwOf s p) (calls ++ [.fetchDsptw p.segno])).ptw.u = true :=
      hu
    rw [if_neg h5, modifyDsptw_eq]
    have h7 : (walked i p s s.sdw s.mem (dsptwOf s p) (calls ++ [.fetchDsptw p.segno])).populated
        (dsptwAddr (walked i p s s.sdw s.mem (dsptwOf s p) (calls ++ [.fetchDsptw p.segno])).dsbr
          (walked i p s s.sdw s.mem (dsptwOf s p) (calls ++ [.fetchDsptw p.segno])).tsr).toNat = true :=
      hp
    simp only [h7, if_true, memAfterUse, if_neg hu]
    have h8 : calls ++ [.fetchDsptw p.segno, .modifyDsptw p.segno] =
        calls ++ [.fetchDsptw p.segno] ++ [.modifyDsptw p.segno] := by simp
    rw [h8]
    rfl

/-- The paged walk reads the descriptor through the DSPTW. -/
theorem fetchPsdw_walked (i : Intent) (p : Ports) (s : State) (m : Memory) (q : Ptw)
    (hp : PairPopulated s (psdwAddr s.config.frameMask q p.segno)) (calls : List Call) :
    fetchPsdw (walked i p s s.sdw m q calls) =
      .go (walked i p s (sdwIn m (psdwAddr s.config.frameMask q p.segno)) m q
        (calls ++ [.fetchPsdw p.segno])) := by
  rw [fetchPsdw_eq]
  have h2 : (walked i p s s.sdw m q calls).populated
      (psdwAddr (walked i p s s.sdw m q calls).config.frameMask
        (walked i p s s.sdw m q calls).ptw (walked i p s s.sdw m q calls).tsr).toNat = true := hp.1
  have h3 : (walked i p s s.sdw m q calls).populated
      (psdwAddr (walked i p s s.sdw m q calls).config.frameMask
        (walked i p s s.sdw m q calls).ptw (walked i p s s.sdw m q calls).tsr + 1).toNat = true := hp.2
  simp only [h2, h3, if_true]
  rfl

/-- The paged walk through a word that is not there (rule R42). -/
theorem fetchPsdw_walked_unpopulated (i : Intent) (p : Ports) (s : State) (m : Memory) (q : Ptw)
    (hp : ¬PairPopulated s (psdwAddr s.config.frameMask q p.segno)) (calls : List Call) :
    fetchPsdw (walked i p s s.sdw m q calls) = .refuse .unpopulatedMemory := by
  rw [fetchPsdw_eq]
  simp only
  split
  · split
    · exact absurd ⟨‹_›, ‹_›⟩ hp
    · rfl
  · rfl

/-- The walk of either kind, up to the valid check. -/
theorem walk_walked (i : Intent) (p : Ports) (s : State) (d : Sdw) (m : Memory) (h : Walks s p d m)
    (calls : List Call) :
    (if (walked i p s s.sdw s.mem s.ptw calls).dsbr.u then
        fetchNsdw (walked i p s s.sdw s.mem s.ptw calls)
      else pagedWalk (walked i p s s.sdw s.mem s.ptw calls)) =
      .go (walked i p s d m (ptwAfterWalk s p) (calls ++ walkCalls s p)) := by
  obtain ⟨-, hb, ⟨hu, rfl, hp, rfl⟩ | ⟨hu, hp, hd, rfl, hq, rfl⟩⟩ := h
  · have h1 : (walked i p s s.sdw s.mem s.ptw calls).dsbr.u = true := hu
    rw [if_pos h1, fetchNsdw_walked i p s hb hp]
    simp only [ptwAfterWalk, walkCalls, if_pos hu]
  · have h1 : ¬(walked i p s s.sdw s.mem s.ptw calls).dsbr.u = true := by
      simp [walked, hu]
    have h2 : ¬s.dsbr.u = true := by simp [hu]
    rw [if_neg h1, pagedWalk, useDsptw_walked i p s hb hp hd, Flow.go_andThen, fetchPsdw_walked]
    · simp only [ptwAfterWalk, walkCalls, if_neg h2]
      congr 2
      simp
    · exact hq

/-- The valid check and the installation. -/
theorem admitSdw_walked (i : Intent) (p : Ports) (s : State) (d : Sdw) (m : Memory) (q : Ptw)
    (calls : List Call) (h : i ≠ .absa → d.df = true) :
    (admitSdw (walked i p s d m q calls)).andThen (fun t => .go (t.setStep .b)) =
      .go (atB i p s d m q (sdwamAfterWalk s p d) (calls ++ loadCalls s p d)) := by
  rw [admitSdw]
  by_cases hd : d.df = true
  · have h1 : (walked i p s d m q calls).sdw.df = true := hd
    rw [if_pos h1, loadSdwam_eq, Flow.go_andThen]
    have h2 : (walked i p s d m q calls).noMatch = decide (Bypassed s p) := noMatch_eq_decide i p s
    rw [h2]
    by_cases hb : Bypassed s p
    · simp only [sdwamAfterWalk, loadCalls, hd, hb, if_true, decide_true, not_true_eq_false, and_false,
        if_false]
      rfl
    · simp only [sdwamAfterWalk, loadCalls, hd, hb, if_true, decide_false, not_false_eq_true, and_self,
        if_false, Bool.false_eq_true]
      rfl
  · have h1 : ¬(walked i p s d m q calls).sdw.df = true := hd
    have hi : i = .absa := by
      cases i with
      | absa => rfl
      | read => exact absurd (h (by simp)) hd
      | store => exact absurd (h (by simp)) hd
    have h3 : (walked i p s d m q calls).intent = .absa := hi
    rw [if_neg h1, if_pos h3, Flow.go_andThen]
    simp only [sdwamAfterWalk, loadCalls, hd, false_and, if_false, Bool.false_eq_true, List.append_nil]
    rfl

/-- Step A on a hit (rule R121). -/
theorem stepA_hit (i : Intent) (p : Ports) (s : State) (d : Sdw) (h : SdwHit s p d) :
    stepA (cycleStart i p s) =
      .go (atB i p s d s.mem s.ptw (amTouch s.sdwam p.segno)
        [.fetchSdwFromSdwam p.segno .hit]) := by
  rw [stepA, fetchSdwFromSdwam_hit _ d (cachedSdw_hit i p s d h)]
  rfl

theorem stepA_miss (i : Intent) (p : Ports) (s : State) (h : SdwMiss s p) :
    stepA (cycleStart i p s) =
      (walkSegment (walked i p s s.sdw s.mem s.ptw [.fetchSdwFromSdwam p.segno .miss])).andThen
        fun t => .go (t.setStep .b) := by
  rw [stepA, fetchSdwFromSdwam_miss _ (cachedSdw_miss i p s h)]
  rfl

/-- Step A on a miss whose walk fetches a descriptor that may be used. -/
theorem stepA_walk (i : Intent) (p : Ports) (s : State) (d : Sdw) (m : Memory) (h : Walks s p d m)
    (hd : i ≠ .absa → d.df = true) :
    stepA (cycleStart i p s) =
      .go (atB i p s d m (ptwAfterWalk s p) (sdwamAfterWalk s p d)
        (.fetchSdwFromSdwam p.segno .miss :: (walkCalls s p ++ loadCalls s p d))) := by
  rw [stepA_miss i p s h.1, walkSegment, walk_walked i p s d m h, Flow.go_andThen,
    admitSdw_walked i p s d m _ _ hd]
  simp

/-- The state in which a fault leaves a cycle that has walked so far. -/
theorem stepA_invalid (i : Intent) (p : Ports) (s : State) (d : Sdw) (m : Memory) (h : Walks s p d m)
    (hi : i ≠ .absa) (hd : d.df = false) :
    stepA (cycleStart i p s) =
      .ended (raiseFault (.df d.fc) (walked i p s d m (ptwAfterWalk s p)
        (.fetchSdwFromSdwam p.segno .miss :: walkCalls s p))) := by
  rw [stepA_miss i p s h.1, walkSegment, walk_walked i p s d m h, Flow.go_andThen, admitSdw]
  have h1 : ¬(walked i p s d m (ptwAfterWalk s p)
      ([.fetchSdwFromSdwam p.segno .miss] ++ walkCalls s p)).sdw.df = true := by simp [walked, hd]
  have h2 : ¬(walked i p s d m (ptwAfterWalk s p)
      ([.fetchSdwFromSdwam p.segno .miss] ++ walkCalls s p)).intent = .absa := hi
  rw [if_neg h1, if_neg h2]
  rfl

/-- Step A beyond the descriptor segment's bound (rule R89). -/
theorem stepA_beyond (i : Intent) (p : Ports) (s : State) (h : SdwMiss s p)
    (hb : ¬WithinDsBound s p) :
    stepA (cycleStart i p s) =
      .ended (raiseFault (.acv (acvBit 15)) (walked i p s s.sdw s.mem s.ptw
        [.fetchSdwFromSdwam p.segno .miss,
          if s.dsbr.u then .fetchNsdw p.segno else .fetchDsptw p.segno])) := by
  rw [stepA_miss i p s h, walkSegment]
  have h1 : ∀ calls, ((walked i p s s.sdw s.mem s.ptw calls).config.dsbrBndCheck &&
      beyondDsBound (walked i p s s.sdw s.mem s.ptw calls).dsbr
        (walked i p s s.sdw s.mem s.ptw calls).tsr) = true := fun _ => dsBound_true s p hb
  by_cases hu : s.dsbr.u = true
  · have h2 : (walked i p s s.sdw s.mem s.ptw [.fetchSdwFromSdwam p.segno .miss]).dsbr.u = true := hu
    rw [if_pos h2, fetchNsdw_eq]
    simp only [h1, if_true, hu]
    rfl
  · have h2 : ¬(walked i p s s.sdw s.mem s.ptw [.fetchSdwFromSdwam p.segno .miss]).dsbr.u = true := hu
    rw [if_neg h2, pagedWalk, fetchDsptw_eq]
    simp only [h1, if_true, hu]
    rfl

/-- Step A through an absent DSPTW (rule R122). -/
theorem stepA_absentDsptw (i : Intent) (p : Ports) (s : State) (h : SdwMiss s p)
    (hb : WithinDsBound s p) (hu : s.dsbr.u = false) (hp : s.populated (dsptwAt s p) = true)
    (hd : (dsptwOf s p).df = false) :
    stepA (cycleStart i p s) =
      .ended (raiseFault (.df (dsptwOf s p).fc) (walked i p s s.sdw s.mem (dsptwOf s p)
        [.fetchSdwFromSdwam p.segno .miss, .fetchDsptw p.segno])) := by
  rw [stepA_miss i p s h, walkSegment]
  have h2 : ¬(walked i p s s.sdw s.mem s.ptw [.fetchSdwFromSdwam p.segno .miss]).dsbr.u = true := by
    simp [walked, hu]
  have h1 : ∀ calls, ((walked i p s s.sdw s.mem s.ptw calls).config.dsbrBndCheck &&
      beyondDsBound (walked i p s s.sdw s.mem s.ptw calls).dsbr
        (walked i p s s.sdw s.mem s.ptw calls).tsr) = false := fun _ => dsBound_false s p hb
  have h3 : ∀ calls, (walked i p s s.sdw s.mem s.ptw calls).populated
      (dsptwAddr (walked i p s s.sdw s.mem s.ptw calls).dsbr
        (walked i p s s.sdw s.mem s.ptw calls).tsr).toNat = true := fun _ => hp
  rw [if_neg h2, pagedWalk, fetchDsptw_eq]
  simp only [h1, h3, Bool.false_eq_true, if_false, if_true, Flow.go_andThen, useDsptw]
  have h4 : ¬(((walked i p s s.sdw s.mem s.ptw [.fetchSdwFromSdwam p.segno .miss]).record
      (.fetchDsptw (walked i p s s.sdw s.mem s.ptw [.fetchSdwFromSdwam p.segno .miss]).tsr)).setPtw
        (decodePtw (Memory.read (walked i p s s.sdw s.mem s.ptw
          [.fetchSdwFromSdwam p.segno .miss]).mem (dsptwAddr (walked i p s s.sdw s.mem s.ptw
            [.fetchSdwFromSdwam p.segno .miss]).dsbr (walked i p s s.sdw s.mem s.ptw
              [.fetchSdwFromSdwam p.segno .miss]).tsr).toNat))).ptw.df = true := by
    intro hc
    have : (dsptwOf s p).df = true := hc
    rw [hd] at this
    cases this
  rw [if_neg h4]
  rfl

/-- Step A through a word that is not there (rule R42). -/
theorem stepA_unpopulated (i : Intent) (p : Ports) (s : State) (h : SdwMiss s p)
    (hb : WithinDsBound s p)
    (hp : (s.dsbr.u = true ∧ ¬PairPopulated s (nsdwAddr s.dsbr p.segno)) ∨
      (s.dsbr.u = false ∧ (s.populated (dsptwAt s p) = false ∨
        ((dsptwOf s p).df = true ∧ ¬PairPopulated s
          (psdwAddr s.config.frameMask (dsptwOf s p) p.segno))))) :
    stepA (cycleStart i p s) = .refuse .unpopulatedMemory := by
  rw [stepA_miss i p s h, walkSegment]
  have h1 : ∀ calls, ((walked i p s s.sdw s.mem s.ptw calls).config.dsbrBndCheck &&
      beyondDsBound (walked i p s s.sdw s.mem s.ptw calls).dsbr
        (walked i p s s.sdw s.mem s.ptw calls).tsr) = false := fun _ => dsBound_false s p hb
  rcases hp with ⟨hu, hp⟩ | ⟨hu, hp⟩
  · have h2 : (walked i p s s.sdw s.mem s.ptw [.fetchSdwFromSdwam p.segno .miss]).dsbr.u = true := hu
    rw [if_pos h2, fetchNsdw_eq]
    simp only [h1, Bool.false_eq_true, if_false]
    split
    · split
      · exact absurd ⟨‹_›, ‹_›⟩ hp
      · rfl
    · rfl
  · have h2 : ¬(walked i p s s.sdw s.mem s.ptw [.fetchSdwFromSdwam p.segno .miss]).dsbr.u = true := by
      simp [walked, hu]
    rw [if_neg h2, pagedWalk]
    by_cases hq : s.populated (dsptwAt s p) = true
    · obtain ⟨hd, hn⟩ := hp.resolve_left (by simp [hq])
      rw [useDsptw_walked i p s hb hq hd, Flow.go_andThen, fetchPsdw_walked_unpopulated i p s _ { dsptwOf s p with u := true } hn]
      rfl
    · rw [fetchDsptw_eq]
      simp only [h1, Bool.false_eq_true, if_false]
      rw [if_neg (show ¬(walked i p s s.sdw s.mem s.ptw [.fetchSdwFromSdwam p.segno .miss]).populated
        (dsptwAddr (walked i p s s.sdw s.mem s.ptw [.fetchSdwFromSdwam p.segno .miss]).dsbr
          (walked i p s s.sdw s.mem s.ptw [.fetchSdwFromSdwam p.segno .miss]).tsr).toNat = true
        from hq)]
      rfl

end Sys2Proof.Machine
end

