-- ==== Sys2Proof/Laws/Steps.lean ====
section
/-! SUPPORT. What the steps B, G, H and I do from the state that the step before leaves. -/

namespace Sys2Proof.Machine

/-! ## Steps B and G -/

/-- Everything step B does in a READ or ABSA (rules R130 to R133). -/
theorem stepB_read (s : State) (h : s.intent ≠ .store) :
    stepB s = { s with
      acvFaults := s.acvFaults ||| bracketBits s.sdw ||| readRingBits s.trr s.sdw |||
        (if s.sdw.r = true then 0 else readOffBits s.psr s.tsr)
      trr := if s.sdw.r = true then s.trr else s.prr
      seqStep := .g
      path := s.path ++ [.g] } := by
  obtain ⟨tsr, ca, trr, psr, prr, intent, opcode, opcodeX, indirect, bit29, acv, noMatch, seqStep, sdw⟩ := s
  cases intent <;> first | exact absurd rfl h | skip
  all_goals
    cases hr : sdw.r <;>
      simp [stepB, checkRead, State.orAcv, State.setStep, State.setTrr, hr]

/-- Everything step B does in a STORE (rules R130, R134 to R136). -/
theorem stepB_store (s : State) (h : s.intent = .store) :
    stepB s = { s with
      acvFaults := s.acvFaults ||| bracketBits s.sdw |||
        writeRingBits (if s.tsr = s.psr then s.prr else s.trr) s.sdw |||
        (if s.sdw.w = true then 0 else writeOffBits)
      trr := if s.sdw.w = true then (if s.tsr = s.psr then s.prr else s.trr) else s.prr
      seqStep := .g
      path := s.path ++ [.g] } := by
  obtain ⟨tsr, ca, trr, psr, prr, intent, opcode, opcodeX, indirect, bit29, acv, noMatch, seqStep, sdw⟩ := s
  cases h
  by_cases ht : tsr = psr <;> cases hw : sdw.w <;>
      simp [stepB, checkWrite, State.orAcv, State.setStep, State.setTrr, hw, ht]

/-- The state between steps B and G. -/
def atG (i : Intent) (p : Ports) (s : State) (d : Sdw) (m : Memory) (q : Ptw)
    (am : AssocMem SegNo Sdw) (calls : List Call) (mask : AcvMask) : State :=
  { atB i p s d m q am calls with
    acvFaults := mask, trr := ringAfterChecks i p d, seqStep := .g, path := [.a, .b, .g] }

/-- The bound check in whole words (rules R140, R141). -/
theorem boundUnits_lt (ca : Offset) (b : Bound) :
    b < boundUnits ca ↔ 16 * b.toNat + 15 < ca.toNat := by
  simp only [boundUnits, BitVec.lt_def, BitVec.extractLsb'_toNat, Nat.shiftRight_eq_div_pow]
  have := ca.isLt
  have := b.isLt
  omega

theorem acvBit_ite_not (b : Prop) [Decidable b] :
    (if ¬b then acvBit 0 else 0) = if b then 0 else 0x8000#16 := by
  split <;> simp_all [acvBit]

/-- Steps B and G accumulate the violations and commit (rules R139 to R145). -/
theorem checkAccess_atB (i : Intent) (p : Ports) (s : State) (d : Sdw) (m : Memory) (q : Ptw)
    (am : AssocMem SegNo Sdw) (calls : List Call) :
    checkAccess (atB i p s d m q am calls) =
      if violations i p d = 0 then .go (atHI i p s d m q am calls)
      else .ended (raiseFault (.acv (violations i p d))
        (atG i p s d m q am calls (violations i p d))) := by
  have hv : (stepB (atB i p s d m q am calls)).orAcv (boundBits p.offset d) =
      atG i p s d m q am calls (violations i p d) := by
    by_cases hi : i = .store
    · subst hi
      rw [stepB_store _ rfl]
      simp only [atB, atG, State.orAcv]
      congr 1
      · simp only [ringAfterChecks, storeRing, if_true, cycleStart_tsr, cycleStart_psr, cycleStart_prr,
          cycleStart_trr, eq_comm (a := p.segno)]
        cases d.w <;> rfl
      · simp only [violations, bracketBits, writeRingBits, writeOffBits, boundBits, acvIf, boundUnits_lt,
          storeRing, cycleStart_tsr, cycleStart_psr, cycleStart_prr, cycleStart_trr,
          cycleStart_acvFaults, eq_comm (a := p.segno)]
        rw [acvBit_ite_not]
        by_cases hw : d.w = true <;> simp [hw, acvBit]
    · rw [stepB_read _ hi]
      simp only [atB, atG, State.orAcv]
      congr 1
      · simp only [ringAfterChecks, if_neg hi, cycleStart_prr, cycleStart_trr]
        cases d.r <;> rfl
      · simp only [violations, bracketBits, readRingBits, readOffBits, boundBits, acvIf, boundUnits_lt,
          cycleStart_tsr, cycleStart_psr, cycleStart_trr, cycleStart_acvFaults]
        rw [acvBit_ite_not]
        by_cases hr : d.r = true <;> simp [hr, acvBit, hi]
  have hs : (stepB (atB i p s d m q am calls)).sdw = d ∧ (stepB (atB i p s d m q am calls)).ca = p.offset := by
    by_cases hi : i = .store
    · subst hi; rw [stepB_store _ rfl]; exact ⟨rfl, rfl⟩
    · rw [stepB_read _ hi]; exact ⟨rfl, rfl⟩
  rw [checkAccess, stepG]
  simp only [hs.1, hs.2, hv]
  by_cases h0 : violations i p d = 0
  · have h3 : ¬(atG i p s d m q am calls (violations i p d)).acvFaults ≠ 0 := fun hn => hn h0
    rw [if_pos h0, if_neg h3, h0]
    rfl
  · have h3 : (atG i p s d m q am calls (violations i p d)).acvFaults ≠ 0 := h0
    rw [if_neg h0, if_pos h3]
    rfl

/-! ## Steps H and I -/

/-- Step H (rule R150). -/
theorem formAddress_unpaged (i : Intent) (p : Ports) (s : State) (d : Sdw) (m : Memory) (q : Ptw)
    (am : AssocMem SegNo Sdw) (calls : List Call) (h : d.u = true) :
    formAddress (atHI i p s d m q am calls) =
      .go (atExit i p s d m q am s.ptwam (unpagedAddr d p.offset) calls) := by
  have h1 : (atHI i p s d m q am calls).sdw.u = true := h
  rw [formAddress, if_pos h1]
  rfl

/-- The state in step I: the PTWAM `pm` besides what step A left. -/
def inI (i : Intent) (p : Ports) (s : State) (d : Sdw) (m : Memory) (q : Ptw)
    (am : AssocMem SegNo Sdw) (pm : AssocMem PtwKey Ptw) (calls : List Call) : State :=
  { atHI i p s d m q am calls with ptwam := pm }

/-- The PTWAM once the PTW `q` of the page is resolved (rules R84, R86, R154). -/
def ptwamAfterResolve (s : State) (p : Ports) (d : Sdw) (q : Ptw) : AssocMem PtwKey Ptw :=
  if PtwMiss s p d then
    if q.df = true ∧ ¬Bypassed s p then
      amInstall s.config.amSizePtw s.ptwam (d.pointer, pageOf p.offset) q
    else s.ptwam
  else amTouch s.ptwam (d.pointer, pageOf p.offset)

/-- The calls that resolve the PTW `q` of the page (rules R153, R154). -/
def resolveCalls (s : State) (p : Ports) (d : Sdw) (q : Ptw) : List Call :=
  if PtwMiss s p d then
    .fetchPtwFromPtwam d.pointer p.offset .miss :: .fetchPtw d p.offset ::
      if q.df = true then [.loadPtwam d.pointer p.offset (decide (Bypassed s p))] else []
  else [.fetchPtwFromPtwam d.pointer p.offset .hit]

theorem cachedPtw_hit (i : Intent) (p : Ports) (s : State) (d : Sdw) (m : Memory) (q₀ : Ptw)
    (am : AssocMem SegNo Sdw) (calls : List Call) (q : Ptw) (h : PtwHit s p d q) :
    (atHI i p s d m q₀ am calls).cachedPtw = some q := by
  rw [State.cachedPtw, show (atHI i p s d m q₀ am calls).noMatch = false from
    noMatch_of_not_bypassed i p s h.1]
  exact h.2

theorem cachedPtw_miss (i : Intent) (p : Ports) (s : State) (d : Sdw) (m : Memory) (q₀ : Ptw)
    (am : AssocMem SegNo Sdw) (calls : List Call) (h : PtwMiss s p d) :
    (atHI i p s d m q₀ am calls).cachedPtw = none := by
  rw [State.cachedPtw]
  split
  · rfl
  · rename_i hn
    rcases h with h | h
    · exact absurd ((computeNomatch_iff i p s).2 h) hn
    · exact h

section
variable (i : Intent) (p : Ports) (s : State) (d : Sdw) (m : Memory) (q : Ptw)
  (am : AssocMem SegNo Sdw) (pm : AssocMem PtwKey Ptw) (calls : List Call)

@[simp] theorem inI_sdw : (inI i p s d m q am pm calls).sdw = d := (rfl)
@[simp] theorem inI_ptw : (inI i p s d m q am pm calls).ptw = q := (rfl)
@[simp] theorem inI_ca : (inI i p s d m q am pm calls).ca = p.offset := (rfl)
@[simp] theorem inI_intent : (inI i p s d m q am pm calls).intent = i := (rfl)
@[simp] theorem inI_opcode : (inI i p s d m q am pm calls).opcode = p.opcode := (rfl)
@[simp] theorem inI_opcodeX : (inI i p s d m q am pm calls).opcodeX = p.opcodeX := (rfl)
@[simp] theorem inI_mem : (inI i p s d m q am pm calls).mem = m := (rfl)
@[simp] theorem inI_ptwam : (inI i p s d m q am pm calls).ptwam = pm := (rfl)
@[simp] theorem inI_config : (inI i p s d m q am pm calls).config = s.config := (rfl)
@[simp] theorem inI_populated (a : Nat) :
    (inI i p s d m q am pm calls).populated a = s.populated a := (rfl)
@[simp] theorem inI_noMatch : (inI i p s d m q am pm calls).noMatch = decide (Bypassed s p) :=
  noMatch_eq_decide i p s

/-- Rule R154. -/
theorem admitPtw_inI (fetched : Bool) :
    admitPtw fetched (inI i p s d m q am pm calls) =
      if i ≠ .absa ∧ q.df = false then
        .ended (raiseFault (.df q.fc) (inI i p s d m q am pm calls))
      else if fetched = true ∧ q.df = true then
        .go (inI i p s d m q am
          (if Bypassed s p then pm
            else amInstall s.config.amSizePtw pm (d.pointer, pageOf p.offset) q)
          (calls ++ [.loadPtwam d.pointer p.offset (decide (Bypassed s p))]))
      else .go (inI i p s d m q am pm calls) := by
  rw [admitPtw, loadPtwam_eq]
  simp only [inI_ptw, inI_intent, inI_noMatch, inI_sdw, inI_ca]
  by_cases hq : q.df = true
  · by_cases hf : fetched = true <;> by_cases hb : Bypassed s p <;> simp only [hq, hf, hb, if_true, if_false, and_true, and_false, decide_true, decide_false, Bool.false_eq_true, Bool.true_eq_false]
      <;> rfl
  · by_cases hi : i = .absa <;> simp [hq, hi]
end

/-- `fetch_ptw` in step I (rule R93). -/
theorem fetchPtw_atHI (i : Intent) (p : Ports) (s : State) (d : Sdw) (m : Memory) (q₀ : Ptw)
    (am : AssocMem SegNo Sdw) (calls : List Call) :
    fetchPtw (atHI i p s d m q₀ am calls) =
      if s.populated (ptwAt p d) = true then
        .go (inI i p s d m (decodePtw (Memory.read m (ptwAt p d))) am s.ptwam
          (calls ++ [.fetchPtw d p.offset]))
      else .refuse .unpopulatedMemory := by
  rw [fetchPtw_eq]
  rfl

/-- A lookup that misses (rule R84). -/
theorem fetchPtwFromPtwam_atHI_miss (i : Intent) (p : Ports) (s : State) (d : Sdw) (m : Memory)
    (q₀ : Ptw) (am : AssocMem SegNo Sdw) (calls : List Call) (h : PtwMiss s p d) :
    fetchPtwFromPtwam (atHI i p s d m q₀ am calls) =
      (.miss, atHI i p s d m q₀ am (calls ++ [.fetchPtwFromPtwam d.pointer p.offset .miss])) := by
  rw [fetchPtwFromPtwam_miss _ (cachedPtw_miss i p s d m q₀ am calls h)]
  rfl

/-- A lookup that hits (rule R84). -/
theorem fetchPtwFromPtwam_atHI_hit (i : Intent) (p : Ports) (s : State) (d : Sdw) (m : Memory)
    (q₀ q : Ptw) (am : AssocMem SegNo Sdw) (calls : List Call) (h : PtwHit s p d q) :
    fetchPtwFromPtwam (atHI i p s d m q₀ am calls) =
      (.hit, inI i p s d m q am (amTouch s.ptwam (d.pointer, pageOf p.offset))
        (calls ++ [.fetchPtwFromPtwam d.pointer p.offset .hit])) := by
  rw [fetchPtwFromPtwam_hit _ q (cachedPtw_hit i p s d m q₀ am calls q h)]
  rfl

/-- The PTW is resolved, and present or the request an ABSA (rules R153, R154). -/
theorem resolvePtw_atHI (i : Intent) (p : Ports) (s : State) (d : Sdw) (m : Memory) (q₀ q : Ptw)
    (am : AssocMem SegNo Sdw) (calls : List Call) (h : ResolvesPage s p d m q) :
    resolvePtw (atHI i p s d m q₀ am calls) =
      if i ≠ .absa ∧ q.df = false then
        .ended (raiseFault (.df q.fc) (inI i p s d m q am (ptwamAfterResolve s p d q)
          (calls ++ resolveCalls s p d q)))
      else .go (inI i p s d m q am (ptwamAfterResolve s p d q) (calls ++ resolveCalls s p d q)) := by
  rw [resolvePtw]
  rcases h with h | ⟨hm, hp, rfl⟩
  · rw [fetchPtwFromPtwam_atHI_hit i p s d m q₀ q am calls h]
    simp only [ptwamAfterResolve, resolveCalls, if_neg (not_ptwMiss_of_hit h), admitPtw_inI]
    simp
  · rw [fetchPtwFromPtwam_atHI_miss i p s d m q₀ am calls hm]
    simp only [ptwamAfterResolve, resolveCalls, if_pos hm]
    rw [fetchPtw_atHI, if_pos hp, Flow.go_andThen, admitPtw_inI]
    by_cases hq : (decodePtw (Memory.read m (ptwAt p d))).df = true
    · by_cases hb : Bypassed s p <;> simp [hq, hb]
    · by_cases hi : i = .absa <;> simp [hq, hi]

/-- The PTW's word is not there (rule R42). -/
theorem resolvePtw_unpopulated (i : Intent) (p : Ports) (s : State) (d : Sdw) (m : Memory) (q₀ : Ptw)
    (am : AssocMem SegNo Sdw) (calls : List Call) (h : PtwMiss s p d)
    (hp : s.populated (ptwAt p d) = false) :
    resolvePtw (atHI i p s d m q₀ am calls) = .refuse .unpopulatedMemory := by
  rw [resolvePtw, fetchPtwFromPtwam_atHI_miss i p s d m q₀ am calls h]
  simp only
  rw [fetchPtw_atHI, if_neg (by simp [hp])]
  rfl

section
variable (i : Intent) (p : Ports) (s : State) (d : Sdw) (m : Memory) (q : Ptw)
  (am : AssocMem SegNo Sdw) (pm : AssocMem PtwKey Ptw) (calls : List Call)

/-- The second probe is made (rule R155). -/
abbrev Probes (i : Intent) (s : State) (p : Ports) : Prop := i ≠ .absa ∧ Uninterruptible s p

/-- The call of the second probe (rule R94). -/
def probeCalls (i : Intent) (s : State) (p : Ports) (d : Sdw) : List Call :=
  if Probes i s p then [.doPtw2 d p.offset] else []

/-- Rule R155. -/
theorem probeNext_inI :
    probeNext (inI i p s d m q am pm calls) =
      if Probes i s p then
        if s.populated (nextPtwAt p d) = true then
          if (decodePtw (Memory.read m (nextPtwAt p d))).df = true then
            .go (inI i p s d m q am pm (calls ++ probeCalls i s p d))
          else .ended (raiseFault (.df (decodePtw (Memory.read m (nextPtwAt p d))).fc)
            (inI i p s d m q am pm (calls ++ probeCalls i s p d)))
        else .refuse .unpopulatedMemory
      else .go (inI i p s d m q am pm (calls ++ probeCalls i s p d)) := by
  rw [probeNext]
  have hu : isUninterruptible s.config p.opcode p.opcodeX = true ↔ Uninterruptible s p := by
    simp [isUninterruptible]
  simp only [inI_intent, inI_config, inI_opcode, inI_opcodeX, hu]
  by_cases h : i ≠ .absa ∧ Uninterruptible s p
  · rw [if_pos h, if_pos h, doPtw2_eq, probeCalls, if_pos h]
    rfl
  · rw [if_neg h, if_neg h, probeCalls, if_neg h, List.append_nil]

/-- The page is marked modified (rule R156). -/
abbrev Marks (i : Intent) (q : Ptw) : Prop := i = .store ∧ q.m = false

/-- The call that marks the page (rule R97). -/
def markCalls (i : Intent) (p : Ports) (d : Sdw) (q : Ptw) : List Call :=
  if Marks i q then [.modifyPtw d p.offset] else []

/-- The `PTW` register at the end of step I (rule R97). -/
def ptwAfterMark (i : Intent) (q : Ptw) : Ptw := if Marks i q then { q with m := true } else q

/-- The PTWAM at the end of step I (rule R97). -/
def ptwamAfterMark (i : Intent) (p : Ports) (d : Sdw) (q : Ptw) (pm : AssocMem PtwKey Ptw) :
    AssocMem PtwKey Ptw :=
  if Marks i q then
    amUpdate pm (d.pointer, pageOf p.offset) (fun r => { r with m := true })
  else pm

/-- `modify_ptw` in step I (rule R97). -/
theorem modifyPtw_inI :
    modifyPtw (inI i p s d m q am pm calls) =
      if s.populated (ptwAt p d) = true then
        .go (inI i p s d (Memory.write m (ptwAt p d) (Memory.read m (ptwAt p d) ||| 0x40#36))
          { q with m := true } am
          (amUpdate pm (d.pointer, pageOf p.offset) (fun r => { r with m := true }))
          (calls ++ [.modifyPtw d p.offset]))
      else .refuse .unpopulatedMemory := by
  rw [modifyPtw_eq]
  rfl

/-- Rule R156. -/
theorem markModified_inI :
    markModified (inI i p s d m q am pm calls) =
      if Marks i q ∧ s.populated (ptwAt p d) = false then .refuse .unpopulatedMemory
      else .go (inI i p s d (memAfterMark i p d m q) (ptwAfterMark i q) am (ptwamAfterMark i p d q pm)
        (calls ++ markCalls i p d q)) := by
  rw [markModified]
  simp only [inI_intent, inI_ptw]
  by_cases h : i = .store ∧ q.m = false
  · rw [if_pos h, memAfterMark, ptwAfterMark, ptwamAfterMark, markCalls, if_pos h, if_pos h, if_pos h,
      if_pos h, modifyPtw_inI]
    by_cases hp : s.populated (ptwAt p d) = true
    · rw [if_pos hp, if_neg (fun hc => absurd (hp.symm.trans hc.2) (by simp))]
    · rw [if_neg hp, if_pos ⟨h, by simpa using hp⟩]
  · rw [if_neg h, memAfterMark, ptwAfterMark, ptwamAfterMark, markCalls, if_neg h, if_neg h, if_neg h,
      if_neg h, if_neg (fun hc => h hc.1), List.append_nil]

end

/-- The calls of step I (rule R159). -/
def pageCalls (i : Intent) (s : State) (p : Ports) (d : Sdw) (q : Ptw) : List Call :=
  resolveCalls s p d q ++ probeCalls i s p d ++ markCalls i p d q

/-- Step I where it goes on (rule R159). -/
theorem formAddress_paged (i : Intent) (p : Ports) (s : State) (d : Sdw) (m m' : Memory) (q₀ q : Ptw)
    (am : AssocMem SegNo Sdw) (calls : List Call) (f : PhysAddr)
    (h : FormsPagedAddress i s p d m q f m') :
    formAddress (atHI i p s d m q₀ am calls) =
      .go (atExit i p s d m' (ptwAfterMark i q) am
        (ptwamAfterMark i p d q (ptwamAfterResolve s p d q)) f (calls ++ pageCalls i s p d q)) := by
  obtain ⟨hu, hr, hq, hn, hm, rfl, rfl⟩ := h
  have h1 : ¬(atHI i p s d m q₀ am calls).sdw.u = true := by
    intro hc
    exact absurd (hu.symm.trans hc) (by simp)
  have h2 : ¬(i ≠ .absa ∧ q.df = false) := fun hc => by simp [hq hc.1] at hc
  have h3 : ¬(Marks i q ∧ s.populated (ptwAt p d) = false) := fun hc => by
    simp [hm hc.1.1 hc.1.2] at hc
  rw [formAddress, if_neg h1, stepI, resolvePtw_atHI i p s d m q₀ q am calls hr, if_neg h2,
    Flow.go_andThen, probeNext_inI]
  have h4 : pageCalls i s p d q =
      resolveCalls s p d q ++ (probeCalls i s p d ++ markCalls i p d q) := by
    simp [pageCalls]
  have h5 : (pagedAddr s.config.frameMask (ptwAfterMark i q) p.offset) =
      pagedAddr s.config.frameMask q p.offset := by
    rw [ptwAfterMark]; split <;> rfl
  rw [h4, ← h5]
  by_cases hp : Probes i s p
  · rw [if_pos hp, if_pos (hn hp.1 hp.2).1, if_pos (hn hp.1 hp.2).2, Flow.go_andThen,
      markModified_inI, if_neg h3, Flow.go_andThen, ← List.append_assoc, ← List.append_assoc]
    rfl
  · rw [if_neg hp, Flow.go_andThen, markModified_inI, if_neg h3, Flow.go_andThen,
      ← List.append_assoc, ← List.append_assoc]
    rfl

/-- Step I where the page is absent (rule R154). -/
theorem formAddress_absent (i : Intent) (p : Ports) (s : State) (d : Sdw) (m : Memory) (q₀ q : Ptw)
    (am : AssocMem SegNo Sdw) (calls : List Call) (hu : d.u = false) (h : ResolvesPage s p d m q)
    (hi : i ≠ .absa) (hq : q.df = false) :
    formAddress (atHI i p s d m q₀ am calls) =
      .ended (raiseFault (.df q.fc) (inI i p s d m q am (ptwamAfterResolve s p d q)
        (calls ++ resolveCalls s p d q))) := by
  have h1 : ¬(atHI i p s d m q₀ am calls).sdw.u = true := by
    intro hc
    exact absurd (hu.symm.trans hc) (by simp)
  rw [formAddress, if_neg h1, stepI, resolvePtw_atHI i p s d m q₀ q am calls h, if_pos ⟨hi, hq⟩]
  rfl

/-- Step I where the second probe finds the following page absent (rule R155). -/
theorem formAddress_probe (i : Intent) (p : Ports) (s : State) (d : Sdw) (m : Memory) (q₀ q : Ptw)
    (am : AssocMem SegNo Sdw) (calls : List Call) (hu : d.u = false) (h : ResolvesPage s p d m q)
    (hq : q.df = true) (hp : Probes i s p) (hn : s.populated (nextPtwAt p d) = true)
    (hf : (decodePtw (Memory.read m (nextPtwAt p d))).df = false) :
    formAddress (atHI i p s d m q₀ am calls) =
      .ended (raiseFault (.df (decodePtw (Memory.read m (nextPtwAt p d))).fc)
        (inI i p s d m q am (ptwamAfterResolve s p d q)
          (calls ++ resolveCalls s p d q ++ probeCalls i s p d))) := by
  have h1 : ¬(atHI i p s d m q₀ am calls).sdw.u = true := by
    intro hc
    exact absurd (hu.symm.trans hc) (by simp)
  rw [formAddress, if_neg h1, stepI, resolvePtw_atHI i p s d m q₀ q am calls h,
    if_neg (fun hc => absurd (hq.symm.trans hc.2) (by simp)), Flow.go_andThen, probeNext_inI,
    if_pos hp, if_pos hn, if_neg (by simp [hf])]
  rfl

/-! Step I through a word that is not there (rules R42, R98): the PTW of the page, the following PTW,
the PTW to be marked. -/

theorem formAddress_ptwUnpopulated (i : Intent) (p : Ports) (s : State) (d : Sdw) (m : Memory)
    (q₀ : Ptw) (am : AssocMem SegNo Sdw) (calls : List Call) (hu : d.u = false) (hm : PtwMiss s p d)
    (hp : s.populated (ptwAt p d) = false) :
    formAddress (atHI i p s d m q₀ am calls) = .refuse .unpopulatedMemory := by
  have h1 : ¬(atHI i p s d m q₀ am calls).sdw.u = true := fun hc =>
    absurd (hu.symm.trans hc) (by simp)
  rw [formAddress, if_neg h1, stepI, resolvePtw_unpopulated i p s d m q₀ am calls hm hp]
  rfl

theorem formAddress_probeUnpopulated (i : Intent) (p : Ports) (s : State) (d : Sdw) (m : Memory)
    (q₀ q : Ptw) (am : AssocMem SegNo Sdw) (calls : List Call) (hu : d.u = false)
    (hr : ResolvesPage s p d m q) (hq : i ≠ .absa → q.df = true) (hp : Probes i s p)
    (hn : s.populated (nextPtwAt p d) = false) :
    formAddress (atHI i p s d m q₀ am calls) = .refuse .unpopulatedMemory := by
  have h1 : ¬(atHI i p s d m q₀ am calls).sdw.u = true := fun hc =>
    absurd (hu.symm.trans hc) (by simp)
  rw [formAddress, if_neg h1, stepI, resolvePtw_atHI i p s d m q₀ q am calls hr,
    if_neg (fun hc => by simp [hq hc.1] at hc), Flow.go_andThen, probeNext_inI, if_pos hp,
    if_neg (by simp [hn])]
  rfl

theorem formAddress_markUnpopulated (i : Intent) (p : Ports) (s : State) (d : Sdw) (m : Memory)
    (q₀ q : Ptw) (am : AssocMem SegNo Sdw) (calls : List Call) (hu : d.u = false)
    (hr : ResolvesPage s p d m q) (hq : i ≠ .absa → q.df = true) (hn : ProbePasses i s p d m)
    (hm : Marks i q) (hp : s.populated (ptwAt p d) = false) :
    formAddress (atHI i p s d m q₀ am calls) = .refuse .unpopulatedMemory := by
  have h1 : ¬(atHI i p s d m q₀ am calls).sdw.u = true := fun hc =>
    absurd (hu.symm.trans hc) (by simp)
  rw [formAddress, if_neg h1, stepI, resolvePtw_atHI i p s d m q₀ q am calls hr,
    if_neg (fun hc => by simp [hq hc.1] at hc), Flow.go_andThen, probeNext_inI]
  by_cases hx : Probes i s p
  · rw [if_pos hx, if_pos (hn hx.1 hx.2).1, if_pos (hn hx.1 hx.2).2, Flow.go_andThen,
      markModified_inI, if_pos ⟨hm, hp⟩]
    rfl
  · rw [if_neg hx, Flow.go_andThen, markModified_inI, if_pos ⟨hm, hp⟩]
    rfl

/-- Every way in which step H or I can end. -/
theorem formAddress_cases (i : Intent) (p : Ports) (s : State) (d : Sdw) (m : Memory) (q₀ : Ptw)
    (am : AssocMem SegNo Sdw) (calls : List Call) :
    (d.u = true ∧ formAddress (atHI i p s d m q₀ am calls) =
        .go (atExit i p s d m q₀ am s.ptwam (unpagedAddr d p.offset) calls)) ∨
      (∃ q f m', FormsPagedAddress i s p d m q f m' ∧
        formAddress (atHI i p s d m q₀ am calls) =
          .go (atExit i p s d m' (ptwAfterMark i q) am
            (ptwamAfterMark i p d q (ptwamAfterResolve s p d q)) f
            (calls ++ pageCalls i s p d q))) ∨
      (∃ q, d.u = false ∧ ResolvesPage s p d m q ∧ i ≠ .absa ∧ q.df = false ∧
        formAddress (atHI i p s d m q₀ am calls) =
          .ended (raiseFault (.df q.fc) (inI i p s d m q am (ptwamAfterResolve s p d q)
            (calls ++ resolveCalls s p d q)))) ∨
      (∃ q, d.u = false ∧ ResolvesPage s p d m q ∧ q.df = true ∧ Probes i s p ∧
        s.populated (nextPtwAt p d) = true ∧
        (decodePtw (Memory.read m (nextPtwAt p d))).df = false ∧
        formAddress (atHI i p s d m q₀ am calls) =
          .ended (raiseFault (.df (decodePtw (Memory.read m (nextPtwAt p d))).fc)
            (inI i p s d m q am (ptwamAfterResolve s p d q)
              (calls ++ resolveCalls s p d q ++ probeCalls i s p d)))) ∨
      ((∃ a : PhysAddr, s.populated a.toNat = false) ∧
        formAddress (atHI i p s d m q₀ am calls) = .refuse .unpopulatedMemory) := by
  by_cases hu : d.u = true
  · exact .inl ⟨hu, formAddress_unpaged i p s d m q₀ am calls hu⟩
  have hu' : d.u = false := by simpa using hu
  right
  have hr : (∃ q, ResolvesPage s p d m q) ∨ (PtwMiss s p d ∧ s.populated (ptwAt p d) = false) := by
    rcases ptwHit_or_miss s p d with ⟨q, h⟩ | h
    · exact .inl ⟨q, .inl h⟩
    · cases hp : s.populated (ptwAt p d) with
      | true => exact .inl ⟨_, .inr ⟨h, hp, rfl⟩⟩
      | false => exact .inr ⟨h, rfl⟩
  rcases hr with ⟨q, hr⟩ | ⟨hm, hp⟩
  rotate_left
  · exact .inr (.inr (.inr ⟨⟨_, hp⟩, formAddress_ptwUnpopulated i p s d m q₀ am calls hu' hm hp⟩))
  by_cases hq : i ≠ .absa ∧ q.df = false
  · exact .inr (.inl ⟨q, hu', hr, hq.1, hq.2,
      formAddress_absent i p s d m q₀ q am calls hu' hr hq.1 hq.2⟩)
  have hq' : i ≠ .absa → q.df = true := fun hi => by simpa [hi] using hq
  by_cases hx : Probes i s p ∧ s.populated (nextPtwAt p d) = false
  · exact .inr (.inr (.inr ⟨⟨_, hx.2⟩,
      formAddress_probeUnpopulated i p s d m q₀ q am calls hu' hr hq' hx.1 hx.2⟩))
  by_cases hf : Probes i s p ∧ (decodePtw (Memory.read m (nextPtwAt p d))).df = false
  · have hn : s.populated (nextPtwAt p d) = true := by simpa [hf.1] using hx
    exact .inr (.inr (.inl ⟨q, hu', hr, hq' hf.1.1, hf.1, hn, hf.2,
      formAddress_probe i p s d m q₀ q am calls hu' hr (hq' hf.1.1) hf.1 hn hf.2⟩))
  have hn : ProbePasses i s p d m := fun h2 h3 =>
    ⟨by simpa [Probes, h2, h3] using hx, by simpa [Probes, h2, h3] using hf⟩
  by_cases hm : Marks i q ∧ s.populated (ptwAt p d) = false
  · exact .inr (.inr (.inr ⟨⟨_, hm.2⟩,
      formAddress_markUnpopulated i p s d m q₀ q am calls hu' hr hq' hn hm.1 hm.2⟩))
  · have h : FormsPagedAddress i s p d m q (pagedAddr s.config.frameMask q p.offset)
        (memAfterMark i p d m q) :=
      ⟨hu', hr, hq', hn, fun h2 h3 => by simpa [Marks, h2, h3] using hm, rfl, rfl⟩
    exact .inl ⟨q, _, _, h, formAddress_paged i p s d m _ q₀ q am calls _ h⟩

end Sys2Proof.Machine
end

