-- ==== Sys2Proof/Laws/Ends.lean ====
section
/-! SUPPORT. Every way in which a whole cycle can end, once: `cycleEnds_of_next`. A proof about the next
state of an operation takes it apart with `cases` and reads the fields off the six states named. -/

namespace Sys2Proof.Machine

/-! ## Step A, all ways in one -/

/-- The `PTW` register at the end of step A. -/
def ptwAfterA (s : State) (p : Ports) : Ptw := if SdwMiss s p then ptwAfterWalk s p else s.ptw

/-- The SDWAM at the end of step A (rules R80, R82). -/
def sdwamAfterA (s : State) (p : Ports) (d : Sdw) : AssocMem SegNo Sdw :=
  if SdwMiss s p then sdwamAfterWalk s p d else amTouch s.sdwam p.segno

/-- The calls of step A (rule R120). -/
def segmentCalls (s : State) (p : Ports) (d : Sdw) : List Call :=
  if SdwMiss s p then .fetchSdwFromSdwam p.segno .miss :: (walkCalls s p ++ loadCalls s p d)
  else [.fetchSdwFromSdwam p.segno .hit]

/-- Step A where it goes on (rule R120). -/
theorem stepA_resolved (i : Intent) (p : Ports) (s : State) (d : Sdw) (m : Memory)
    (h : ResolvesSegment i s p d m) :
    stepA (cycleStart i p s) =
      .go (atB i p s d m (ptwAfterA s p) (sdwamAfterA s p d) (segmentCalls s p d)) := by
  rcases h with ⟨h, rfl⟩ | ⟨h, hd⟩
  · have hm := not_miss_of_hit h
    rw [stepA_hit i p s d h, ptwAfterA, sdwamAfterA, segmentCalls, if_neg hm, if_neg hm, if_neg hm]
  · rw [stepA_walk i p s d m h hd, ptwAfterA, sdwamAfterA, segmentCalls, if_pos h.1, if_pos h.1,
      if_pos h.1]

/-- Every way in which step A can end in a fault: the fault, and the descriptor, memory, `PTW` register
and calls that it leaves. -/
inductive SegmentFault (i : Intent) (s : State) (p : Ports) :
    FaultKind → Sdw → Memory → Ptw → List Call → Prop
  /-- Rule R89. -/
  | beyond (h : SdwMiss s p) (hb : ¬WithinDsBound s p) :
    SegmentFault i s p (.acv (acvBit 15)) s.sdw s.mem s.ptw
      [.fetchSdwFromSdwam p.segno .miss,
        if s.dsbr.u then .fetchNsdw p.segno else .fetchDsptw p.segno]
  /-- Rule R122. -/
  | absentDsptw (h : SdwMiss s p) (hb : WithinDsBound s p) (hu : s.dsbr.u = false)
    (hp : s.populated (dsptwAt s p) = true) (hd : (dsptwOf s p).df = false) :
    SegmentFault i s p (.df (dsptwOf s p).fc) s.sdw s.mem (dsptwOf s p)
      [.fetchSdwFromSdwam p.segno .miss, .fetchDsptw p.segno]
  /-- Rule R124. -/
  | invalid (d : Sdw) (m : Memory) (h : Walks s p d m) (hi : i ≠ .absa) (hd : d.df = false) :
    SegmentFault i s p (.df d.fc) d m (ptwAfterWalk s p)
      (.fetchSdwFromSdwam p.segno .miss :: walkCalls s p)

theorem stepA_fault {i : Intent} {s : State} {p : Ports} {k : FaultKind} {d : Sdw} {m : Memory}
    {q : Ptw} {calls : List Call} (h : SegmentFault i s p k d m q calls) :
    stepA (cycleStart i p s) = .ended (raiseFault k (walked i p s d m q calls)) := by
  cases h with
  | beyond h hb => exact stepA_beyond i p s h hb
  | absentDsptw h hb hu hp hd => exact stepA_absentDsptw i p s h hb hu hp hd
  | invalid d m h hi hd => exact stepA_invalid i p s d m h hi hd

/-- Every way in which step A can end. -/
theorem stepA_cases (i : Intent) (p : Ports) (s : State) :
    (∃ d m, ResolvesSegment i s p d m) ∨
      (∃ k d m q calls, SegmentFault i s p k d m q calls) ∨
      ((∃ a : PhysAddr, s.populated a.toNat = false) ∧
        stepA (cycleStart i p s) = .refuse .unpopulatedMemory) := by
  rcases sdwHit_or_miss s p with ⟨d, h⟩ | h
  · exact .inl ⟨d, s.mem, .inl ⟨h, rfl⟩⟩
  by_cases hb : WithinDsBound s p
  swap
  · exact .inr (.inl ⟨_, _, _, _, _, .beyond h hb⟩)
  have hw : ∀ d m, Walks s p d m → (∃ d m, ResolvesSegment i s p d m) ∨
      (∃ k d m q calls, SegmentFault i s p k d m q calls) ∨
      ((∃ a : PhysAddr, s.populated a.toNat = false) ∧
        stepA (cycleStart i p s) = .refuse .unpopulatedMemory) := by
    intro d m hw
    by_cases hd : i ≠ .absa ∧ d.df = false
    · exact .inr (.inl ⟨_, _, _, _, _, .invalid d m hw hd.1 hd.2⟩)
    · exact .inl ⟨d, m, .inr ⟨hw, fun hi => by simpa [hi] using hd⟩⟩
  have hn : ∀ a, ¬PairPopulated s a → ∃ b : PhysAddr, s.populated b.toNat = false := by
    intro a ha
    by_cases h1 : s.populated a.toNat = true
    · exact ⟨a + 1, Bool.eq_false_iff.2 fun h2 => ha ⟨h1, h2⟩⟩
    · exact ⟨a, Bool.eq_false_iff.2 h1⟩
  cases hu : s.dsbr.u with
  | true =>
    by_cases hp : PairPopulated s (nsdwAddr s.dsbr p.segno)
    · exact hw _ _ ⟨h, hb, .inl ⟨hu, rfl, hp, rfl⟩⟩
    · exact .inr (.inr ⟨hn _ hp, stepA_unpopulated i p s h hb (.inl ⟨hu, hp⟩)⟩)
  | false =>
    cases hp : s.populated (dsptwAt s p) with
    | false => exact .inr (.inr ⟨⟨_, hp⟩, stepA_unpopulated i p s h hb (.inr ⟨hu, .inl hp⟩)⟩)
    | true =>
      cases hd : (dsptwOf s p).df with
      | false => exact .inr (.inl ⟨_, _, _, _, _, .absentDsptw h hb hu hp hd⟩)
      | true =>
        by_cases hq : PairPopulated s (psdwAddr s.config.frameMask (dsptwOf s p) p.segno)
        · exact hw _ _ ⟨h, hb, .inr ⟨hu, hp, hd, rfl, hq, rfl⟩⟩
        · exact .inr (.inr ⟨hn _ hq, stepA_unpopulated i p s h hb (.inr ⟨hu, .inr ⟨hd, hq⟩⟩)⟩)

/-! ## Step Exit and the whole cycle -/

/-- What an operation hands to step Exit. -/
def transferOf : Instr → Transfer
  | .read _ count => { count := count, data := [], zone := none }
  | .store _ data zone => { count := data.length, data := data, zone := zone }
  | .absa _ => { count := 0, data := [], zone := none }

/-- The transfer call of an operation (rules R165, R166, R167). -/
def transferCalls (f : PhysAddr) : Instr → List Call
  | .read _ count => [.coreReadN f count]
  | .store _ data none => [.coreWriteN f data.length]
  | .store _ _ (some zone) => [.coreWriteZone f zone]
  | .absa _ => []

/-- Memory after the transfer (rules R100 to R102). -/
def memAfterTransfer (f : PhysAddr) (m : Memory) : Instr → Memory
  | .read _ _ => m
  | .store _ data none => Memory.writeRun m f.toNat data
  | .store _ (datum :: _) (some zone) =>
    Memory.write m f.toNat (zoneMerge (Memory.read m f.toNat) datum zone)
  | .store _ [] (some _) => m
  | .absa _ => m

/-- The words a READ delivers (rule R165). -/
def wordsRead (f : PhysAddr) (m : Memory) : Instr → List Word
  | .read _ count => Memory.readRun m f.toNat count
  | .store _ _ _ => []
  | .absa _ => []

/-- The number of words of a transfer. -/
def transferLength : Instr → Nat
  | .read _ count => count
  | .store _ data none => data.length
  | .store _ _ (some _) => 1
  | .absa _ => 0

/-- The state in which a cycle ends that answers `Ok` (rule R168). -/
def completed (i : Instr) (s : State) (d : Sdw) (m : Memory) (q : Ptw) (am : AssocMem SegNo Sdw)
    (pm : AssocMem PtwKey Ptw) (f : PhysAddr) (calls : List Call) : State :=
  { atExit i.intent i.ports s d m q am pm f calls with
    mem := memAfterTransfer f m i
    trace := calls ++ transferCalls f i
    diag := Config.freeDiag s.freeCount
    freeCount := s.freeCount + 1
    response := some (.ok f (wordsRead f m i) (ringAfterChecks i.intent i.ports d))
    seqStep := .idle
    path := [.a, .b, .g, stepAfterG d, .exit, .idle] }

/-- Step Exit where it completes (rules R163 to R168). -/
theorem stepExit_ok (i : Instr) (s : State) (d : Sdw) (m : Memory) (q : Ptw) (am : AssocMem SegNo Sdw)
    (pm : AssocMem PtwKey Ptw) (f : PhysAddr) (calls : List Call) (hi : i.wf s.config.nMax = true)
    (hw : f.toNat + transferLength i - 1 < memSpace)
    (hp : ∀ k < transferLength i, s.populated (f.toNat + k) = true) :
    stepExit (transferOf i) (atExit i.intent i.ports s d m q am pm f calls) =
      .ended (completed i s d m q am pm f calls) := by
  cases i with
  | read p count =>
    have h := coreReadN_ok (atExit .read p s d m q am pm f calls).recordDiag count
      (fun v ws => respondOk v ws) hw hp
    exact h.trans rfl
  | store p data zone =>
    cases zone with
    | none =>
      have h := coreWriteN_ok (atExit .store p s d m q am pm f calls).recordDiag data hw hp
      show (coreWriteN (atExit .store p s d m q am pm f calls).recordDiag data).andThen _ = _
      rw [h]
      rfl
    | some zone =>
      cases data with
      | nil => simp [Instr.wf, Instr.illFormed] at hi
      | cons datum rest =>
        show (coreWriteZone (atExit .store p s d m q am pm f calls).recordDiag datum zone).andThen _ = _
        rw [coreWriteZone_eq]
        simp only
        rw [if_pos (by exact hp 0 (by simp [transferLength]))]
        rfl
  | absa p =>
    rw [completed]
    simp only [transferCalls, List.append_nil]
    rfl

/-- Step Exit where it does not complete. -/
theorem stepExit_refused (i : Instr) (s : State) (d : Sdw) (m : Memory) (q : Ptw)
    (am : AssocMem SegNo Sdw) (pm : AssocMem PtwKey Ptw) (f : PhysAddr) (calls : List Call)
    (h : ¬(f.toNat + transferLength i - 1 < memSpace ∧
      ∀ k < transferLength i, s.populated (f.toNat + k) = true)) :
    ∃ r, stepExit (transferOf i) (atExit i.intent i.ports s d m q am pm f calls) = .refuse r := by
  cases i with
  | read p count =>
    rcases coreReadN_cases (atExit .read p s d m q am pm f calls).recordDiag count
      (fun v ws => respondOk v ws) with ⟨r, hr⟩ | ⟨hw, hp, -⟩
    · exact ⟨r, hr⟩
    · exact absurd ⟨hw, hp⟩ h
  | store p data zone =>
    cases zone with
    | none =>
      rcases coreWriteN_cases (atExit .store p s d m q am pm f calls).recordDiag data with
        ⟨r, hr⟩ | ⟨hw, hp, -⟩
      · refine ⟨r, ?_⟩
        show (coreWriteN (atExit .store p s d m q am pm f calls).recordDiag data).andThen _ = _
        rw [hr]
        rfl
      · exact absurd ⟨hw, hp⟩ h
    | some zone =>
      cases data with
      | nil => exact ⟨_, rfl⟩
      | cons datum rest =>
        refine ⟨.unpopulatedMemory, ?_⟩
        have hf := f.isLt
        have hn : ¬s.populated f.toNat = true := fun hc => h
          ⟨by simp only [transferLength, memSpace]; omega, fun k hk => by
            have : k = 0 := by simp only [transferLength] at hk; omega
            simpa [this] using hc⟩
        show (coreWriteZone (atExit .store p s d m q am pm f calls).recordDiag datum zone).andThen _ = _
        rw [coreWriteZone_eq]
        simp only
        rw [if_neg (by exact hn)]
        rfl
  | absa p =>
    have hf := f.isLt
    exact absurd ⟨by simp only [transferLength, memSpace]; omega, by simp [transferLength]⟩ h

/-- A well-formed operation runs its cycle (rules R61, R113, R114, R115). -/
theorem exec_wf (i : Instr) (s : State) (h : i.wf s.config.nMax = true) :
    exec i s = (runCycle (transferOf i) (cycleStart i.intent i.ports s)).outcome := by
  cases i with
  | read p count =>
    have hc : ¬(count = 0 ∨ s.config.nMax < count) := by
      simp only [Instr.wf, Instr.illFormed] at h
      split at h
      · omega
      · cases h
    show execRead p count s = _
    rw [execRead, readProblem, if_neg hc]
    rfl
  | store p data zone =>
    have hc : ¬(data.length = 0 ∨ s.config.nMax < data.length) ∧
        ¬(zone.isSome = true ∧ data.length ≠ 1) := by
      simp only [Instr.wf, Instr.illFormed] at h
      split at h
      · split at h
        · cases h
        · exact ⟨by omega, ‹_›⟩
      · cases h
    show execStore p data zone s = _
    rw [execStore, storeProblem, readProblem, if_neg hc.1]
    simp only
    rw [if_neg hc.2]
    rfl
  | absa p => rfl

/-- An operation that is not well formed is refused (rule R61). -/
theorem exec_illFormed (i : Instr) (s : State) (e : IllFormed)
    (h : i.illFormed s.config.nMax = some e) : exec i s = .refused (refusalOf e) := by
  cases i with
  | read p count =>
    show execRead p count s = _
    rw [execRead, readProblem]
    simp only [Instr.illFormed] at h
    split at h
    · cases h
    · cases h
      rw [if_pos (by omega)]
  | store p data zone =>
    show execStore p data zone s = _
    rw [execStore, storeProblem, readProblem]
    simp only [Instr.illFormed] at h
    split at h
    · rw [if_neg (by omega)]
      simp only
      split at h
      · cases h
        rw [if_pos ‹_›]
      · cases h
    · cases h
      rw [if_pos (by omega)]
  | absa p => cases h

/-- An operation answers a next state only if it is well formed. -/
theorem wf_of_next {i : Instr} {s t : State} (h : exec i s = .next t) : i.wf s.config.nMax = true := by
  cases hw : i.illFormed s.config.nMax with
  | none => simp [Instr.wf, hw]
  | some e =>
    rw [exec_illFormed i s e hw] at h
    cases h

/-- No violation exists exactly if every check passes (rules R139, R145). -/
theorem violations_eq_zero (i : Intent) (p : Ports) (d : Sdw) :
    violations i p d = 0 ↔ AccessAllowed i p d := by
  have h1 : ∀ (c : Prop) [Decidable c] (x : AcvMask), x ≠ 0 → ((if c then x else 0) = 0 ↔ ¬c) := by
    intro c _ x hx
    split <;> simp_all
  have h2 : ∀ (c : Prop) [Decidable c] (x : AcvMask), x ≠ 0 → ((if c then 0 else x) = 0 ↔ c) := by
    intro c _ x hx
    split <;> simp_all
  have h3 : ∀ x y : AcvMask, x ||| y = 0 ↔ x = 0 ∧ y = 0 := by simp
  simp only [violations, h3]
  rw [h1 _ _ (by decide), h1 _ _ (by decide), h1 _ _ (by decide), h1 _ _ (by decide),
    h1 _ _ (by decide), h2 _ _ (by decide)]
  simp only [AccessAllowed, BitVec.not_lt, Nat.not_lt, not_and]
  grind

/-! The converse direction: under which conditions each of these states results. -/

section
variable (i : Instr) (s : State) (d : Sdw) (m : Memory) (hi : i.wf s.config.nMax = true)
include hi

theorem exec_segmentFault {k : FaultKind} {d : Sdw} {m : Memory} {q : Ptw} {calls : List Call}
    (h : SegmentFault i.intent s i.ports k d m q calls) :
    exec i s = .next (raiseFault k (walked i.intent i.ports s d m q calls)) := by
  rw [exec_wf i s hi, runCycle, stepA_fault h]
  rfl

theorem exec_violation (h : ResolvesSegment i.intent s i.ports d m)
    (hv : violations i.intent i.ports d ≠ 0) :
    exec i s = .next (raiseFault (.acv (violations i.intent i.ports d))
      (atG i.intent i.ports s d m (ptwAfterA s i.ports) (sdwamAfterA s i.ports d)
        (segmentCalls s i.ports d) (violations i.intent i.ports d))) := by
  rw [exec_wf i s hi, runCycle, stepA_resolved _ _ _ d m h, Flow.go_andThen, checkAccess_atB,
    if_neg hv]
  rfl

/-- A cycle whose checks pass goes on with step H or I. -/
theorem exec_formAddress (h : ResolvesSegment i.intent s i.ports d m)
    (hv : AccessAllowed i.intent i.ports d) :
    exec i s = ((formAddress (atHI i.intent i.ports s d m (ptwAfterA s i.ports)
      (sdwamAfterA s i.ports d) (segmentCalls s i.ports d))).andThen
        (stepExit (transferOf i))).outcome := by
  rw [exec_wf i s hi, runCycle, stepA_resolved _ _ _ d m h, Flow.go_andThen, checkAccess_atB,
    if_pos ((violations_eq_zero _ _ _).2 hv), Flow.go_andThen]

theorem exec_absentPage (q : Ptw) (h : ResolvesSegment i.intent s i.ports d m)
    (hv : AccessAllowed i.intent i.ports d) (hu : d.u = false) (hr : ResolvesPage s i.ports d m q)
    (ha : i.intent ≠ .absa) (hq : q.df = false) :
    exec i s = .next (raiseFault (.df q.fc)
      (inI i.intent i.ports s d m q (sdwamAfterA s i.ports d) (ptwamAfterResolve s i.ports d q)
        (segmentCalls s i.ports d ++ resolveCalls s i.ports d q))) := by
  rw [exec_formAddress i s d m hi h hv, formAddress_absent _ _ _ _ _ _ q _ _ hu hr ha hq]
  rfl

theorem exec_probe (q : Ptw) (h : ResolvesSegment i.intent s i.ports d m)
    (hv : AccessAllowed i.intent i.ports d) (hu : d.u = false) (hr : ResolvesPage s i.ports d m q)
    (hq : q.df = true) (hp : Probes i.intent s i.ports)
    (hn : s.populated (nextPtwAt i.ports d) = true)
    (hf : (decodePtw (Memory.read m (nextPtwAt i.ports d))).df = false) :
    exec i s = .next (raiseFault (.df (decodePtw (Memory.read m (nextPtwAt i.ports d))).fc)
      (inI i.intent i.ports s d m q (sdwamAfterA s i.ports d) (ptwamAfterResolve s i.ports d q)
        (segmentCalls s i.ports d ++ resolveCalls s i.ports d q ++
          probeCalls i.intent s i.ports d))) := by
  rw [exec_formAddress i s d m hi h hv, formAddress_probe _ _ _ _ _ _ q _ _ hu hr hq hp hn hf]
  rfl

theorem exec_unpaged (h : ResolvesSegment i.intent s i.ports d m)
    (hv : AccessAllowed i.intent i.ports d) (hu : d.u = true)
    (hw : (unpagedAddr d i.ports.offset).toNat + transferLength i - 1 < memSpace)
    (hp : ∀ k < transferLength i, s.populated ((unpagedAddr d i.ports.offset).toNat + k) = true) :
    exec i s = .next (completed i s d m (ptwAfterA s i.ports) (sdwamAfterA s i.ports d) s.ptwam
      (unpagedAddr d i.ports.offset) (segmentCalls s i.ports d)) := by
  rw [exec_formAddress i s d m hi h hv, formAddress_unpaged _ _ _ _ _ _ _ _ hu, Flow.go_andThen,
    stepExit_ok i s d m _ _ _ _ _ hi hw hp]
  rfl

theorem exec_paged (m' : Memory) (q : Ptw) (f : PhysAddr)
    (h : ResolvesSegment i.intent s i.ports d m) (hv : AccessAllowed i.intent i.ports d)
    (hr : FormsPagedAddress i.intent s i.ports d m q f m')
    (hw : f.toNat + transferLength i - 1 < memSpace)
    (hp : ∀ k < transferLength i, s.populated (f.toNat + k) = true) :
    exec i s = .next (completed i s d m' (ptwAfterMark i.intent q) (sdwamAfterA s i.ports d)
      (ptwamAfterMark i.intent i.ports d q (ptwamAfterResolve s i.ports d q)) f
      (segmentCalls s i.ports d ++ pageCalls i.intent s i.ports d q)) := by
  rw [exec_formAddress i s d m hi h hv, formAddress_paged _ _ _ _ _ m' _ q _ _ f hr, Flow.go_andThen,
    stepExit_ok i s d m' _ _ _ _ _ hi hw hp]
  rfl

/-- A cycle that translates reaches step Exit. -/
theorem exec_translates (f : PhysAddr) (m : Memory) (ht : Translates i.intent s i.ports d f m) :
    ∃ q am pm calls, exec i s =
      (stepExit (transferOf i) (atExit i.intent i.ports s d m q am pm f calls)).outcome := by
  obtain ⟨m₁, h, hv, ⟨hu, rfl, rfl⟩ | ⟨q, hr⟩⟩ := ht
  · refine ⟨ptwAfterA s i.ports, sdwamAfterA s i.ports d, s.ptwam, segmentCalls s i.ports d, ?_⟩
    rw [exec_formAddress i s d _ hi h hv, formAddress_unpaged _ _ _ _ _ _ _ _ hu, Flow.go_andThen]
  · refine ⟨ptwAfterMark i.intent q, sdwamAfterA s i.ports d,
      ptwamAfterMark i.intent i.ports d q (ptwamAfterResolve s i.ports d q),
      segmentCalls s i.ports d ++ pageCalls i.intent s i.ports d q, ?_⟩
    rw [exec_formAddress i s d _ hi h hv, formAddress_paged _ _ _ _ _ m _ q _ _ f hr, Flow.go_andThen]

end

/-- Every way in which a cycle can end: the state it leaves, and why. -/
inductive CycleEnds (i : Instr) (s : State) : State → Prop
  /-- A fault in step A. -/
  | segmentFault (k : FaultKind) (d : Sdw) (m : Memory) (q : Ptw) (calls : List Call)
    (h : SegmentFault i.intent s i.ports k d m q calls) :
    CycleEnds i s (raiseFault k (walked i.intent i.ports s d m q calls))
  /-- The commit of step G (rule R142). -/
  | violation (d : Sdw) (m : Memory) (h : ResolvesSegment i.intent s i.ports d m)
    (hv : violations i.intent i.ports d ≠ 0) :
    CycleEnds i s (raiseFault (.acv (violations i.intent i.ports d))
      (atG i.intent i.ports s d m (ptwAfterA s i.ports) (sdwamAfterA s i.ports d)
        (segmentCalls s i.ports d) (violations i.intent i.ports d)))
  /-- The page is absent (rule R154). -/
  | absentPage (d : Sdw) (m : Memory) (q : Ptw) (h : ResolvesSegment i.intent s i.ports d m)
    (hv : AccessAllowed i.intent i.ports d) (hu : d.u = false) (hr : ResolvesPage s i.ports d m q)
    (hi : i.intent ≠ .absa) (hq : q.df = false) :
    CycleEnds i s (raiseFault (.df q.fc)
      (inI i.intent i.ports s d m q (sdwamAfterA s i.ports d) (ptwamAfterResolve s i.ports d q)
        (segmentCalls s i.ports d ++ resolveCalls s i.ports d q)))
  /-- The following page is absent (rule R155). -/
  | probe (d : Sdw) (m : Memory) (q : Ptw) (h : ResolvesSegment i.intent s i.ports d m)
    (hv : AccessAllowed i.intent i.ports d) (hu : d.u = false) (hr : ResolvesPage s i.ports d m q)
    (hq : q.df = true) (hp : Probes i.intent s i.ports)
    (hn : s.populated (nextPtwAt i.ports d) = true)
    (hf : (decodePtw (Memory.read m (nextPtwAt i.ports d))).df = false) :
    CycleEnds i s (raiseFault (.df (decodePtw (Memory.read m (nextPtwAt i.ports d))).fc)
      (inI i.intent i.ports s d m q (sdwamAfterA s i.ports d) (ptwamAfterResolve s i.ports d q)
        (segmentCalls s i.ports d ++ resolveCalls s i.ports d q ++ probeCalls i.intent s i.ports d)))
  /-- `Ok` in an unpaged segment. -/
  | unpaged (d : Sdw) (m : Memory) (h : ResolvesSegment i.intent s i.ports d m)
    (hv : AccessAllowed i.intent i.ports d) (hu : d.u = true)
    (hw : (unpagedAddr d i.ports.offset).toNat + transferLength i - 1 < memSpace)
    (hp : ∀ k < transferLength i, s.populated ((unpagedAddr d i.ports.offset).toNat + k) = true) :
    CycleEnds i s (completed i s d m (ptwAfterA s i.ports) (sdwamAfterA s i.ports d) s.ptwam
      (unpagedAddr d i.ports.offset) (segmentCalls s i.ports d))
  /-- `Ok` in a paged segment. -/
  | paged (d : Sdw) (m m' : Memory) (q : Ptw) (f : PhysAddr)
    (h : ResolvesSegment i.intent s i.ports d m) (hv : AccessAllowed i.intent i.ports d)
    (hr : FormsPagedAddress i.intent s i.ports d m q f m')
    (hw : f.toNat + transferLength i - 1 < memSpace)
    (hp : ∀ k < transferLength i, s.populated (f.toNat + k) = true) :
    CycleEnds i s (completed i s d m' (ptwAfterMark i.intent q) (sdwamAfterA s i.ports d)
      (ptwamAfterMark i.intent i.ports d q (ptwamAfterResolve s i.ports d q)) f
      (segmentCalls s i.ports d ++ pageCalls i.intent s i.ports d q))

/-- The next state of an operation is one of those in which a cycle can end. -/
theorem cycleEnds_of_next {i : Instr} {s t : State} (h : exec i s = .next t) : CycleEnds i s t := by
  have hi := wf_of_next h
  rw [exec_wf i s hi, runCycle] at h
  rcases stepA_cases i.intent i.ports s with ⟨d, m, hs⟩ | ⟨k, d, m, q, calls, hs⟩ | ⟨-, hs⟩
  · rw [stepA_resolved _ _ _ d m hs, Flow.go_andThen, checkAccess_atB] at h
    by_cases hv : violations i.intent i.ports d = 0
    · have ha := (violations_eq_zero _ _ _).1 hv
      rw [if_pos hv, Flow.go_andThen] at h
      rcases formAddress_cases i.intent i.ports s d m (ptwAfterA s i.ports) (sdwamAfterA s i.ports d)
        (segmentCalls s i.ports d) with
        ⟨hu, hf⟩ | ⟨q, f, m', hr, hf⟩ | ⟨q, hu, hr, hi', hq, hf⟩ | ⟨q, hu, hr, hq, hp, hn, hd, hf⟩ |
        ⟨-, hf⟩
      · rw [hf, Flow.go_andThen] at h
        by_cases hx : (unpagedAddr d i.ports.offset).toNat + transferLength i - 1 < memSpace ∧
            ∀ k < transferLength i, s.populated ((unpagedAddr d i.ports.offset).toNat + k) = true
        · rw [stepExit_ok i s d m _ _ _ _ _ hi hx.1 hx.2] at h
          cases h
          exact .unpaged d m hs ha hu hx.1 hx.2
        · obtain ⟨r, hr⟩ := stepExit_refused i s d m (ptwAfterA s i.ports) (sdwamAfterA s i.ports d)
            s.ptwam _ (segmentCalls s i.ports d) hx
          rw [hr] at h
          cases h
      · rw [hf, Flow.go_andThen] at h
        by_cases hx : f.toNat + transferLength i - 1 < memSpace ∧
            ∀ k < transferLength i, s.populated (f.toNat + k) = true
        · rw [stepExit_ok i s d m' _ _ _ _ _ hi hx.1 hx.2] at h
          cases h
          exact .paged d m m' q f hs ha hr hx.1 hx.2
        · obtain ⟨r, hr'⟩ := stepExit_refused i s d m' (ptwAfterMark i.intent q)
            (sdwamAfterA s i.ports d)
            (ptwamAfterMark i.intent i.ports d q (ptwamAfterResolve s i.ports d q)) f
            (segmentCalls s i.ports d ++ pageCalls i.intent s i.ports d q) hx
          rw [hr'] at h
          cases h
      · rw [hf] at h
        cases h
        exact .absentPage d m q hs ha hu hr hi' hq
      · rw [hf] at h
        cases h
        exact .probe d m q hs ha hu hr hq hp hn hd
      · rw [hf] at h
        cases h
    · rw [if_neg hv] at h
      cases h
      exact .violation d m hs hv
  · rw [stepA_fault hs] at h
    cases h
    exact .segmentFault k d m q calls hs
  · rw [hs] at h
    cases h

end Sys2Proof.Machine
end

