-- ==== Sys2Proof/Laws/Calls.lean ====
section
/-! SUPPORT. Which calls the parts of a cycle make, by kind; and that the conditions of
Sys2Proof/Safety.lean determine what they speak of. -/

namespace Sys2Proof.Machine

/-! ## Kinds of calls -/

theorem segmentCalls_kinds (s : State) (p : Ports) (d : Sdw) :
    ∀ c ∈ segmentCalls s p d, c.isTransfer = false ∧ c.isDoFault = false ∧ c.isAfterCommit = false ∧
      c.isModifyPtw = false := by
  unfold segmentCalls walkCalls loadCalls
  repeat' split
  all_goals simp [Call.isTransfer, Call.isDoFault, Call.isAfterCommit, Call.isModifyPtw]

theorem walkCalls_kinds (s : State) (p : Ports) :
    ∀ c ∈ walkCalls s p, c.isTransfer = false ∧ c.isDoFault = false ∧ c.isAfterCommit = false ∧
      c.isModifyPtw = false := by
  unfold walkCalls
  repeat' split
  all_goals simp [Call.isTransfer, Call.isDoFault, Call.isAfterCommit, Call.isModifyPtw]

theorem resolveCalls_kinds (s : State) (p : Ports) (d : Sdw) (q : Ptw) :
    ∀ c ∈ resolveCalls s p d q, c.isTransfer = false ∧ c.isDoFault = false ∧ c.isWalk = false ∧
      c.isModifyPtw = false := by
  unfold resolveCalls
  repeat' split
  all_goals simp [Call.isTransfer, Call.isDoFault, Call.isWalk, Call.isModifyPtw]

theorem probeCalls_kinds (i : Intent) (s : State) (p : Ports) (d : Sdw) :
    ∀ c ∈ probeCalls i s p d, c.isTransfer = false ∧ c.isDoFault = false ∧ c.isWalk = false ∧
      c.isModifyPtw = false := by
  unfold probeCalls
  repeat' split
  all_goals simp [Call.isTransfer, Call.isDoFault, Call.isWalk, Call.isModifyPtw]

theorem markCalls_kinds (i : Intent) (p : Ports) (d : Sdw) (q : Ptw) :
    ∀ c ∈ markCalls i p d q, c.isTransfer = false ∧ c.isDoFault = false ∧ c.isWalk = false := by
  unfold markCalls
  split <;> simp [Call.isTransfer, Call.isDoFault, Call.isWalk]

theorem transferCalls_kinds (f : PhysAddr) (i : Instr) :
    ∀ c ∈ transferCalls f i, c.isTransfer = true ∧ c.isDoFault = false ∧ c.isWalk = false ∧
      c.isModifyPtw = false := by
  unfold transferCalls
  split <;> simp [Call.isTransfer, Call.isDoFault, Call.isWalk, Call.isModifyPtw]

/-- The calls of step I are none of step A's and no transfer. -/
theorem pageCalls_kinds (i : Intent) (s : State) (p : Ports) (d : Sdw) (q : Ptw) :
    ∀ c ∈ pageCalls i s p d q, c.isTransfer = false ∧ c.isDoFault = false ∧ c.isWalk = false := by
  intro c hc
  simp only [pageCalls, List.mem_append] at hc
  rcases hc with (hc | hc) | hc
  · have := resolveCalls_kinds s p d q c hc
    exact ⟨this.1, this.2.1, this.2.2.1⟩
  · have := probeCalls_kinds i s p d c hc
    exact ⟨this.1, this.2.1, this.2.2.1⟩
  · exact markCalls_kinds i p d q c hc

/-- A cycle that translates and whose run can be transferred completes. -/
theorem exec_completed (i : Instr) (s : State) (d : Sdw) (hi : i.wf s.config.nMax = true) (f : PhysAddr)
    (m : Memory) (ht : Translates i.intent s i.ports d f m)
    (hw : f.toNat + transferLength i - 1 < memSpace)
    (hp : ∀ k < transferLength i, s.populated (f.toNat + k) = true) :
    ∃ q am pm calls, exec i s = .next (completed i s d m q am pm f calls) ∧
      ∀ c ∈ calls, c.isTransfer = false ∧ c.isDoFault = false := by
  have hs : ∀ c ∈ segmentCalls s i.ports d, c.isTransfer = false ∧ c.isDoFault = false := fun c hc =>
    have h := segmentCalls_kinds s i.ports d c hc
    ⟨h.1, h.2.1⟩
  obtain ⟨m₁, h, hv, ⟨hu, rfl, rfl⟩ | ⟨q, hr⟩⟩ := ht
  · exact ⟨_, _, _, _, exec_unpaged i s d _ hi h hv hu hw hp, hs⟩
  · refine ⟨_, _, _, _, exec_paged i s d _ hi m q f h hv hr hw hp, fun c hc => ?_⟩
    rcases List.mem_append.1 hc with hc | hc
    · exact hs c hc
    · have := pageCalls_kinds i.intent s i.ports d q c hc
      exact ⟨this.1, this.2.1⟩

/-! ## What the conditions determine -/

theorem Walks.unique {s : State} {p : Ports} {d d' : Sdw} {m m' : Memory} (h : Walks s p d m)
    (h' : Walks s p d' m') : d = d' ∧ m = m' := by
  obtain ⟨-, -, ⟨hu, rfl, hp, rfl⟩ | ⟨hu, hp, hd, rfl, hq, rfl⟩⟩ := h <;>
  obtain ⟨-, -, ⟨hu', rfl, hp', rfl⟩ | ⟨hu', hp', hd', rfl, hq', rfl⟩⟩ := h' <;> simp_all

theorem ResolvesSegment.unique {i : Intent} {s : State} {p : Ports} {d d' : Sdw} {m m' : Memory}
    (h : ResolvesSegment i s p d m) (h' : ResolvesSegment i s p d' m') : d = d' ∧ m = m' := by
  rcases h with ⟨h, rfl⟩ | ⟨h, -⟩ <;> rcases h' with ⟨h', rfl⟩ | ⟨h', -⟩
  · exact ⟨Option.some.inj (h.2.symm.trans h'.2), rfl⟩
  · exact absurd h'.1 (not_miss_of_hit h)
  · exact absurd h.1 (not_miss_of_hit h')
  · exact h.unique h'

theorem ResolvesPage.unique {s : State} {p : Ports} {d : Sdw} {m : Memory} {q q' : Ptw}
    (h : ResolvesPage s p d m q) (h' : ResolvesPage s p d m q') : q = q' := by
  rcases h with h | h <;> rcases h' with h' | h'
  · exact Option.some.inj (h.2.symm.trans h'.2)
  · exact absurd h'.1 (not_ptwMiss_of_hit h)
  · exact absurd h.1 (not_ptwMiss_of_hit h')
  · rw [h.2.2, h'.2.2]

theorem SegmentFault.not_resolves {i : Intent} {s : State} {p : Ports} {k : FaultKind}
    {d d' : Sdw} {m m' : Memory} {q : Ptw} {calls : List Call}
    (h : SegmentFault i s p k d m q calls)
    (h' : ResolvesSegment i s p d' m') : False := by
  have h1 := stepA_fault h
  rw [stepA_resolved _ _ _ _ _ h'] at h1
  cases h1

/-! ## What step A does to memory -/

/-- A walk leaves memory as it was or sets the used bit of the DSPTW (rules R96, R122). -/
theorem Walks.memory {s : State} {p : Ports} {d : Sdw} {m : Memory} (h : Walks s p d m) :
    m = s.mem ∨
      (SdwMiss s p ∧ s.dsbr.u = false ∧ s.populated (dsptwAt s p) = true ∧ (dsptwOf s p).u = false ∧
        m = Memory.write s.mem (dsptwAt s p) (Memory.read s.mem (dsptwAt s p) ||| 0x200#36)) := by
  obtain ⟨hm, hb, ⟨hu, rfl, hp, rfl⟩ | ⟨hu, hp, hd, rfl, hq, rfl⟩⟩ := h
  · exact .inl rfl
  · unfold memAfterUse
    split
    · exact .inl rfl
    · rename_i hn
      exact .inr ⟨hm, hu, hp, Bool.eq_false_iff.2 hn, rfl⟩

theorem ResolvesSegment.memory {i : Intent} {s : State} {p : Ports} {d : Sdw} {m : Memory}
    (h : ResolvesSegment i s p d m) :
    m = s.mem ∨
      (SdwMiss s p ∧ s.dsbr.u = false ∧ s.populated (dsptwAt s p) = true ∧ (dsptwOf s p).u = false ∧
        m = Memory.write s.mem (dsptwAt s p) (Memory.read s.mem (dsptwAt s p) ||| 0x200#36)) := by
  rcases h with ⟨-, rfl⟩ | ⟨h, -⟩
  · exact .inl rfl
  · exact h.memory

end Sys2Proof.Machine
end

