-- ==== Sys2Proof/Laws/Operands.lean ====
section
/-! SUPPORT. The bits of a word built from fields. -/

namespace Sys2Proof.Machine

/-- A field's bits lie from its lowest bit on. -/
theorem getLsbD_fieldAt {n : Nat} (x : BitVec n) (low k : Nat) :
    (fieldAt x low).getLsbD k = (decide (k < 36) && !decide (k < low) && x.getLsbD (k - low)) := by
  simp only [fieldAt, BitVec.getLsbD_shiftLeft, BitVec.getLsbD_setWidth]
  by_cases h1 : k < 36 <;> by_cases h2 : k < low <;> simp [h1, h2]
  omega

/-- A flag is one bit. -/
theorem getLsbD_flagAt (b : Bool) (low k : Nat) :
    (flagAt b low).getLsbD k = (decide (k < 36) && decide (k = low) && b) := by
  rw [flagAt, getLsbD_fieldAt, BitVec.getLsbD_ofBool]
  by_cases h : k = low <;> by_cases h2 : k < 36 <;> by_cases h3 : k < low <;> simp [h, h2, h3]
  all_goals omega

end Sys2Proof.Machine
end

