-- ==== Sys2Proof/Laws/PerInstr.lean ====
section
/-! SUPPORT. Families of statements over all operations, one lemma per constructor. -/

/-- The `intent` port that the encoder writes is the code of the operation (rules R60, R70), and it is
not the reserved code. -/
def Sys2Proof.Laws.EncodedIntent.Statement (i : Sys2Proof.Instr) : Prop :=
  (Sys2Proof.encode i).intent = i.intent.code ∧ (Sys2Proof.encode i).intent ≠ 0b11#2

theorem Sys2Proof.Laws.EncodedIntent.read (ports : Sys2Proof.Ports) (count : Nat) :
    Sys2Proof.Laws.EncodedIntent.Statement (.read ports count) :=
  ⟨rfl, fun h => absurd (show (0b00#2 : BitVec 2) = 0b11#2 from h) (by decide)⟩

theorem Sys2Proof.Laws.EncodedIntent.store (ports : Sys2Proof.Ports) (data : List Sys2Proof.Word)
    (zone : Option Sys2Proof.Word) : Sys2Proof.Laws.EncodedIntent.Statement (.store ports data zone) :=
  ⟨rfl, fun h => absurd (show (0b01#2 : BitVec 2) = 0b11#2 from h) (by decide)⟩

theorem Sys2Proof.Laws.EncodedIntent.absa (ports : Sys2Proof.Ports) :
    Sys2Proof.Laws.EncodedIntent.Statement (.absa ports) :=
  ⟨rfl, fun h => absurd (show (0b10#2 : BitVec 2) = 0b11#2 from h) (by decide)⟩
end

