-- ==== Sys2Proof/Laws/Step.lean ====
section
/-! SUPPORT. What one step can do, once: `step_next_cases`. -/

namespace Sys2Proof.Machine

variable {s t : State}

theorem step_quiet (h : s.seqStep = .idle) (hi : s.inputs = []) : step s = .next s := by
  simp [step, takeInput, h, hi]

theorem step_outside {a : OutsideAction} {rest : List Input} (h : s.seqStep = .idle)
    (hi : s.inputs = .outside a :: rest) :
    step s = (applyOutside a { s with inputs := rest }).outcome := by
  simp [step, takeInput, h, hi]

theorem step_request {r : Request} {rest : List Input} (h : s.seqStep = .idle)
    (hi : s.inputs = .request r :: rest) :
    step s =
      match decode r with
      | .ok i => exec i { s with inputs := rest }
      | .error e => .refused (refusalOfDecode e) := by
  cases hd : decode r <;> simp [step, takeInput, h, hi, hd]

theorem step_inFlight (h : s.seqStep ≠ .idle) : step s = .fault .cycleInFlight := by
  obtain ⟨_, _, _, _, _, _, _, _, _, _, _, _, seqStep⟩ := s
  cases seqStep <;> first | exact absurd rfl h | rfl

/-- Every way in which a step can answer a next state. -/
theorem step_next_cases (ht : step s = .next t) :
    s.seqStep = .idle ∧
      ((s.inputs = [] ∧ t = s) ∨
        (∃ r rest i, s.inputs = .request r :: rest ∧ decode r = .ok i ∧
          exec i { s with inputs := rest } = .next t) ∨
        ∃ a rest, s.inputs = .outside a :: rest ∧
          applyOutside a { s with inputs := rest } = .go t) := by
  by_cases h : s.seqStep = .idle
  swap
  · rw [step_inFlight h] at ht; cases ht
  refine ⟨h, ?_⟩
  rcases hi : s.inputs with _ | ⟨r | a, rest⟩
  · rw [step_quiet h hi] at ht
    cases ht
    exact .inl ⟨rfl, rfl⟩
  · rw [step_request h hi] at ht
    cases hd : decode r with
    | ok i => rw [hd] at ht; exact .inr (.inl ⟨r, rest, i, rfl, hd, ht⟩)
    | error e => rw [hd] at ht; cases ht
  · rw [step_outside h hi] at ht
    refine .inr (.inr ⟨a, rest, rfl, ?_⟩)
    rcases (Flow.outcome_eq_next _ _).1 ht with hg | hg
    · exact hg
    · cases a <;> first | cases hg | skip
      rw [applyOutside, ofAccess_memWrite] at hg
      split at hg <;> cases hg

/-- No operation ends in a fault of the model's own. -/
theorem exec_ne_fault (i : Instr) (s : State) (f : Fault) : exec i s ≠ .fault f := by
  cases hw : i.illFormed s.config.nMax with
  | none =>
    rw [exec_wf i s (by simp [Instr.wf, hw])]
    exact Flow.outcome_ne_fault _ _
  | some e => rw [exec_illFormed i s e hw]; simp

/-- Nor does a step of an idle block. -/
theorem step_ne_fault (h : s.seqStep = .idle) (f : Fault) : step s ≠ .fault f := by
  rcases hi : s.inputs with _ | ⟨r | a, rest⟩
  · rw [step_quiet h hi]; simp
  · rw [step_request h hi]
    split
    · exact exec_ne_fault _ _ f
    · simp
  · rw [step_outside h hi]; exact Flow.outcome_ne_fault _ _

end Sys2Proof.Machine
end

