-- ==== Sys2Proof/Tests/Slice0.lean ====
section
/-! SUPPORT. The model's own tests: expected results are those of spec/95_test_vectors.md (named at each
test) or are worked out by hand from the rule named; and for each statement with hypotheses a witness
that meets them together. -/

namespace Sys2Proof.Tests

open Sys2Proof.Machine

/-! ## Helpers -/

/-- Memory of Image X (95_test_vectors.md section 0). -/
def imageX : Memory :=
  [(0o2000, 0o000100000004), (0o3000, 0o000200000004), (0o3001, 0o000220000004), (0o3002, 1),
    (0o3400, 0o000300000003), (0o3401, 0o000320000004), (0o10002, 0o000300000004),
    (0o10003, 0o000776200000)] ++
  [(0o10006, 0o000030002464), (0o10007, 0o001775000000), (0o10010, 0o000500070004),
    (0o10011, 0o000014200000), (0o10012, 0o000700007772), (0o10013, 0o377775200000),
    (0o10014, 0o000600005314), (0o10015, 0o000000200000), (0o10016, 0o000034000774),
    (0o10017, 0o377775000000), (0o22001, 0o111111111111)]

/-- Image X. -/
def stateX : State := { State.reset with dsbr := ⟨0o2000, 7, false, 0⟩, mem := imageX }

/-- The unpaged descriptor segment of vector A11. -/
def stateU : State := { stateX with dsbr := ⟨0o10000, 0, true, 0⟩ }

/-- The ports of `segno|offset ring psr prr`, everything else 0. -/
def ports (segno offset ring psr prr : Nat) : Ports :=
  { Ports.zero with
    segno := .ofNat _ segno, offset := .ofNat _ offset, ring := .ofNat _ ring, psr := .ofNat _ psr,
    prr := .ofNat _ prr }

/-- The next state of an outcome, or reset. -/
def after (o : Host.Outcome State Fault Refusal) : State :=
  match o with
  | .next s => s
  | _ => State.reset

/-- Whether an outcome is a next state. -/
def isNext (o : Host.Outcome State Fault Refusal) : Bool :=
  match o with
  | .next _ => true
  | _ => false

theorem next_after {o : Host.Outcome State Fault Refusal} (h : isNext o = true) :
    o = .next (after o) := by
  cases o <;> first | rfl | cases h

/-- The refusal of an outcome. -/
def refusalIn (o : Host.Outcome State Fault Refusal) : Option Refusal :=
  match o with
  | .refused r => some r
  | _ => none

/-- The latest response after an operation. -/
def responseOf (i : Instr) (s : State) : Option Response := (after (exec i s)).response

theorem test_imageX_is_canonical : Memory.wf imageX = true := by decide

/-! ## WellFormed: an ill-formed operation for each check (rule R61) -/

theorem test_wf_read_without_words : Instr.illFormed 4 (.read Ports.zero 0) = some .badCount := by
  decide

theorem test_wf_read_above_nMax : Instr.illFormed 4 (.read Ports.zero 5) = some .badCount := by decide

theorem test_wf_store_without_words :
    Instr.illFormed 4 (.store Ports.zero [] none) = some .badCount := by decide

theorem test_wf_store_above_nMax :
    Instr.illFormed 1 (.store Ports.zero [1, 2] none) = some .badCount := by decide

theorem test_wf_zone_of_two_words :
    Instr.illFormed 4 (.store Ports.zero [1, 2] (some 1)) = some .zoneCount := by decide

theorem test_wf_accepts_the_bounds :
    Instr.wf 4 (.read Ports.zero 1) = true ∧ Instr.wf 4 (.read Ports.zero 4) = true ∧
      Instr.wf 4 (.store Ports.zero [1] (some 1)) = true ∧ Instr.wf 0 (.absa Ports.zero) = true := by
  decide

/-! ## Decoding: port bundles and words written out (rules R60, R64, R65; section 0 of the vectors) -/

/-- `READ 3|2001 ring=4 psr=1 prr=4 n=2`. -/
theorem test_decode_read :
    decode
      { intent := 0b00#2,
        ports :=
          { segno := 3#15, offset := 1025#18, ring := 4#3, psr := 1#15, prr := 4#3, opcode := 0#9,
            opcodeX := false, indirect := false, bit29 := false },
        count := 2, data := [], zoneMode := false, zone := 0#36 } =
      .ok (.read (ports 3 0o2001 4 1 4) 2) := by decide

/-- The line `STORE 3|2001 ring=2 psr=1 prr=2 data=123456701234`. -/
theorem test_decode_store :
    decode
      { intent := 0b01#2,
        ports :=
          { segno := 3#15, offset := 0o2001#18, ring := 2#3, psr := 1#15, prr := 2#3, opcode := 0#9,
            opcodeX := false, indirect := false, bit29 := false },
        count := 1, data := [0o123456701234#36], zoneMode := false, zone := 0#36 } =
      .ok (.store (ports 3 0o2001 2 1 2) [0o123456701234#36] none) := by decide

/-- `ABSA 77777|777777 ring=7 psr=77777 prr=7`: every port at its largest value. -/
theorem test_decode_absa :
    decode
      { intent := 0b10#2,
        ports :=
          { segno := 32767#15, offset := 262143#18, ring := 7#3, psr := 32767#15, prr := 7#3,
            opcode := 511#9, opcodeX := true, indirect := true, bit29 := true },
        count := 0, data := [], zoneMode := false, zone := 0#36 } =
      .ok (.absa ⟨0o77777, 0o777777, 7, 0o77777, 7, 0o777, true, true, true⟩) := by decide

/-- A data port of another length than `count` is refused (rule R61; log entry 5). -/
theorem test_decode_data_count :
    decode ⟨0b01#2, Ports.zero, 2, [5], false, 0⟩ = .error .dataCount := by decide

/-- The rows of spec/opcode_table.json, and the code that is none. -/
theorem test_table_words :
    decodeTableWord 8 0 = some (.read Ports.zero 1) ∧
      decodeTableWord 8 1 = some (.store Ports.zero [0] none) ∧
      decodeTableWord 8 2 = some (.absa Ports.zero) ∧ decodeTableWord 8 3 = none := by decide

/-- From reset, where every word reads as 0, the first request meets an absent DSPTW with code 0
(rules R65, R122). -/
theorem test_fetch_word_runs :
    (after (step (State.reset.withFetchWord 8 0))).response = some (.faultDf 0 0) ∧
      (after (step (State.reset.withFetchWord 8 1))).lastCycle = some .store ∧
      (after (step (State.reset.withFetchWord 8 2))).lastCycle = some .absa ∧
      refusalIn (step (State.reset.withFetchWord 8 3)) = some .unknownIntent := by decide

/-- SDW 4 and SDW 5 of Image X, and the all-zero SDW. -/
theorem test_decode_sdw :
    decodeSdw 0o000500070004 0o000014200000 =
        { Sdw.zero with
          addr := 0o50007, df := true, bound := 1, r := true, u := true, pointer := 0o50007 } ∧
      decodeSdw 0o000700007772 0o377775200000 =
        { Sdw.zero with
          addr := 0o70000, r1 := 7, r2 := 7, r3 := 7, fc := 2, bound := 0o37777, r := true, w := true,
          u := true, pointer := 0o70000 } ∧
      decodeSdw 0 0 = Sdw.zero := by decide

/-- PTWs of section 0. -/
theorem test_decode_ptw :
    decodePtw 0o000100001004 = { Ptw.zero with addr := 0o100, u := true, df := true } ∧
      decodePtw 0o000300000003 = { Ptw.zero with addr := 0o300, fc := 3 } ∧
      decodePtw 0o600220000004 = { Ptw.zero with addr := 0x30090, df := true } := by decide

/-- Section 5: FANP wraps at 2^24; section 7: the two frame masks. -/
theorem test_final_addresses :
    unpagedAddr { Sdw.zero with addr := 0o77777777 } 0o777777 = 0o777757 ∧
      unpagedAddr { Sdw.zero with addr := 0o50007 } 0o37 = 0o50037 ∧
      pagedAddr 0xFFF0 (decodePtw 0o600220000004) 0o2001 = 0o22001 ∧
      pagedAddr 0x3FFF0 (decodePtw 0o600220000004) 0o2001 = 0o60022001 := by decide

/-! ## The operations: one step each -/

/-- Section 6, first row. -/
theorem test_read_delivers :
    responseOf (.read (ports 3 0o2001 4 1 4) 1) stateX =
      some (.ok 0o22001 [0o111111111111] 4) := by decide

/-- Section 4: all four bits that a READ can carry, `trr` = 7, and left in `acvFaults` (rule R174);
vector A10: the fetchers' own fault, not in `acvFaults` (rule R89). -/
theorem test_read_violates :
    responseOf (.read (ports 6 0o20 7 1 7) 1) stateX = some (.faultAcv 0x9801 7) ∧
      (after (exec (.read (ports 6 0o20 7 1 7) 1) stateX)).acvFaults = 0x9801 ∧
      responseOf (.read (ports 0o100 0 0 1 0) 1) stateX = some (.faultAcv 0x0001 0) ∧
      (after (exec (.read (ports 0o100 0 0 1 0) 1) stateX)).acvFaults = 0 := by decide

/-- Section 6: a zone write merges, and marks the page. -/
theorem test_store_zone :
    let t := after (exec (.store (ports 3 0o2001 2 1 2) [0o777777777777] (some 0o000777000000)) stateX)
    t.response = some (.ok 0o22001 [] 2) ∧ Memory.read t.mem 0o22001 = 0o111777111111 ∧
      Memory.read t.mem 0o3001 = 0o000220000104 := by decide

/-- Section 6: a run past the page goes to the next physical word. -/
theorem test_store_run :
    let t := after (exec (.store (ports 3 0o3777 2 1 2) [5, 6] none) stateX)
    t.response = some (.ok 0o23777 [] 2) ∧ Memory.read t.mem 0o23777 = 5 ∧
      Memory.read t.mem 0o24000 = 6 := by decide

/-- Vector A7: through an invalid SDW, which is not installed. -/
theorem test_absa_invalid_sdw :
    let t := after (exec (.absa (ports 5 5 0 1 0)) stateX)
    t.response = some (.ok 0o70005 [] 0) ∧ t.sdwam = [] ∧
      Memory.read t.mem 0o2000 = 0o000100001004 := by decide

/-- Section 5: through an absent page, which is not installed. -/
theorem test_absa_absent_page :
    let t := after (exec (.absa (ports 7 0o1777 0 1 0)) stateX)
    t.response = some (.ok 0o31777 [] 0) ∧ t.ptwam = [] := by decide

/-! ## Witnesses: concrete cases that meet the hypotheses of a statement together -/

/-- `READ 3|2001` on Image X: `Ok`. -/
abbrev readX : Instr := .read (ports 3 0o2001 4 1 4) 1

/-- `STORE 3|2001` on Image X: `Ok`, and the page is marked. -/
abbrev storeX : Instr := .store (ports 3 0o2001 2 1 2) [0o123456701234] none

/-- `ABSA 5|5` on Image X: `Ok` through an invalid SDW. -/
abbrev absaX : Instr := .absa (ports 5 5 0 1 0)

/-- The SDW of segment 3 of Image X. -/
abbrev sdw3 : Sdw := decodeSdw 0o000030002464 0o001775000000

/-- The PTW of page 1 of segment 3 of Image X. -/
abbrev ptw31 : Ptw := decodePtw 0o000220000004

/-- The memory of Image X with its DSPTW marked used. -/
abbrev memUsed : Memory := Memory.write imageX 0o2000 0o000100001004

theorem readX_next : isNext (exec readX stateX) = true := by decide

theorem storeX_next : isNext (exec storeX stateX) = true := by decide

theorem absaX_next : isNext (exec absaX stateX) = true := by decide

theorem witness_DecodeOfEncodeIsTheOperation :
    decode ⟨0b01#2, Ports.zero, 1, [5], true, 7⟩ = .ok (.store Ports.zero [5] (some 7)) := by decide

theorem witness_DescriptorWordsRoundTrip : sdw3.pointer = sdw3.addr := by decide

theorem witness_ReservedIntentIsRefused :
    let s := State.reset.withFetchWord 8 3
    s.seqStep = .idle ∧ s.inputs = .request (Request.ofTableWord 3) :: [] ∧
      (Request.ofTableWord 3).intent = 0b11#2 := by decide

theorem witness_StepRunsTheDecodedRequest :
    let s := State.reset.withFetchWord 8 2
    s.seqStep = .idle ∧ s.inputs = .request (Request.ofTableWord 2) :: [] ∧
      decode (Request.ofTableWord 2) = .ok (.absa Ports.zero) := by decide

theorem witness_StepWithoutRequest :
    (State.reset.seqStep = .idle ∧ State.reset.inputs = []) ∧
      ({ State.reset with seqStep := .i }).seqStep ≠ .idle := by decide

theorem witness_OutsideActionsChangeOneThing (a : OutsideAction) :
    ∃ s : State, s.seqStep = .idle ∧ s.inputs = .outside a :: [] :=
  ⟨{ State.reset with inputs := [.outside a] }, rfl, rfl⟩

theorem witness_OutsideActionsChangeOneThing_writeWord :
    let s := { State.reset with config := { Config.default with memWords := 0o100 } }
    s.populated (0o77#24).toNat = true ∧ s.populated (0o100#24).toNat = false ∧
      State.reset.populated (0o77777777#24).toNat = true := by decide

theorem witness_RunsFromIdleMeetNoFault : (State.reset.withFetchWord 8 0).seqStep = .idle := by decide

theorem witness_EveryStepKeepsInvariant :
    State.Inv { stateX with inputs := [.request (encode storeX)] } ∧
      ∃ t, step { stateX with inputs := [.request (encode storeX)] } = .next t :=
  ⟨⟨by decide, by decide, by decide, by decide⟩, _, next_after (by decide)⟩

theorem witness_CachedDescriptorsStayValid :
    let s : State :=
      { stateX with sdwam := [(3, sdw3)], inputs := [.request (encode readX)] }
    s.amValid = true ∧ ∃ t, step s = .next t :=
  ⟨by decide, _, next_after (by decide)⟩

/-- The three kinds of ends: `Ok` (of each operation), an access violation in step A and one in step G,
a directed fault in step A and one in step I. -/
theorem witness_EveryCycleEndsInAStepTheRulesGive :
    (∃ t, exec readX stateX = .next t) ∧ (∃ t, exec storeX stateX = .next t) ∧
      (∃ t, exec absaX stateX = .next t) ∧
      (after (exec (.read (ports 0o100 0 0 1 0) 1) stateX)).path = [.a, .fault, .idle] ∧
      responseOf (.read (ports 0o100 0 0 1 0) 1) stateX = some (.faultAcv 1 0) ∧
      responseOf (.read (ports 3 0o4000 4 1 4) 1) stateX = some (.faultAcv 1 4) ∧
      responseOf (.read (ports 5 0 0 1 0) 1) stateX = some (.faultDf 2 0) ∧
      (after (exec (.read (ports 7 0 0 1 0) 1) stateX)).path = [.a, .b, .g, .i, .fault, .idle] :=
  ⟨⟨_, next_after readX_next⟩, ⟨_, next_after storeX_next⟩, ⟨_, next_after absaX_next⟩, by decide,
    by decide, by decide, by decide, by decide⟩

theorem witness_AtMostElevenCalls : ∃ t, exec storeX stateX = .next t :=
  ⟨_, next_after storeX_next⟩

theorem witness_TransferCallsMatchTheOutcome :
    (∃ t, exec readX stateX = .next t ∧ t.response = some (.ok 0o22001 [0o111111111111] 4)) ∧
      ∃ t, exec (.read (ports 5 0 0 1 0) 1) stateX = .next t ∧
        t.response.any Response.isOk = false :=
  ⟨⟨_, next_after readX_next, by decide⟩, _, next_after (by decide), by decide⟩

/-- Both kinds of intent; a mask from step G, one from step A, and no mask. -/
theorem witness_MaskHoldsOnlyBitsOfTheIntent :
    (∃ t, exec (.read (ports 6 0o20 7 1 7) 1) stateX = .next t ∧
        t.response = some (.faultAcv 0x9801 7)) ∧
      (∃ t, exec (.store (ports 6 0o20 7 1 7) [0] none) stateX = .next t ∧
        t.response = some (.faultAcv 0x8601 7)) ∧
      (∃ t, exec (.absa (ports 0o100 0 0 1 0)) stateX = .next t ∧ t.response = some (.faultAcv 1 0)) ∧
      ∃ t, exec absaX stateX = .next t ∧ t.response = some (.ok 0o70005 [] 0) :=
  ⟨⟨_, next_after (by decide), by decide⟩, ⟨_, next_after (by decide), by decide⟩,
    ⟨_, next_after (by decide), by decide⟩, _, next_after absaX_next, by decide⟩

/-- A completed cycle; a faulting one; and one whose calls write neither holding register. -/
theorem witness_RequestIsLatchedAndRegistersKept :
    (∃ t, exec readX stateX = .next t) ∧
      (∃ t, exec (.read (ports 5 0 0 1 0) 1) stateX = .next t ∧
        t.response.any Response.isOk = false) ∧
      ∃ t, exec (.read (ports 0o100 0 0 1 0) 1) stateX = .next t ∧
        (∀ c ∈ t.trace, c.mayWriteSdw = false) :=
  ⟨⟨_, next_after readX_next⟩, ⟨_, next_after (by decide), by decide⟩, _, next_after (by decide),
    by decide⟩

/-- A READ, a faulting STORE, and for a STORE that completes an address of each kind. -/
theorem witness_CycleMemoryFrame :
    (∃ t, exec readX stateX = .next t ∧ readX.intent ≠ .store) ∧
      (∃ t, exec (.store (ports 5 0 0 1 0) [1] none) stateX = .next t ∧
        t.response.any Response.isOk = false) ∧
      ∃ t, exec storeX stateX = .next t ∧ 0o22000 ≠ dsptwAt stateX storeX.ports ∧
        t.sdw.u = false ∧ 0o22000 ≠ ptwAt storeX.ports t.sdw ∧ 0o22000 < t.finalAddr.toNat ∧
        t.finalAddr.toNat + 1 ≤ 0o22002 :=
  ⟨⟨_, next_after readX_next, by decide⟩, ⟨_, next_after (by decide), by decide⟩, _,
    next_after storeX_next, by decide, by decide, by decide, by decide, by decide⟩

/-- A bypassed cycle, and one that hits. -/
theorem witness_CycleAssociativeMemoryFrame :
    (Bypassed { stateX with amEnable := false } readX.ports ∧
        ∃ t, exec readX { stateX with amEnable := false } = .next t) ∧
      SdwHit { stateX with sdwam := [(3, sdw3)] } readX.ports sdw3 ∧
        ∃ t, exec readX { stateX with sdwam := [(3, sdw3)] } = .next t :=
  ⟨⟨by decide, _, next_after (by decide)⟩, by decide, _, next_after (by decide)⟩

theorem witness_HitUsesTheCachedRecord :
    SdwHit { stateX with sdwam := [(3, sdw3)] } readX.ports sdw3 ∧
      ∃ t, exec readX { stateX with sdwam := [(3, sdw3)] } = .next t :=
  ⟨by decide, _, next_after (by decide)⟩

/-- A paged and an unpaged descriptor segment. -/
theorem witness_WalkMakesItsCallsInOrder :
    (SdwMiss stateX readX.ports ∧ WithinDsBound stateX readX.ports ∧
        (∃ t, exec readX stateX = .next t) ∧ stateX.dsbr.u = false ∧
        (dsptwOf stateX readX.ports).df = true) ∧
      SdwMiss stateU (ports 4 0 0 1 0) ∧ WithinDsBound stateU (ports 4 0 0 1 0) ∧
        (∃ t, exec (.read (ports 4 0 0 1 0) 1) stateU = .next t) ∧ stateU.dsbr.u = true :=
  ⟨⟨by decide, by decide, ⟨_, next_after readX_next⟩, by decide, by decide⟩, by decide, by decide,
    ⟨_, next_after (by decide)⟩, by decide⟩

/-- Vector A5: an ABSA; the segment number is the last within the bound. -/
theorem witness_AbsentDsptwFaults :
    let s := { stateX with mem := Memory.write imageX 0o2000 0o000100000002 }
    let i : Instr := .absa (ports 0o77 0 4 1 4)
    i.wf s.config.nMax = true ∧ SdwMiss s i.ports ∧ WithinDsBound s i.ports ∧ s.dsbr.u = false ∧
      s.populated (dsptwAt s i.ports) = true ∧ (dsptwOf s i.ports).df = false := by decide

/-- Vector A6. -/
theorem witness_InvalidSdwFaults :
    let i : Instr := .read (ports 5 0 0 1 0) 1
    let d := decodeSdw 0o000700007772 0o377775200000
    i.wf stateX.config.nMax = true ∧ i.intent ≠ .absa ∧ Walks stateX i.ports d memUsed ∧
      d.df = false := by decide

/-- Vector A10: 2 * 64 = 128 is the first number beyond. -/
theorem witness_SegmentBeyondDsBoundFaults :
    let i : Instr := .read (ports 0o100 0 0 1 0) 1
    i.wf stateX.config.nMax = true ∧ SdwMiss stateX i.ports ∧ stateX.config.dsbrBndCheck = true ∧
      2 * i.ports.segno.toNat ≥ 16 * (stateX.dsbr.bnd.toNat + 1) := by decide

/-- Step A: `MEM_WORDS` ends before the DSPTW, and between the two words of a pair of either kind. -/
theorem witness_UnpopulatedDescriptorIsRefused :
    let s := { stateX with config := { Config.default with memWords := 0o2000 } }
    let v := { stateX with config := { Config.default with memWords := 0o10007 } }
    let u := { stateU with config := { Config.default with memWords := 0o10007 } }
    let i : Instr := .read (ports 3 0 0 1 0) 1
    (i.wf s.config.nMax = true ∧ SdwMiss s i.ports ∧ WithinDsBound s i.ports ∧ s.dsbr.u = false ∧
        s.populated (dsptwAt s i.ports) = false) ∧
      (i.wf v.config.nMax = true ∧ SdwMiss v i.ports ∧ WithinDsBound v i.ports ∧ v.dsbr.u = false ∧
        v.populated (dsptwAt v i.ports) = true ∧ (dsptwOf v i.ports).df = true ∧
        ¬PairPopulated v (psdwAddr v.config.frameMask (dsptwOf v i.ports) i.ports.segno)) ∧
      i.wf u.config.nMax = true ∧ SdwMiss u i.ports ∧ WithinDsBound u i.ports ∧ u.dsbr.u = true ∧
        ¬PairPopulated u (nsdwAddr u.dsbr i.ports.segno) := by decide

/-- Step I, with SDW 3 cached: `MEM_WORDS` ends before the PTW of the page, before the following PTW,
and, with the PTW cached too, before the PTW that a STORE is to mark. -/
theorem witness_UnpopulatedDescriptorIsRefused_stepI :
    let hit := { stateX with sdwam := [(3, sdw3)] }
    let s := { hit with config := { Config.default with memWords := 0o3001 } }
    let v := { hit with
      config := { Config.default with memWords := 0o3002, uninterruptible := [(0o100, true)] } }
    let w := { s with ptwam := [((0o3000, 1), ptw31)] }
    let probe : Instr := .read { readX.ports with opcode := 0o100, opcodeX := true } 1
    (readX.wf s.config.nMax = true ∧ ResolvesSegment .read s readX.ports sdw3 imageX ∧
        AccessAllowed .read readX.ports sdw3 ∧ sdw3.u = false ∧ PtwMiss s readX.ports sdw3 ∧
        s.populated (ptwAt readX.ports sdw3) = false) ∧
      (probe.wf v.config.nMax = true ∧ ResolvesSegment .read v probe.ports sdw3 imageX ∧
        AccessAllowed .read probe.ports sdw3 ∧ ResolvesPage v probe.ports sdw3 imageX ptw31 ∧
        ptw31.df = true ∧ Uninterruptible v probe.ports ∧
        v.populated (nextPtwAt probe.ports sdw3) = false) ∧
      storeX.wf w.config.nMax = true ∧ ResolvesSegment .store w storeX.ports sdw3 imageX ∧
        AccessAllowed .store storeX.ports sdw3 ∧ ResolvesPage w storeX.ports sdw3 imageX ptw31 ∧
        ProbePasses .store w storeX.ports sdw3 imageX ∧ ptw31.m = false ∧
        w.populated (ptwAt storeX.ports sdw3) = false :=
  ⟨⟨by decide, by decide, by decide, by decide, by decide, by decide⟩,
    ⟨by decide, by decide, by decide, by decide, by decide, by decide, by decide⟩, by decide, by decide,
    by decide, by decide, by decide, by decide, by decide⟩

/-- A valid descriptor, installed; and an invalid one. -/
theorem witness_FetchedDescriptorIsInstalled :
    (Walks stateX readX.ports sdw3 memUsed ∧ (∃ t, exec readX stateX = .next t) ∧ sdw3.df = true ∧
        ¬Bypassed stateX readX.ports ∧ 0 < stateX.config.amSizeSdw) ∧
      Walks stateX absaX.ports (decodeSdw 0o000700007772 0o377775200000) memUsed ∧
        (∃ t, exec absaX stateX = .next t) ∧
        (decodeSdw 0o000700007772 0o377775200000).df = false :=
  ⟨⟨by decide, ⟨_, next_after readX_next⟩, by decide, by decide, by decide⟩, by decide,
    ⟨_, next_after absaX_next⟩, by decide⟩

theorem witness_ModifyDsptwSetsTheUsedBit :
    stateX.populated (dsptwAddr stateX.dsbr stateX.tsr).toNat = true := by decide

theorem witness_ModifyPtwSetsTheModifiedBit :
    ({ stateX with sdw := sdw3, ca := 0o2001 }).populated (ptwAddr sdw3 0o2001).toNat = true := by decide

theorem witness_RingChecksClosedForm :
    ({ stateX with intent := .store }).acvFaults = 0 ∧ ({ stateX with intent := .absa }).acvFaults = 0 := by
  decide

theorem witness_CommitRaisesTheExactMask :
    let i : Instr := .store (ports 6 0o20 7 1 7) [0] none
    let d := decodeSdw 0o000600005314 0o000000200000
    i.wf stateX.config.nMax = true ∧ ResolvesSegment i.intent stateX i.ports d memUsed ∧
      violations i.intent i.ports d ≠ 0 ∧ d.df = true ∧ ¬Bypassed stateX i.ports ∧
      0 < stateX.config.amSizeSdw := by decide

theorem witness_BoundCountsSixteenWordUnits :
    ({ Sdw.zero with bound := 0x3FFF }).bound = 0x3FFF#14 := by decide

theorem witness_PagedAddressIsFrameAndWord : (0xFFF0#18 : Frame) &&& 0xF#18 = 0 := by decide

theorem witness_AbsentPageFaults :
    let i : Instr := .store (ports 7 0 0 1 0) [1] none
    let d := decodeSdw 0o000034000774 0o377775000000
    let q := decodePtw 0o000300000003
    i.wf stateX.config.nMax = true ∧ i.intent ≠ .absa ∧
      ResolvesSegment i.intent stateX i.ports d memUsed ∧ AccessAllowed i.intent i.ports d ∧
      d.u = false ∧ ResolvesPage stateX i.ports d memUsed q ∧ q.df = false :=
  ⟨by decide, by decide, by decide, by decide, by decide, by decide, by decide⟩

/-- Program P5: page 1 of segment 3 is present, the word after its page table is not. -/
theorem witness_SecondProbeFaults :
    let s := { stateX with config := { Config.default with uninterruptible := [(0o100, true)] } }
    let p := { ports 3 0o3777 4 1 4 with opcode := 0o100, opcodeX := true }
    let i : Instr := .read p 1
    (i.wf s.config.nMax = true ∧ i.intent ≠ .absa ∧ Uninterruptible s p ∧
        ResolvesSegment i.intent s p sdw3 memUsed ∧ AccessAllowed i.intent p sdw3) ∧
      sdw3.u = false ∧ ResolvesPage s p sdw3 memUsed ptw31 ∧ ptw31.df = true ∧
      s.populated (nextPtwAt p sdw3) = true ∧
      (decodePtw (Memory.read memUsed (nextPtwAt p sdw3))).df = false ∧ ¬Bypassed s p ∧
      0 < s.config.amSizePtw :=
  ⟨⟨by decide, by decide, by decide, by decide, by decide⟩, by decide, by decide, by decide, by decide,
    by decide, by decide, by decide⟩

/-- A STORE that marks its page, and an operation that is no STORE. -/
theorem witness_StoreMarksThePageOnce :
    (ResolvesSegment .store stateX storeX.ports sdw3 memUsed ∧ AccessAllowed .store storeX.ports sdw3 ∧
        FormsPagedAddress .store stateX storeX.ports sdw3 memUsed ptw31 0o22001
          (Memory.write memUsed 0o3001 0o000220000104) ∧
        (∃ t, exec storeX stateX = .next t) ∧ ¬Bypassed stateX storeX.ports ∧
        0 < stateX.config.amSizePtw) ∧
      absaX.intent ≠ .store ∧ ∃ t, exec absaX stateX = .next t :=
  ⟨⟨by decide, by decide, by decide, ⟨_, next_after storeX_next⟩, by decide, by decide⟩, by decide, _,
    next_after absaX_next⟩

/-- Segment 3 is paged: the run ends at the last word that exists. -/
theorem witness_ReadCompletes :
    let s := { stateX with config := { Config.default with memWords := 0o22002 } }
    1 ≤ 1 ∧ 1 ≤ s.config.nMax ∧ Translates .read s readX.ports sdw3 0o22001 memUsed ∧
      RunFits s 0o22001 1 :=
  ⟨by decide, by decide, ⟨memUsed, by decide, by decide, .inr ⟨ptw31, by decide⟩⟩, by decide, by decide⟩

/-- The same for a STORE of the largest count admitted. -/
theorem witness_StoreCompletes :
    let s := { stateX with config := { Config.default with nMax := 2 } }
    1 ≤ [5, 6].length ∧ [5, 6].length ≤ s.config.nMax ∧
      Translates .store s storeX.ports sdw3 0o22001 (Memory.write memUsed 0o3001 0o000220000104) ∧
      RunFits s 0o22001 2 :=
  ⟨by decide, by decide, ⟨memUsed, by decide, by decide, .inr ⟨ptw31, by decide⟩⟩, by decide, by decide⟩

theorem witness_ZoneStoreCompletes :
    1 ≤ stateX.config.nMax ∧
      Translates .store stateX storeX.ports sdw3 0o22001
        (Memory.write memUsed 0o3001 0o000220000104) ∧
      RunFits stateX 0o22001 1 :=
  ⟨by decide, ⟨memUsed, by decide, by decide, .inr ⟨ptw31, by decide⟩⟩, by decide, by decide⟩

/-- Through an invalid SDW, in an unpaged segment. -/
theorem witness_AbsaCompletes :
    Translates .absa stateX absaX.ports (decodeSdw 0o000700007772 0o377775200000) 0o70005 memUsed :=
  ⟨memUsed, by decide, by decide, .inl (by decide)⟩

theorem witness_EveryWellFormedRequestIsAnswered :
    storeX.wf stateX.config.nMax = true ∧ memSpace ≤ stateX.config.memWords := by decide

/-- Each bound of each clause; in the second clause also a zone write, of no word and of three, which
rule R61 rejects under both names (log entry 14). -/
theorem witness_IllFormedRequestsAreRefused :
    let s := { stateX with config := { Config.default with nMax := 2 } }
    (0 = 0 ∨ s.config.nMax < 0) ∧ (3 = 0 ∨ s.config.nMax < 3) ∧
      (([] : List Word).length = 0) ∧ (s.config.nMax < ([1, 2, 3] : List Word).length) ∧
      1 ≤ ([1, 2] : List Word).length ∧ ([1, 2] : List Word).length ≤ s.config.nMax ∧
      ([1, 2] : List Word).length ≠ 1 ∧
      refusalIn (exec (.store Ports.zero [] (some 7)) s) = some .badCount ∧
      refusalIn (exec (.store Ports.zero [1, 2, 3] (some 7)) s) = some .badCount := by decide

/-- Section 5: SDW 0o11 reaches the last word of the address space; a run of two does not fit. -/
theorem witness_WrappingTransferIsRefused :
    let d := decodeSdw 0o777777770004 0o377775200000
    let s := { stateX with sdwam := [(0o11, d)] }
    let p := ports 0o11 0o17 0 1 0
    1 ≤ 2 ∧ 2 ≤ s.config.nMax ∧ Translates .read s p d 0o77777777 imageX ∧
      Translates .store s p d 0o77777777 imageX ∧ (0o77777777#24).toNat + 2 - 1 ≥ memSpace :=
  ⟨by decide, by decide, ⟨imageX, by decide, by decide, .inl (by decide)⟩,
    ⟨imageX, by decide, by decide, .inl (by decide)⟩, by decide⟩

/-- `MEM_WORDS` ends after the first word of a run of two, and before the one word of a zone write. -/
theorem witness_UnpopulatedOperandIsRefused :
    let d := decodeSdw 0o000700007774 0o377775200000
    let s := { stateX with
      sdwam := [(5, d)], config := { Config.default with memWords := 0o70006 } }
    let z := { s with config := { Config.default with memWords := 0o70005 } }
    let p := ports 5 5 0 1 0
    (s.populated ((0o70005#24).toNat + 1) = false ∧ s.populated (0o70005#24).toNat = true ∧
        1 ≤ 2 ∧ 2 ≤ s.config.nMax ∧ Translates .read s p d 0o70005 imageX ∧
        Translates .store s p d 0o70005 imageX ∧ (0o70005#24).toNat + 2 ≤ memSpace) ∧
      z.populated ((0o70005#24).toNat + 0) = false ∧ 1 ≤ z.config.nMax ∧
        Translates .store z p d 0o70005 imageX :=
  ⟨⟨by decide, by decide, by decide, by decide, ⟨imageX, by decide, by decide, .inl (by decide)⟩,
      ⟨imageX, by decide, by decide, .inl (by decide)⟩, by decide⟩, by decide, by decide,
    ⟨imageX, by decide, by decide, .inl (by decide)⟩⟩

/-- Both predicates false of both opcodes, and both true of both. -/
theorem witness_LatchesAreReadOnlyByThePredicates :
    let s := { stateX with
      config := { Config.default with
        privDesc := [(1, true), (2, false)], uninterruptible := [(1, true), (2, false)] } }
    (((3 : Opcode), true) ∈ s.config.privDesc ↔
        (readX.ports.opcode, readX.ports.opcodeX) ∈ s.config.privDesc) ∧
      (((3 : Opcode), true) ∈ s.config.uninterruptible ↔
        (readX.ports.opcode, readX.ports.opcodeX) ∈ s.config.uninterruptible) ∧
      (((1 : Opcode), true) ∈ s.config.privDesc ↔ ((2 : Opcode), false) ∈ s.config.privDesc) ∧
      (∃ t, exec readX s = .next t) ∧ (∃ t, exec storeX s = .next t) ∧ ∃ t, exec absaX s = .next t :=
  ⟨by decide, by decide, by decide, ⟨_, next_after (by decide)⟩, ⟨_, next_after (by decide)⟩, _,
    next_after (by decide)⟩

/-- A state whose working registers hold something else. -/
theorem witness_ContextDoesNotCarryOver :
    let s' := { stateX with tsr := 5, sdw := sdw3, acvFaults := 1, lastCycle := some .store, diag := 9 }
    (s'.dsbr = stateX.dsbr ∧ s'.amEnable = stateX.amEnable ∧ s'.sdwam = stateX.sdwam ∧
        s'.ptwam = stateX.ptwam ∧ s'.mem = stateX.mem ∧ s'.config = stateX.config) ∧
      ∃ t, exec readX stateX = .next t :=
  ⟨by decide, _, next_after readX_next⟩

theorem witness_BypassedCycleIgnoresTheCaches :
    let s := { stateX with amEnable := false, sdwam := [(3, sdw3)] }
    Bypassed s readX.ports ∧ ∃ t, exec readX s = .next t :=
  ⟨by decide, _, next_after (by decide)⟩

/-- Image X after `READ 3|2001`: both records cached, the DSPTW used. -/
abbrev stateCached : State :=
  { stateX with
    mem := memUsed, sdwam := [(3, sdw3)], ptwam := [((0o3000, 1), ptw31)] }

theorem witness_CoherentCachesDoNotChangeTheResult :
    (∀ d, amLookup stateCached.sdwam readX.ports.segno = some d →
        d.df = true ∧ Walks { stateCached with sdwam := [], ptwam := [] } readX.ports d stateCached.mem) ∧
      (∀ d m q, ResolvesSegment readX.intent stateCached readX.ports d m →
        amLookup stateCached.ptwam (d.pointer, pageOf readX.ports.offset) = some q →
          stateCached.populated (ptwAt readX.ports d) = true ∧
            q = decodePtw (Memory.read m (ptwAt readX.ports d))) ∧
      ∃ t, exec readX stateCached = .next t := by
  have hl : amLookup stateCached.sdwam readX.ports.segno = some sdw3 := by decide
  have hp : amLookup stateCached.ptwam (sdw3.pointer, pageOf readX.ports.offset) = some ptw31 := by
    decide
  have hr : ResolvesSegment readX.intent stateCached readX.ports sdw3 memUsed := by decide
  refine ⟨fun d hd => ?_, fun d m q h hq => ?_, _, next_after (by decide)⟩
  · rw [hl] at hd
    cases hd
    exact ⟨by decide, by decide⟩
  · obtain ⟨rfl, rfl⟩ := h.unique hr
    rw [hp] at hq
    cases hq
    exact ⟨by decide, by decide⟩

/-- A READ that completes, and a STORE that faults. -/
theorem witness_RepeatedCycleIsIdempotent :
    (∃ t, exec readX stateX = .next t ∧ readX.intent ≠ .store) ∧
      ∃ t, exec (.store (ports 5 0 0 1 0) [1] none) stateX = .next t ∧
        t.response.any Response.isOk = false :=
  ⟨⟨_, next_after readX_next, by decide⟩, _, next_after (by decide), by decide⟩

theorem witness_StoredWordsAreReadBack :
    ∃ t t', exec storeX stateX = .next t ∧ t.response = some (.ok 0o22001 [] 2) ∧
      exec readX t = .next t' ∧ t'.response = some (.ok 0o22001 [0o123456701234] 4) ∧
      Memory.read t'.mem 0o22001 = Memory.read t.mem 0o22001 :=
  ⟨_, _, next_after storeX_next, by decide, next_after (by decide), by decide, by decide⟩

/-- Each clause: over an entry of the key, into a free place, over the least recently used entry, and
the touch; the other associative memory has the same operations. -/
theorem witness_InstallReplacesTheLeastRecentlyUsed :
    let am : AssocMem SegNo Sdw := [(1, Sdw.zero), (2, sdw3)]
    0 < 2 ∧ (am.map Prod.fst).Nodup ∧ am.length ≤ 2 ∧ (2, sdw3) ∈ am ∧ (3 ∉ am.map Prod.fst) ∧
      am.length < 3 ∧ am.length = 2 := by decide

end Sys2Proof.Tests
end

namespace Sys2Proof.Machine

/-! # The step -/

/-- Settles O5: an idle block takes the request that waits, and decoding it succeeds. -/
theorem stepRunsTheDecodedRequest : Obligations.StepRunsTheDecodedRequest := by
  intro s r rest i hidle hin hdec
  rw [step_request hidle hin, hdec]

/-- Settles O6, by the laws of a step without input and of a step in flight. -/
theorem stepWithoutRequest : Obligations.StepWithoutRequest :=
  ⟨fun _ => step_quiet, fun _ => step_inFlight⟩

/-- Settles O7: each action is one record update; what a lookup or a read finds afterwards is the law of
the removal or the write. -/
theorem outsideActionsChangeOneThing : Obligations.OutsideActionsChangeOneThing := by
  intro s a rest hidle hin
  have hstep := step_outside hidle hin
  cases a with
  | loadDsbr d => exact hstep
  | setAmEnable b => exact hstep
  | clearSdwam => exact hstep
  | clearPtwam => exact hstep
  | evictSdw segno => exact ⟨_, hstep, amLookup_remove s.sdwam segno⟩
  | evictPtw pointer page => exact ⟨_, hstep, amLookup_remove s.ptwam (pointer, page)⟩
  | writeWord address value =>
    rw [applyOutside, ofAccess_memWrite] at hstep
    refine ⟨fun hp => ?_, fun hp => ⟨_, ?_, fun b => Memory.read_write s.mem address.toNat b value⟩⟩
    · rw [hstep, if_neg (by exact Bool.eq_false_iff.1 hp)]
      rfl
    · rw [hstep, if_pos (by exact hp)]
      rfl

/-- Settles O9: each value is the one written in `State.reset`, and a lookup in no entries misses. -/
theorem powerOnReset : Obligations.PowerOnReset :=
  ⟨rfl, rfl, rfl, fun _ => rfl, fun _ => rfl⟩

/-! # How a cycle ends -/

/-- A fault of step A is the fetchers' bound check or a directed fault (rules R89, R122, R124). -/
theorem SegmentFault.kind {i : Intent} {s : State} {p : Ports} {k : FaultKind} {d : Sdw} {m : Memory}
    {q : Ptw} {calls : List Call} (h : SegmentFault i s p k d m q calls) :
    k = .acv 1 ∨ ∃ fc, k = .df fc := by
  cases h with
  | beyond => exact .inl rfl
  | absentDsptw => exact .inr ⟨_, rfl⟩
  | invalid => exact .inr ⟨_, rfl⟩

/-- A fault in step I ends the cycle there. -/
theorem raiseFault_inI_path (k : FaultKind) (i : Intent) (p : Ports) (s : State) {d : Sdw} (m : Memory)
    (q : Ptw) (am : AssocMem SegNo Sdw) (pm : AssocMem PtwKey Ptw) (calls : List Call)
    (hu : d.u = false) :
    (raiseFault k (inI i p s d m q am pm calls)).path = [.a, .b, .g, .i, .fault, .idle] := by
  simp [inI, atHI, stepAfterG, hu]

/-- A completed cycle has taken step H or step I. -/
theorem completed_path (i : Instr) (s : State) (d : Sdw) (m : Memory) (q : Ptw)
    (am : AssocMem SegNo Sdw) (pm : AssocMem PtwKey Ptw) (f : PhysAddr) (calls : List Call) :
    (completed i s d m q am pm f calls).path = [.a, .b, .g, .h, .exit, .idle] ∨
      (completed i s d m q am pm f calls).path = [.a, .b, .g, .i, .exit, .idle] := by
  cases hu : d.u <;> simp [completed, stepAfterG, hu]

theorem legalPath_of_completed {path : List SeqStep}
    (h : path = [.a, .b, .g, .h, .exit, .idle] ∨ path = [.a, .b, .g, .i, .exit, .idle]) :
    legalPath (.idle :: path) = true := by
  rcases h with rfl | rfl <;> rfl

/-- Settles O13, by the six ways in which a cycle can end. -/
theorem everyCycleEndsInAStepTheRulesGive : Obligations.EveryCycleEndsInAStepTheRulesGive := by
  intro i s t h
  cases cycleEnds_of_next h with
  | segmentFault k d m q calls hf =>
    refine ⟨rfl, rfl, ?_⟩
    rcases hf.kind with rfl | ⟨fc, rfl⟩
    · exact .inl ⟨_, _, rfl, .inl ⟨rfl, rfl⟩⟩
    · exact .inr (.inl ⟨_, _, rfl, .inl rfl⟩)
  | violation d m hs hv => exact ⟨rfl, rfl, .inl ⟨_, _, rfl, .inr rfl⟩⟩
  | absentPage d m q hs hv hu hr ha hq =>
    rw [raiseFault_inI_path _ _ _ _ _ _ _ _ _ hu]
    exact ⟨rfl, rfl, .inr (.inl ⟨_, _, rfl, .inr ⟨rfl, ha⟩⟩)⟩
  | probe d m q hs hv hu hr hq hp hn hf =>
    rw [raiseFault_inI_path _ _ _ _ _ _ _ _ _ hu]
    exact ⟨rfl, rfl, .inr (.inl ⟨_, _, rfl, .inr ⟨rfl, hp.1⟩⟩)⟩
  | unpaged d m hs hv hu hw hp =>
    exact ⟨rfl, legalPath_of_completed (completed_path ..),
      .inr (.inr ⟨_, _, _, rfl, rfl, rfl, completed_path ..⟩)⟩
  | paged d m m' q f hs hv hr hw hp =>
    exact ⟨rfl, legalPath_of_completed (completed_path ..),
      .inr (.inr ⟨_, _, _, rfl, rfl, rfl, completed_path ..⟩)⟩

/-- Settles O24: the fetcher's bound check is one of the ways in which step A faults. -/
theorem segmentBeyondDsBoundFaults : Obligations.SegmentBeyondDsBoundFaults := by
  intro i s hwf hmiss hcheck hbeyond
  have hb : ¬WithinDsBound s i.ports := fun h => absurd (h hcheck) (Nat.not_lt.2 hbeyond)
  exact ⟨_, exec_segmentFault i s hwf (.beyond hmiss hb), rfl, rfl, rfl, rfl, rfl, rfl⟩

/-! # The mask -/

/-- The violations of a READ or ABSA are ACV0, ACV3, ACV4 and ACV15 (rule R138). -/
theorem violations_read (i : Intent) (p : Ports) (d : Sdw) (hi : i ≠ .store) :
    violations i p d &&& ~~~0x9801#16 = 0 := by
  simp only [violations, hi, false_and, if_false]
  (repeat' split) <;> decide

/-- The violations of a STORE are ACV0, ACV5, ACV6 and ACV15 (rule R138). -/
theorem violations_store (i : Intent) (p : Ports) (d : Sdw) (hi : i = .store) :
    violations i p d &&& ~~~0x8601#16 = 0 := by
  simp only [violations, hi, ne_eq, not_true_eq_false, false_and, if_false]
  (repeat' split) <;> decide

/-- Either `acvFaults` is left at 0 and no access violation is answered but the fetchers' own, or the
mask is what steps B and G found, and is answered. -/
theorem CycleEnds.mask {i : Instr} {s t : State} (h : CycleEnds i s t) :
    (t.acvFaults = 0 ∧ ∀ mask r, t.response = some (.faultAcv mask r) →
        mask = 1 ∧ t.path = [.a, .fault, .idle]) ∨
      ∃ d r, violations i.intent i.ports d ≠ 0 ∧ t.acvFaults = violations i.intent i.ports d ∧
        t.response = some (.faultAcv (violations i.intent i.ports d) r) := by
  cases h with
  | segmentFault k d m q calls hf =>
    refine .inl ⟨rfl, fun mask r hres => ?_⟩
    rcases hf.kind with rfl | ⟨fc, rfl⟩ <;> cases hres
    exact ⟨rfl, rfl⟩
  | violation d m hs hv => exact .inr ⟨d, _, hv, rfl, rfl⟩
  | absentPage => exact .inl ⟨rfl, fun _ _ hres => nomatch hres⟩
  | probe => exact .inl ⟨rfl, fun _ _ hres => nomatch hres⟩
  | unpaged => exact .inl ⟨rfl, fun _ _ hres => nomatch hres⟩
  | paged => exact .inl ⟨rfl, fun _ _ hres => nomatch hres⟩

/-- Settles O16: the mask is 0 or the violations that steps B and G found. -/
theorem maskHoldsOnlyBitsOfTheIntent : Obligations.MaskHoldsOnlyBitsOfTheIntent := by
  intro i s t h
  rcases (cycleEnds_of_next h).mask with ⟨hacv, hres⟩ | ⟨d, r, hv, hacv, hres⟩ <;> rw [hacv]
  · refine ⟨fun _ => by simp, fun _ => by simp, fun mask r hr => ?_, fun _ => rfl⟩
    obtain ⟨rfl, hpath⟩ := hres mask r hr
    exact ⟨by decide, .inr ⟨rfl, rfl, hpath⟩⟩
  · refine ⟨violations_read _ _ _, violations_store _ _ _, fun mask r' hr => ?_,
      fun hn => absurd hres (hn _ _)⟩
    cases hres.symm.trans hr
    exact ⟨hv, .inl rfl⟩

/-! # The registers -/

/-- `TRR` after step B is the requested ring or the execution ring (rule R139). -/
theorem ringAfterChecks_cases (i : Intent) (p : Ports) (d : Sdw) :
    ringAfterChecks i p d = p.ring ∨ ringAfterChecks i p d = p.prr := by
  unfold ringAfterChecks storeRing
  (repeat' split) <;> simp

/-- A walk makes a call that writes the `SDW` register. -/
theorem walkCalls_mayWriteSdw (s : State) (p : Ports) : ∃ c ∈ walkCalls s p, c.mayWriteSdw = true := by
  by_cases hu : s.dsbr.u = true
  · exact ⟨.fetchNsdw p.segno, by simp [walkCalls, hu], rfl⟩
  · exact ⟨.fetchPsdw p.segno, by simp [walkCalls, hu], rfl⟩

/-- Step A, where it goes on, has made a call that writes the `SDW` register. -/
theorem segmentCalls_mayWriteSdw (s : State) (p : Ports) (d : Sdw) :
    ∃ c ∈ segmentCalls s p d, c.mayWriteSdw = true := by
  obtain ⟨c, hc, hw⟩ := walkCalls_mayWriteSdw s p
  by_cases hm : SdwMiss s p
  · exact ⟨c, by simp [segmentCalls, hm, hc], hw⟩
  · exact ⟨.fetchSdwFromSdwam p.segno .hit, by simp [segmentCalls, hm], rfl⟩

/-- A walk that makes no call that writes the `PTW` register leaves it. -/
theorem ptwAfterWalk_eq (s : State) (p : Ports) (h : ∀ c ∈ walkCalls s p, c.mayWritePtw = false) :
    ptwAfterWalk s p = s.ptw := by
  by_cases hu : s.dsbr.u = true
  · simp [ptwAfterWalk, hu]
  · exact nomatch h (.fetchDsptw p.segno) (by simp [walkCalls, hu])

/-- Step A leaves the `PTW` register, if it makes no call that writes it. -/
theorem ptwAfterA_eq (s : State) (p : Ports) (d : Sdw)
    (h : ∀ c ∈ segmentCalls s p d, c.mayWritePtw = false) : ptwAfterA s p = s.ptw := by
  by_cases hm : SdwMiss s p
  · rw [ptwAfterA, if_pos hm]
    exact ptwAfterWalk_eq s p fun c hc => h c (by simp [segmentCalls, hm, hc])
  · rw [ptwAfterA, if_neg hm]

/-- Step I makes a call that writes the `PTW` register. -/
theorem resolveCalls_mayWritePtw (s : State) (p : Ports) (d : Sdw) (q : Ptw) :
    ∃ c ∈ resolveCalls s p d q, c.mayWritePtw = true := by
  by_cases hm : PtwMiss s p d
  · exact ⟨.fetchPtw d p.offset, by simp [resolveCalls, hm], rfl⟩
  · exact ⟨.fetchPtwFromPtwam d.pointer p.offset .hit, by simp [resolveCalls, hm], rfl⟩

/-- A fault of step A leaves the `SDW` register, if no call that writes it was made. -/
theorem SegmentFault.sdw_eq {i : Intent} {s : State} {p : Ports} {k : FaultKind} {d : Sdw} {m : Memory}
    {q : Ptw} {calls : List Call} (h : SegmentFault i s p k d m q calls)
    (hc : ∀ c ∈ calls, c.mayWriteSdw = false) : d = s.sdw := by
  cases h with
  | beyond => rfl
  | absentDsptw => rfl
  | invalid =>
    obtain ⟨c, hm, hw⟩ := walkCalls_mayWriteSdw s p
    simp [hc c (List.mem_cons_of_mem _ hm)] at hw

/-- A fault of step A leaves the `PTW` register, if no call that writes it was made. -/
theorem SegmentFault.ptw_eq {i : Intent} {s : State} {p : Ports} {k : FaultKind} {d : Sdw} {m : Memory}
    {q : Ptw} {calls : List Call} (h : SegmentFault i s p k d m q calls)
    (hc : ∀ c ∈ calls, c.mayWritePtw = false) : q = s.ptw := by
  cases h with
  | beyond => rfl
  | absentDsptw => exact nomatch hc (.fetchDsptw p.segno) (by simp)
  | invalid => exact ptwAfterWalk_eq s p fun c hm => hc c (List.mem_cons_of_mem _ hm)

@[simp] theorem inI_trace (i : Intent) (p : Ports) (s : State) (d : Sdw) (m : Memory) (q : Ptw)
    (am : AssocMem SegNo Sdw) (pm : AssocMem PtwKey Ptw) (calls : List Call) :
    (inI i p s d m q am pm calls).trace = calls := (rfl)

/-- The holding registers after a cycle, with calls that the cycle has made: step A faults, or it goes on
and the `PTW` register is as step A left it unless step I has resolved the page. -/
theorem CycleEnds.holding {i : Instr} {s t : State} (h : CycleEnds i s t) :
    (∃ k m calls, SegmentFault i.intent s i.ports k t.sdw m t.ptw calls ∧ calls ⊆ t.trace) ∨
      ∃ d, segmentCalls s i.ports d ⊆ t.trace ∧
        (t.ptw = ptwAfterA s i.ports ∨ ∃ q, resolveCalls s i.ports d q ⊆ t.trace) := by
  cases h with
  | segmentFault k d m q calls hf =>
    exact .inl ⟨k, m, calls, hf, List.subset_append_left _ _⟩
  | violation d => exact .inr ⟨d, List.subset_append_left _ _, .inl rfl⟩
  | absentPage d m q =>
    refine .inr ⟨d, fun c hc => ?_, .inr ⟨q, fun c hc => ?_⟩⟩ <;> simp [hc]
  | probe d m q =>
    refine .inr ⟨d, fun c hc => ?_, .inr ⟨q, fun c hc => ?_⟩⟩ <;> simp [hc]
  | unpaged d => exact .inr ⟨d, List.subset_append_left _ _, .inl rfl⟩
  | paged d m m' q =>
    refine .inr ⟨d, fun c hc => ?_, .inr ⟨q, fun c hc => ?_⟩⟩ <;> simp [completed, pageCalls, hc]

/-- The `SDW` register keeps its value through a cycle that makes no call that writes it (rules R80,
R88). -/
theorem CycleEnds.sdw_eq {i : Instr} {s t : State} (h : CycleEnds i s t)
    (hc : ∀ c ∈ t.trace, c.mayWriteSdw = false) : t.sdw = s.sdw := by
  rcases h.holding with ⟨k, m, calls, hf, hsub⟩ | ⟨d, hsub, -⟩
  · exact hf.sdw_eq fun c hm => hc c (hsub hm)
  · obtain ⟨c, hm, hw⟩ := segmentCalls_mayWriteSdw s i.ports d
    simp [hc c (hsub hm)] at hw

/-- The `PTW` register keeps its value through a cycle that makes no call that writes it (rules R84, R88,
R96, R97). -/
theorem CycleEnds.ptw_eq {i : Instr} {s t : State} (h : CycleEnds i s t)
    (hc : ∀ c ∈ t.trace, c.mayWritePtw = false) : t.ptw = s.ptw := by
  rcases h.holding with ⟨k, m, calls, hf, hsub⟩ | ⟨d, hsub, hptw | ⟨q, hres⟩⟩
  · exact hf.ptw_eq fun c hm => hc c (hsub hm)
  · rw [hptw]
    exact ptwAfterA_eq s i.ports d fun c hm => hc c (hsub hm)
  · obtain ⟨c, hm, hw⟩ := resolveCalls_mayWritePtw s i.ports d q
    simp [hc c (hres hm)] at hw

/-- `TRR` after a cycle is the requested ring or the execution ring. -/
theorem CycleEnds.trr_cases {i : Instr} {s t : State} (h : CycleEnds i s t) :
    t.trr = i.ports.ring ∨ t.trr = i.ports.prr := by
  cases h with
  | segmentFault => exact .inl rfl
  | violation d => exact ringAfterChecks_cases i.intent i.ports d
  | absentPage d => exact ringAfterChecks_cases i.intent i.ports d
  | probe d => exact ringAfterChecks_cases i.intent i.ports d
  | unpaged d => exact ringAfterChecks_cases i.intent i.ports d
  | paged d => exact ringAfterChecks_cases i.intent i.ports d

/-- `final` keeps its value unless the cycle answers `Ok`. -/
theorem CycleEnds.finalAddr_eq {i : Instr} {s t : State} (h : CycleEnds i s t)
    (hok : t.response.any Response.isOk = false) : t.finalAddr = s.finalAddr := by
  cases h with
  | segmentFault => rfl
  | violation => rfl
  | absentPage => rfl
  | probe => rfl
  | unpaged => cases hok
  | paged => cases hok

/-- Settles O17: only cycle start writes the latches, and the six ways in which a cycle can end leave
them. -/
theorem requestIsLatchedAndRegistersKept : Obligations.RequestIsLatchedAndRegistersKept := by
  intro i s t h
  have he := cycleEnds_of_next h
  have hn := computeNomatch_iff i.intent i.ports s
  have htrr := he.trr_cases
  have hfin := he.finalAddr_eq
  have hsdw := he.sdw_eq
  have hptw := he.ptw_eq
  cases he <;>
    exact ⟨rfl, rfl, rfl, rfl, rfl, rfl, rfl, rfl, rfl, rfl, hn, htrr, rfl, rfl, rfl, rfl, hfin, hsdw,
      hptw⟩

/-! # What a cycle can see -/

/-- The state `s'` and the ports `p'` show a cycle what `s` and `p` show it: `DSBR`, memory and the
parameters, the address and ring ports, the opcode and `AM_ENABLE` through the two predicates alone (rule
R19), and the associative memories unless they are bypassed (rule R17). No register of the previous cycle
is among it (rule R31). -/
structure SameView (s s' : State) (p p' : Ports) : Prop where
  segno : p'.segno = p.segno
  offset : p'.offset = p.offset
  ring : p'.ring = p.ring
  psr : p'.psr = p.psr
  prr : p'.prr = p.prr
  dsbr : s'.dsbr = s.dsbr
  mem : s'.mem = s.mem
  config : s'.config = s.config
  bypassed : Bypassed s' p' ↔ Bypassed s p
  uninterruptible : Uninterruptible s' p' ↔ Uninterruptible s p
  caches : ¬Bypassed s p → s'.sdwam = s.sdwam ∧ s'.ptwam = s.ptwam

namespace SameView

variable {s s' : State} {p p' : Ports} (v : SameView s s' p p')
include v

theorem populated (a : Nat) : s'.populated a = s.populated a := by
  simp only [State.populated, v.config]

theorem sdwHit (d : Sdw) : SdwHit s' p' d ↔ SdwHit s p d := by
  simp only [SdwHit, v.bypassed, v.segno]
  exact and_congr_right fun hb => by rw [(v.caches hb).1]

theorem sdwMiss : SdwMiss s' p' ↔ SdwMiss s p := by
  by_cases hb : Bypassed s p
  · simp only [SdwMiss, v.bypassed, hb, true_or]
  · simp only [SdwMiss, v.bypassed, hb, v.segno, (v.caches hb).1]

theorem ptwHit (d : Sdw) (q : Ptw) : PtwHit s' p' d q ↔ PtwHit s p d q := by
  simp only [PtwHit, v.bypassed, v.offset]
  exact and_congr_right fun hb => by rw [(v.caches hb).2]

theorem ptwMiss (d : Sdw) : PtwMiss s' p' d ↔ PtwMiss s p d := by
  by_cases hb : Bypassed s p
  · simp only [PtwMiss, v.bypassed, hb, true_or]
  · simp only [PtwMiss, v.bypassed, hb, v.offset, (v.caches hb).2]

theorem withinDsBound : WithinDsBound s' p' ↔ WithinDsBound s p := by
  simp only [WithinDsBound, v.config, v.dsbr, v.segno]

theorem dsptwAt : dsptwAt s' p' = dsptwAt s p := by
  simp only [Machine.dsptwAt, v.dsbr, v.segno]

theorem dsptwOf : dsptwOf s' p' = dsptwOf s p := by
  simp only [Machine.dsptwOf, v.dsptwAt, v.mem]

theorem walks (d : Sdw) (m : Memory) : Walks s' p' d m ↔ Walks s p d m := by
  simp only [Walks, WalksUnpaged, WalksPaged, PairPopulated, memAfterUse, v.sdwMiss, v.withinDsBound,
    v.dsptwOf, v.dsptwAt, v.dsbr, v.mem, v.config, v.segno, v.populated]

theorem resolvesSegment (i : Intent) (d : Sdw) (m : Memory) :
    ResolvesSegment i s' p' d m ↔ ResolvesSegment i s p d m := by
  simp only [ResolvesSegment, v.sdwHit, v.walks, v.mem]

theorem violations (i : Intent) (d : Sdw) : violations i p' d = violations i p d := by
  simp only [Machine.violations, storeRing, v.segno, v.offset, v.ring, v.psr, v.prr]

theorem ringAfterChecks (i : Intent) (d : Sdw) : ringAfterChecks i p' d = ringAfterChecks i p d := by
  simp only [Machine.ringAfterChecks, storeRing, v.segno, v.ring, v.psr, v.prr]

theorem accessAllowed (i : Intent) (d : Sdw) : AccessAllowed i p' d ↔ AccessAllowed i p d := by
  rw [← violations_eq_zero, ← violations_eq_zero, v.violations]

theorem resolvesPage (d : Sdw) (m : Memory) (q : Ptw) :
    ResolvesPage s' p' d m q ↔ ResolvesPage s p d m q := by
  simp only [ResolvesPage, ptwAt, v.ptwHit, v.ptwMiss, v.offset, v.populated]

theorem formsPagedAddress (i : Intent) (d : Sdw) (m : Memory) (q : Ptw) (f : PhysAddr) (m' : Memory) :
    FormsPagedAddress i s' p' d m q f m' ↔ FormsPagedAddress i s p d m q f m' := by
  simp only [FormsPagedAddress, ProbePasses, memAfterMark, ptwAt, nextPtwAt, v.resolvesPage,
    v.uninterruptible, v.offset, v.populated, v.config]

theorem walkCalls : walkCalls s' p' = walkCalls s p := by
  simp only [Machine.walkCalls, v.dsbr, v.dsptwOf, v.segno]

theorem segmentCalls (d : Sdw) : segmentCalls s' p' d = segmentCalls s p d := by
  simp only [Machine.segmentCalls, loadCalls, v.walkCalls, v.sdwMiss, v.bypassed, v.segno]

theorem resolveCalls (d : Sdw) (q : Ptw) : resolveCalls s' p' d q = resolveCalls s p d q := by
  simp only [Machine.resolveCalls, v.ptwMiss, v.bypassed, v.offset]

theorem probes (i : Intent) : Probes i s' p' ↔ Probes i s p := by
  simp only [Probes, v.uninterruptible]

theorem nextPtwAt (d : Sdw) : nextPtwAt p' d = nextPtwAt p d := by
  simp only [Machine.nextPtwAt, v.offset]

theorem probeCalls (i : Intent) (d : Sdw) : probeCalls i s' p' d = probeCalls i s p d := by
  simp only [Machine.probeCalls, v.probes, v.offset]

theorem pageCalls (i : Intent) (d : Sdw) (q : Ptw) : pageCalls i s' p' d q = pageCalls i s p d q := by
  simp only [Machine.pageCalls, markCalls, v.resolveCalls, v.probeCalls, v.offset]

theorem sdwamAfterA (d : Sdw) (h : s'.sdwam = s.sdwam) : sdwamAfterA s' p' d = sdwamAfterA s p d := by
  simp only [Machine.sdwamAfterA, sdwamAfterWalk, v.sdwMiss, v.bypassed, v.config, v.segno, h]

theorem ptwamAfterResolve (d : Sdw) (q : Ptw) (h : s'.ptwam = s.ptwam) :
    ptwamAfterResolve s' p' d q = ptwamAfterResolve s p d q := by
  simp only [Machine.ptwamAfterResolve, v.ptwMiss, v.bypassed, v.config, v.offset, h]

theorem ptwamAfterMark (i : Intent) (d : Sdw) (q : Ptw) (pm : AssocMem PtwKey Ptw) :
    ptwamAfterMark i p' d q pm = ptwamAfterMark i p d q pm := by
  simp only [Machine.ptwamAfterMark, v.offset]

theorem ptwAfterWalk (h : s'.ptw = s.ptw) : ptwAfterWalk s' p' = ptwAfterWalk s p := by
  simp only [Machine.ptwAfterWalk, v.dsbr, v.dsptwOf, h]

theorem ptwAfterA (h : s'.ptw = s.ptw) : ptwAfterA s' p' = ptwAfterA s p := by
  simp only [Machine.ptwAfterA, v.ptwAfterWalk h, v.sdwMiss, h]

/-- The bypass flag is seen through `Bypassed` alone (rule R111). -/
theorem noMatch (i : Intent) : (cycleStart i p' s').noMatch = (cycleStart i p s).noMatch := by
  rw [noMatch_eq_decide, noMatch_eq_decide, decide_eq_decide]
  exact v.bypassed

end SameView

/-- The state `c` with all that a cycle does not see at its start as `s` and `p` have it. -/
def State.withUnseen (c s : State) (p : Ports) : State :=
  { c with
    opcode := p.opcode, opcodeX := p.opcodeX, indirect := p.indirect, bit29 := p.bit29, sdw := s.sdw,
    ptw := s.ptw, finalAddr := s.finalAddr, amEnable := s.amEnable, sdwam := s.sdwam, ptwam := s.ptwam,
    diag := s.diag, inputs := s.inputs, response := s.response, freeCount := s.freeCount }

/-- Under the same view cycle start leaves the same state but for what the cycle does not see. -/
theorem SameView.cycleStart {s s' : State} {p p' : Ports} (v : SameView s s' p p') (i : Intent) :
    cycleStart i p' s' = (cycleStart i p s).withUnseen s' p' := by
  have hn := v.noMatch i
  rw [cycleStart_noMatch, cycleStart_noMatch, v.config] at hn
  simp only [Machine.cycleStart, State.withUnseen, hn, v.segno, v.offset, v.ring, v.psr, v.prr,
    v.dsbr, v.mem, v.config]

/-- A fault of step A under the same view: the fault, memory and calls are the same, and so are the holding
registers where both cycles start from one state. -/
theorem SegmentFault.congr {i : Intent} {s s' : State} {p p' : Ports} {k : FaultKind} {d : Sdw}
    {m : Memory} {q : Ptw} {calls : List Call} (v : SameView s s' p p')
    (h : SegmentFault i s p k d m q calls) :
    ∃ d' q', SegmentFault i s' p' k d' m q' calls ∧ (s' = s → d' = d ∧ q' = q) := by
  cases h with
  | beyond hm hb =>
    have hf := SegmentFault.beyond (i := i) (v.sdwMiss.2 hm) (mt v.withinDsBound.1 hb)
    rw [v.segno, v.dsbr, v.mem] at hf
    exact ⟨_, _, hf, by rintro rfl; exact ⟨rfl, rfl⟩⟩
  | absentDsptw hm hb hu hp hd =>
    have hf := SegmentFault.absentDsptw (i := i) (v.sdwMiss.2 hm) (v.withinDsBound.2 hb)
      (by rw [v.dsbr, hu]) (by rw [v.dsptwAt, v.populated, hp]) (by rw [v.dsptwOf, hd])
    rw [v.segno, v.dsptwOf, v.mem] at hf
    exact ⟨_, _, hf, by rintro rfl; exact ⟨rfl, rfl⟩⟩
  | invalid d m hw hi hd =>
    have hf := SegmentFault.invalid d m ((v.walks d m).2 hw) hi hd
    rw [v.segno, v.walkCalls] at hf
    exact ⟨_, _, hf, by rintro rfl; exact ⟨rfl, v.ptwAfterWalk rfl⟩⟩

end Sys2Proof.Machine

namespace Sys2Proof

/-- The same operation with other ports. -/
def Instr.withPorts : Instr → Ports → Instr
  | .read _ count, p => .read p count
  | .store _ data zone, p => .store p data zone
  | .absa _, p => .absa p

namespace Instr

variable (i : Instr) (p : Ports)

@[simp] theorem withPorts_ports : (i.withPorts p).ports = p := by cases i <;> rfl

@[simp] theorem withPorts_self : i.withPorts i.ports = i := by cases i <;> rfl

@[simp] theorem withPorts_intent : (i.withPorts p).intent = i.intent := by cases i <;> rfl

@[simp] theorem withPorts_wf (n : Nat) : (i.withPorts p).wf n = i.wf n := by cases i <;> rfl

end Instr

end Sys2Proof

namespace Sys2Proof.Machine

section

variable (i : Instr) (p : Ports)

@[simp] theorem transferLength_withPorts : transferLength (i.withPorts p) = transferLength i := by
  rcases i with _ | ⟨_, _, _ | _⟩ | _ <;> rfl

@[simp] theorem transferCalls_withPorts (f : PhysAddr) :
    transferCalls f (i.withPorts p) = transferCalls f i := by
  rcases i with _ | ⟨_, _, _ | _⟩ | _ <;> rfl

@[simp] theorem wordsRead_withPorts (f : PhysAddr) (m : Memory) :
    wordsRead f m (i.withPorts p) = wordsRead f m i := by
  cases i <;> rfl

@[simp] theorem memAfterTransfer_withPorts (f : PhysAddr) (m : Memory) :
    memAfterTransfer f m (i.withPorts p) = memAfterTransfer f m i := by
  rcases i with _ | ⟨_, _ | _, _ | _⟩ | _ <;> rfl

end

/-- A well-formed operation answers each state in which its cycle can end. -/
theorem next_of_cycleEnds {i : Instr} {s t : State} (hi : i.wf s.config.nMax = true)
    (h : CycleEnds i s t) : exec i s = .next t := by
  cases h with
  | segmentFault k d m q calls hf => exact exec_segmentFault i s hi hf
  | violation d m hs hv => exact exec_violation i s d m hi hs hv
  | absentPage d m q hs hv hu hr ha hq => exact exec_absentPage i s d m hi q hs hv hu hr ha hq
  | probe d m q hs hv hu hr hq hp hn hf => exact exec_probe i s d m hi q hs hv hu hr hq hp hn hf
  | unpaged d m hs hv hu hw hp => exact exec_unpaged i s d m hi hs hv hu hw hp
  | paged d m m' q f hs hv hr hw hp => exact exec_paged i s d m hi m' q f hs hv hr hw hp

/-- `t` with the opcode latches of `p`. -/
def State.withLatches (t : State) (p : Ports) : State :=
  { t with opcode := p.opcode, opcodeX := p.opcodeX, indirect := p.indirect, bit29 := p.bit29 }

/-- What a cycle from `s'` with the ports `p'` leaves (`t'`) and one from `s` (`t`) have in common under the
same view: the answer, the calls and memory in every case, the associative memories where `s'` and `s` have
the same, everything but the opcode latches where `s'` is `s`. -/
structure SameAnswer (s s' : State) (p' : Ports) (t t' : State) : Prop where
  response : t'.response = t.response
  trace : t'.trace = t.trace
  path : t'.path = t.path
  mem : t'.mem = t.mem
  acvFaults : t'.acvFaults = t.acvFaults
  trr : t'.trr = t.trr
  caches : s'.sdwam = s.sdwam → s'.ptwam = s.ptwam → t'.sdwam = t.sdwam ∧ t'.ptwam = t.ptwam
  latches : s' = s → t' = t.withLatches p'

namespace SameView

variable {s s' : State} {p p' : Ports} (v : SameView s s' p p')
include v

/-! The states in which a cycle can end, each under the same view. -/

theorem sameAnswer_walked (k : FaultKind) (i : Intent) {d d' : Sdw} (m : Memory) {q q' : Ptw}
    (calls : List Call) (heq : s' = s → d' = d ∧ q' = q) :
    SameAnswer s s' p' (raiseFault k (walked i p s d m q calls))
      (raiseFault k (walked i p' s' d' m q' calls)) := by
  simp only [walked, v.cycleStart]
  refine ⟨rfl, rfl, rfl, rfl, rfl, rfl, And.intro, ?_⟩
  rintro rfl
  obtain ⟨rfl, rfl⟩ := heq rfl
  rfl

theorem sameAnswer_atG (k : FaultKind) (i : Intent) (d : Sdw) (m : Memory) {q q' : Ptw}
    {am am' : AssocMem SegNo Sdw} (calls : List Call) (mask : AcvMask)
    (hq : s'.ptw = s.ptw → q' = q) (ham : s'.sdwam = s.sdwam → am' = am) :
    SameAnswer s s' p' (raiseFault k (atG i p s d m q am calls mask))
      (raiseFault k (atG i p' s' d m q' am' calls mask)) := by
  simp only [atG, atB, v.cycleStart, v.ringAfterChecks]
  refine ⟨rfl, rfl, rfl, rfl, rfl, rfl, fun h1 h2 => ⟨ham h1, h2⟩, ?_⟩
  rintro rfl
  rw [hq rfl, ham rfl]
  rfl

theorem sameAnswer_inI (k : FaultKind) (i : Intent) (d : Sdw) (m : Memory) (q : Ptw)
    {am am' : AssocMem SegNo Sdw} {pm pm' : AssocMem PtwKey Ptw} (calls : List Call)
    (ham : s'.sdwam = s.sdwam → am' = am) (hpm : s'.ptwam = s.ptwam → pm' = pm) :
    SameAnswer s s' p' (raiseFault k (inI i p s d m q am pm calls))
      (raiseFault k (inI i p' s' d m q am' pm' calls)) := by
  simp only [inI, atHI, atB, v.cycleStart, v.ringAfterChecks]
  refine ⟨rfl, rfl, rfl, rfl, rfl, rfl, fun h1 h2 => ⟨ham h1, hpm h2⟩, ?_⟩
  rintro rfl
  rw [ham rfl, hpm rfl]
  rfl

theorem sameAnswer_completed (i : Instr) (hp : i.ports = p) (d : Sdw) (m : Memory) {q q' : Ptw}
    {am am' : AssocMem SegNo Sdw} {pm pm' : AssocMem PtwKey Ptw} (f : PhysAddr) (calls : List Call)
    (hq : s'.ptw = s.ptw → q' = q) (ham : s'.sdwam = s.sdwam → am' = am)
    (hpm : s'.ptwam = s.ptwam → pm' = pm) :
    SameAnswer s s' p' (completed i s d m q am pm f calls)
      (completed (i.withPorts p') s' d m q' am' pm' f calls) := by
  subst hp
  simp only [completed, atExit, atHI, atB, Instr.withPorts_intent, Instr.withPorts_ports,
    memAfterTransfer_withPorts, transferCalls_withPorts, wordsRead_withPorts, v.cycleStart,
    v.ringAfterChecks]
  refine ⟨rfl, rfl, rfl, rfl, rfl, rfl, fun h1 h2 => ⟨ham h1, hpm h2⟩, ?_⟩
  rintro rfl
  rw [hq rfl, ham rfl, hpm rfl]
  rfl

end SameView

/-- Under the same view a cycle ends in the same one of the six ways. -/
theorem CycleEnds.congr {i : Instr} {s s' t : State} {p' : Ports} (v : SameView s s' i.ports p')
    (h : CycleEnds i s t) : ∃ t', CycleEnds (i.withPorts p') s' t' ∧ SameAnswer s s' p' t t' := by
  have hi : (i.withPorts p').intent = i.intent := i.withPorts_intent p'
  have hp : (i.withPorts p').ports = p' := i.withPorts_ports p'
  have hlen := transferLength_withPorts i p'
  cases h with
  | segmentFault k d m q calls hf =>
    obtain ⟨d', q', hf', heq⟩ := hf.congr v
    have he := CycleEnds.segmentFault (i := i.withPorts p') k d' m q' calls (by rwa [hi, hp])
    rw [hi, hp] at he
    exact ⟨_, he, v.sameAnswer_walked k _ m calls heq⟩
  | violation d m hs hv =>
    have he := CycleEnds.violation (i := i.withPorts p') (s := s') d m
      (by rwa [hi, hp, v.resolvesSegment]) (by rwa [hi, hp, v.violations])
    rw [hi, hp, v.violations, v.segmentCalls] at he
    exact ⟨_, he, v.sameAnswer_atG _ _ d m _ _ v.ptwAfterA (v.sdwamAfterA d)⟩
  | absentPage d m q hs hv hu hr ha hq =>
    have he := CycleEnds.absentPage (i := i.withPorts p') (s := s') d m q
      (by rwa [hi, hp, v.resolvesSegment]) (by rwa [hi, hp, v.accessAllowed]) hu
      (by rwa [hp, v.resolvesPage]) (by rwa [hi]) hq
    rw [hi, hp, v.segmentCalls, v.resolveCalls] at he
    exact ⟨_, he, v.sameAnswer_inI _ _ d m q _ (v.sdwamAfterA d) (v.ptwamAfterResolve d q)⟩
  | probe d m q hs hv hu hr hq hx hn hf =>
    have he := CycleEnds.probe (i := i.withPorts p') (s := s') d m q
      (by rwa [hi, hp, v.resolvesSegment]) (by rwa [hi, hp, v.accessAllowed]) hu
      (by rwa [hp, v.resolvesPage]) hq (by rwa [hi, hp, v.probes])
      (by rwa [hp, v.populated, v.nextPtwAt]) (by rwa [hp, v.nextPtwAt])
    rw [hi, hp, v.segmentCalls, v.resolveCalls, v.probeCalls, v.nextPtwAt] at he
    exact ⟨_, he, v.sameAnswer_inI _ _ d m q _ (v.sdwamAfterA d) (v.ptwamAfterResolve d q)⟩
  | unpaged d m hs hv hu hw hx =>
    have he := CycleEnds.unpaged (i := i.withPorts p') (s := s') d m
      (by rwa [hi, hp, v.resolvesSegment]) (by rwa [hi, hp, v.accessAllowed]) hu
      (by rwa [hp, v.offset, hlen]) (by simpa only [hp, v.offset, hlen, v.populated] using hx)
    rw [hp, v.offset, v.segmentCalls] at he
    exact ⟨_, he, v.sameAnswer_completed i rfl d m _ _ v.ptwAfterA (v.sdwamAfterA d) id⟩
  | paged d m m' q f hs hv hr hw hx =>
    have he := CycleEnds.paged (i := i.withPorts p') (s := s') d m m' q f
      (by rwa [hi, hp, v.resolvesSegment]) (by rwa [hi, hp, v.accessAllowed])
      (by rwa [hi, hp, v.formsPagedAddress]) (by rwa [hlen])
      (by simpa only [hlen, v.populated] using hx)
    rw [hi, hp, v.segmentCalls, v.pageCalls] at he
    exact ⟨_, he, v.sameAnswer_completed i rfl d m' f _ (fun _ => rfl) (v.sdwamAfterA d)
      fun h => by rw [v.ptwamAfterMark, v.ptwamAfterResolve d q h]⟩

/-- Under the same view an operation is answered in the same way. -/
theorem exec_congr {i : Instr} {s s' t : State} {p' : Ports} (v : SameView s s' i.ports p')
    (h : exec i s = .next t) :
    ∃ t', exec (i.withPorts p') s' = .next t' ∧ SameAnswer s s' p' t t' := by
  obtain ⟨t', he, hans⟩ := (cycleEnds_of_next h).congr v
  have hwf := wf_of_next h
  exact ⟨t', next_of_cycleEnds (by rwa [Instr.withPorts_wf, v.config]) he, hans⟩

/-- The same request, to two states that show it the same. -/
theorem exec_congr_state {i : Instr} {s s' t : State} (v : SameView s s' i.ports i.ports)
    (h : exec i s = .next t) : ∃ t', exec i s' = .next t' ∧ SameAnswer s s' i.ports t t' := by
  simpa only [Instr.withPorts_self] using exec_congr v h

/-! # Noninterference -/

/-- One state, and two requests that show the same: only the opcode latches differ. -/
theorem exec_withLatches {i : Instr} {s t : State} (p' : Ports) (v : SameView s s i.ports p')
    (h : exec i s = .next t) : exec (i.withPorts p') s = .next (t.withLatches p') := by
  obtain ⟨t', ht', hans⟩ := exec_congr v h
  rw [ht', hans.latches rfl]

/-- Settles O44: a request with other latches, on which both predicates answer the same, shows a cycle the
same. -/
theorem latchesAreReadOnlyByThePredicates : Obligations.LatchesAreReadOnlyByThePredicates := by
  intro p o x b c s t hpriv heis
  have v : SameView s s p { p with opcode := o, opcodeX := x, indirect := b, bit29 := c } :=
    ⟨rfl, rfl, rfl, rfl, rfl, rfl, rfl, rfl, or_congr_right hpriv, heis, fun _ => ⟨rfl, rfl⟩⟩
  exact ⟨fun count => exec_withLatches _ v, fun data zone => exec_withLatches _ v, exec_withLatches _ v⟩

/-- What no cycle writes, and what cycle start writes in `lastCycle`. -/
theorem CycleEnds.kept {i : Instr} {s t : State} (h : CycleEnds i s t) :
    t.dsbr = s.dsbr ∧ t.amEnable = s.amEnable ∧ t.config = s.config ∧ t.lastCycle = some i.intent := by
  cases h <;> exact ⟨rfl, rfl, rfl, rfl⟩

/-- Settles O45: a cycle sees nothing of the working registers, `lastCycle` and `diag`. -/
theorem contextDoesNotCarryOver : Obligations.ContextDoesNotCarryOver := by
  intro i s s' t hdsbr ham hsdwam hptwam hmem hconfig h
  have v : SameView s s' i.ports i.ports :=
    ⟨rfl, rfl, rfl, rfl, rfl, hdsbr, hmem, hconfig, by rw [Bypassed, Bypassed, ham, hconfig],
      by rw [Uninterruptible, hconfig], fun _ => ⟨hsdwam, hptwam⟩⟩
  obtain ⟨t', h', hans⟩ := exec_congr_state v h
  obtain ⟨hd, ha, hc, hl⟩ := (cycleEnds_of_next h).kept
  obtain ⟨hd', ha', hc', hl'⟩ := (cycleEnds_of_next h').kept
  obtain ⟨hsdwam', hptwam'⟩ := hans.caches hsdwam hptwam
  exact ⟨t', h', hans.response, hans.trace, hans.path, hans.mem, hsdwam', hptwam',
    by rw [hd', hd, hdsbr], by rw [ha', ha, ham], by rw [hc', hc, hconfig], hans.acvFaults, hans.trr,
    by rw [hl', hl]⟩

/-- A bypassed step A leaves the SDWAM (rules R80, R82). -/
theorem sdwamAfterA_of_bypassed {s : State} {p : Ports} (d : Sdw) (hb : Bypassed s p) :
    sdwamAfterA s p d = s.sdwam := by
  rw [sdwamAfterA, if_pos (.inl hb), sdwamAfterWalk, if_neg fun h => h.2 hb]

/-- A bypassed cycle leaves the SDWAM. -/
theorem CycleEnds.sdwam_of_bypassed {i : Instr} {s t : State} (h : CycleEnds i s t)
    (hb : Bypassed s i.ports) : t.sdwam = s.sdwam := by
  cases h with
  | segmentFault => rfl
  | violation d => exact sdwamAfterA_of_bypassed d hb
  | absentPage d => exact sdwamAfterA_of_bypassed d hb
  | probe d => exact sdwamAfterA_of_bypassed d hb
  | unpaged d => exact sdwamAfterA_of_bypassed d hb
  | paged d => exact sdwamAfterA_of_bypassed d hb

/-- Settles O46: a bypassed cycle sees nothing of the associative memories. -/
theorem bypassedCycleIgnoresTheCaches : Obligations.BypassedCycleIgnoresTheCaches := by
  intro i s t am pm hb h
  have v : SameView s { s with sdwam := am, ptwam := pm } i.ports i.ports :=
    ⟨rfl, rfl, rfl, rfl, rfl, rfl, rfl, rfl, Iff.rfl, Iff.rfl, fun hn => absurd hb hn⟩
  obtain ⟨t', h', hans⟩ := exec_congr_state v h
  exact ⟨t', h', hans.response, hans.trace, hans.mem, (cycleEnds_of_next h').sdwam_of_bypassed hb⟩

end Sys2Proof.Machine

namespace Sys2Proof.Machine

/-! # The number of calls -/

theorem length_walkCalls_le (s : State) (p : Ports) : (walkCalls s p).length ≤ 3 := by
  unfold walkCalls
  (repeat' split) <;> simp

theorem length_segmentCalls_le (s : State) (p : Ports) (d : Sdw) :
    (segmentCalls s p d).length ≤ 5 := by
  have hwalk := length_walkCalls_le s p
  have hload : (loadCalls s p d).length ≤ 1 := by
    unfold loadCalls
    split <;> simp
  unfold segmentCalls
  split
  · simp only [List.length_cons, List.length_append]
    omega
  · simp

theorem length_resolveCalls_le (s : State) (p : Ports) (d : Sdw) (q : Ptw) :
    (resolveCalls s p d q).length ≤ 3 := by
  unfold resolveCalls
  (repeat' split) <;> simp

theorem length_probeCalls_le (i : Intent) (s : State) (p : Ports) (d : Sdw) :
    (probeCalls i s p d).length ≤ 1 := by
  unfold probeCalls
  split <;> simp

theorem length_markCalls_le (i : Intent) (p : Ports) (d : Sdw) (q : Ptw) :
    (markCalls i p d q).length ≤ 1 := by
  unfold markCalls
  split <;> simp

theorem length_transferCalls_le (f : PhysAddr) (i : Instr) : (transferCalls f i).length ≤ 1 := by
  unfold transferCalls
  split <;> simp

theorem SegmentFault.length_calls_le {i : Intent} {s : State} {p : Ports} {k : FaultKind} {d : Sdw}
    {m : Memory} {q : Ptw} {calls : List Call} (h : SegmentFault i s p k d m q calls) :
    calls.length ≤ 4 := by
  cases h with
  | beyond => simp
  | absentDsptw => simp
  | invalid => exact Nat.succ_le_succ (length_walkCalls_le s p)

/-- Settles O14: step A makes at most 5 calls, step I at most 5, and the transfer or the fault is one. -/
theorem atMostElevenCalls : Obligations.AtMostElevenCalls := by
  intro i s t h
  cases cycleEnds_of_next h with
  | segmentFault k d m q calls hf =>
    have := hf.length_calls_le
    simp only [raiseFault_trace, walked, List.length_append, List.length_singleton]
    omega
  | violation d =>
    have := length_segmentCalls_le s i.ports d
    simp only [raiseFault_trace, atG, atB, List.length_append, List.length_singleton]
    omega
  | absentPage d m q =>
    have := length_segmentCalls_le s i.ports d
    have := length_resolveCalls_le s i.ports d q
    simp only [raiseFault_trace, inI_trace, List.length_append, List.length_singleton]
    omega
  | probe d m q =>
    have := length_segmentCalls_le s i.ports d
    have := length_resolveCalls_le s i.ports d q
    have := length_probeCalls_le i.intent s i.ports d
    simp only [raiseFault_trace, inI_trace, List.length_append, List.length_singleton]
    omega
  | unpaged d =>
    have := length_segmentCalls_le s i.ports d
    have := length_transferCalls_le (unpagedAddr d i.ports.offset) i
    simp only [completed, List.length_append]
    omega
  | paged d m m' q f =>
    have := length_segmentCalls_le s i.ports d
    have := length_resolveCalls_le s i.ports d q
    have := length_probeCalls_le i.intent s i.ports d
    have := length_markCalls_le i.intent i.ports d q
    have := length_transferCalls_le f i
    simp only [completed, pageCalls, List.length_append]
    omega

/-! # A cycle that answers `Ok` -/

/-- A cycle that answers `Ok` has translated, and ends as step Exit completes. -/
theorem CycleEnds.completed_of_ok {i : Instr} {s t : State} (h : CycleEnds i s t)
    (hok : t.response.any Response.isOk = true) :
    ∃ d f m q am pm calls, Translates i.intent s i.ports d f m ∧
      t = completed i s d m q am pm f calls := by
  cases h with
  | segmentFault k => cases k <;> cases hok
  | violation => cases hok
  | absentPage => cases hok
  | probe => cases hok
  | unpaged d m hs hv hu => exact ⟨_, _, _, _, _, _, _, ⟨m, hs, hv, .inl ⟨hu, rfl, rfl⟩⟩, rfl⟩
  | paged d m m' q f hs hv hr => exact ⟨_, _, _, _, _, _, _, ⟨m, hs, hv, .inr ⟨q, hr⟩⟩, rfl⟩

section

variable (i : Instr) (s : State) (d : Sdw) (m : Memory) (q : Ptw) (am : AssocMem SegNo Sdw)
  (pm : AssocMem PtwKey Ptw) (f : PhysAddr) (calls : List Call)

@[simp] theorem completed_mem : (completed i s d m q am pm f calls).mem = memAfterTransfer f m i := (rfl)

@[simp] theorem completed_sdw : (completed i s d m q am pm f calls).sdw = d := (rfl)

@[simp] theorem completed_finalAddr : (completed i s d m q am pm f calls).finalAddr = f := (rfl)

@[simp] theorem completed_response : (completed i s d m q am pm f calls).response =
    some (.ok f (wordsRead f m i) (ringAfterChecks i.intent i.ports d)) := (rfl)

end

/-- Only a STORE's transfer writes memory (rules R165, R167). -/
theorem memAfterTransfer_of_ne_store {i : Instr} (f : PhysAddr) (m : Memory)
    (hi : i.intent ≠ .store) : memAfterTransfer f m i = m := by
  cases i with
  | read => rfl
  | store => exact absurd rfl hi
  | absa => rfl

/-- A STORE's transfer leaves the words outside its run (rules R101, R102). -/
theorem read_memAfterTransfer_outside (f : PhysAddr) (m : Memory) (p : Ports) (data : List Word)
    (zone : Option Word) {a : Nat} (ha : a < f.toNat ∨ f.toNat + data.length ≤ a) :
    Memory.read (memAfterTransfer f m (.store p data zone)) a = Memory.read m a := by
  cases zone with
  | none => exact Memory.read_writeRun_outside data m f.toNat a ha
  | some zone =>
    cases data with
    | nil => rfl
    | cons datum rest =>
      rw [List.length_cons] at ha
      exact Memory.read_write_other m _ (by omega)

/-! # Which words a cycle can change -/

/-- What a walk can leave of memory: as it was, or with the DSPTW, found clear, marked used (rules R96,
R122). -/
def SegmentMemory (s : State) (p : Ports) (m : Memory) : Prop :=
  m = s.mem ∨
    (SdwMiss s p ∧ s.dsbr.u = false ∧ (dsptwOf s p).u = false ∧
      m = Memory.write s.mem (dsptwAt s p) (Memory.read s.mem (dsptwAt s p) ||| 0x200#36))

theorem Walks.segmentMemory {s : State} {p : Ports} {d : Sdw} {m : Memory} (h : Walks s p d m) :
    SegmentMemory s p m :=
  h.memory.imp_right fun ⟨hm, hu, _, hused, hmem⟩ => ⟨hm, hu, hused, hmem⟩

theorem ResolvesSegment.segmentMemory {i : Intent} {s : State} {p : Ports} {d : Sdw} {m : Memory}
    (h : ResolvesSegment i s p d m) : SegmentMemory s p m := by
  rcases h with ⟨-, hm⟩ | ⟨hw, -⟩
  · exact .inl hm
  · exact hw.segmentMemory

theorem SegmentFault.segmentMemory {i : Intent} {s : State} {p : Ports} {k : FaultKind} {d : Sdw}
    {m : Memory} {q : Ptw} {calls : List Call} (h : SegmentFault i s p k d m q calls) :
    SegmentMemory s p m := by
  cases h with
  | beyond => exact .inl rfl
  | absentDsptw => exact .inl rfl
  | invalid d m hw => exact hw.segmentMemory

theorem SegmentMemory.read_other {s : State} {p : Ports} {m : Memory} (h : SegmentMemory s p m)
    (a : Nat) (ha : a ≠ dsptwAt s p) : Memory.read m a = Memory.read s.mem a := by
  rcases h with rfl | ⟨-, -, -, rfl⟩
  · rfl
  · exact Memory.read_write_other _ _ ha

theorem SegmentMemory.dsptw {s : State} {p : Ports} {m : Memory} (h : SegmentMemory s p m) :
    m = s.mem ∨
      (SdwMiss s p ∧ s.dsbr.u = false ∧ (dsptwOf s p).u = false ∧
        Memory.read m (dsptwAt s p) = Memory.read s.mem (dsptwAt s p) ||| 0x200#36) :=
  h.imp_right fun ⟨hm, hu, hused, hmem⟩ => ⟨hm, hu, hused, by rw [hmem, Memory.read_write_same]⟩

/-- Only a STORE marks the page (rule R156). -/
theorem memAfterMark_of_ne_store {i : Intent} (p : Ports) (d : Sdw) (m : Memory) (q : Ptw)
    (hi : i ≠ .store) : memAfterMark i p d m q = m :=
  if_neg fun h => hi h.1

/-- The mark changes no word but the page's PTW (rule R97). -/
theorem read_memAfterMark_other (i : Intent) {p : Ports} {d : Sdw} (m : Memory) (q : Ptw) {a : Nat}
    (ha : a ≠ ptwAt p d) : Memory.read (memAfterMark i p d m q) a = Memory.read m a := by
  unfold memAfterMark
  split
  · exact Memory.read_write_other _ _ ha
  · rfl

theorem FormsPagedAddress.mem_eq {i : Intent} {s : State} {p : Ports} {d : Sdw} {m m' : Memory}
    {q : Ptw} {f : PhysAddr} (h : FormsPagedAddress i s p d m q f m') (hi : i ≠ .store) : m' = m := by
  obtain ⟨-, -, -, -, -, -, rfl⟩ := h
  exact memAfterMark_of_ne_store p d m q hi

theorem Translates.segmentMemory {i : Intent} {s : State} {p : Ports} {d : Sdw} {f : PhysAddr}
    {m : Memory} (h : Translates i s p d f m) (hi : i ≠ .store) : SegmentMemory s p m := by
  obtain ⟨m₁, hs, -, ⟨-, -, rfl⟩ | ⟨q, hr⟩⟩ := h
  · exact hs.segmentMemory
  · rw [hr.mem_eq hi]
    exact hs.segmentMemory

/-- A translation changes no word but the DSPTW and, in a paged segment, the PTW of the page. -/
theorem Translates.read_other {i : Intent} {s : State} {p : Ports} {d : Sdw} {f : PhysAddr}
    {m : Memory} (h : Translates i s p d f m) {a : Nat} (ha : a ≠ dsptwAt s p)
    (hpage : d.u = false → a ≠ ptwAt p d) : Memory.read m a = Memory.read s.mem a := by
  obtain ⟨m₁, hs, -, ⟨-, -, rfl⟩ | ⟨q, hu, -, -, -, -, -, rfl⟩⟩ := h
  · exact hs.segmentMemory.read_other a ha
  · rw [read_memAfterMark_other i m₁ q (hpage hu)]
    exact hs.segmentMemory.read_other a ha

/-- A cycle that faults or stores nothing leaves memory as its walk does (rule R48). -/
theorem CycleEnds.segmentMemory {i : Instr} {s t : State} (h : CycleEnds i s t)
    (hc : i.intent ≠ .store ∨ t.response.any Response.isOk = false) :
    SegmentMemory s i.ports t.mem := by
  cases hok : t.response.any Response.isOk with
  | true =>
    have hi : i.intent ≠ .store := hc.resolve_right (by simp [hok])
    obtain ⟨d, f, m, q, am, pm, calls, ht, rfl⟩ := h.completed_of_ok hok
    rw [completed_mem, memAfterTransfer_of_ne_store f m hi]
    exact ht.segmentMemory hi
  | false =>
    cases h with
    | segmentFault k d m q calls hf => exact hf.segmentMemory
    | violation d m hs => exact hs.segmentMemory
    | absentPage d m q hs => exact hs.segmentMemory
    | probe d m q hs => exact hs.segmentMemory
    | unpaged => cases hok
    | paged => cases hok

/-- Settles O18: a cycle that faults or stores nothing changes what its walk does, and a STORE that
completes adds the mark of its page and the run of its words. -/
theorem cycleMemoryFrame : Obligations.CycleMemoryFrame := by
  intro i s t h
  have he := cycleEnds_of_next h
  refine ⟨fun hc => ⟨(he.segmentMemory hc).read_other, (he.segmentMemory hc).dsptw⟩, ?_⟩
  rintro p data zone rfl a hdsptw hptw hout
  cases hok : t.response.any Response.isOk with
  | true =>
    obtain ⟨d, f, m, q, am, pm, calls, ht, rfl⟩ := he.completed_of_ok hok
    exact (read_memAfterTransfer_outside f m p data zone hout).trans (ht.read_other hdsptw hptw)
  | false => exact (he.segmentMemory (.inr hok)).read_other a hdsptw

/-! # Words that are not there -/

/-- Settles O25: the refusals of step A and of step I through a word that is not there. -/
theorem unpopulatedDescriptorIsRefused : Obligations.UnpopulatedDescriptorIsRefused := by
  refine ⟨fun i s hi hmiss hb hp => ?_, fun i s d m hi hs hv hu => ⟨fun hm hp => ?_,
    fun q hr hq => ⟨fun ha hun hn => ?_, fun hn hst hqm hp => ?_⟩⟩⟩
  · rw [exec_wf i s hi, runCycle, stepA_unpopulated _ _ _ hmiss hb
      (by simpa only [and_or_left] using hp)]
    rfl
  · rw [exec_formAddress i s d m hi hs hv, formAddress_ptwUnpopulated _ _ _ _ _ _ _ _ hu hm hp]
    rfl
  · rw [exec_formAddress i s d m hi hs hv,
      formAddress_probeUnpopulated _ _ _ _ _ _ q _ _ hu hr hq ⟨ha, hun⟩ hn]
    rfl
  · rw [exec_formAddress i s d m hi hs hv,
      formAddress_markUnpopulated _ _ _ _ _ _ q _ _ hu hr hq hn ⟨hst, hqm⟩ hp]
    rfl

/-- Step Exit of a STORE (rule R166). -/
theorem stepExit_store (p : Ports) (data : List Word) {u : State} (hu : u.intent = .store) :
    stepExit (transferOf (.store p data none)) u =
      (coreWriteN u.recordDiag data).andThen fun v => respondOk v [] := by
  simp [stepExit, transferOf, hu]

/-- Step Exit of a zone STORE (rule R167). -/
theorem stepExit_zoneStore (p : Ports) (datum : Word) (rest : List Word) (zone : Word) {u : State}
    (hu : u.intent = .store) :
    stepExit (transferOf (.store p (datum :: rest) (some zone))) u =
      (coreWriteZone u.recordDiag datum zone).andThen fun v => respondOk v [] := by
  simp [stepExit, transferOf, hu]

section

variable (i : Instr) (s : State) (d : Sdw) (m : Memory) (q : Ptw) (am : AssocMem SegNo Sdw)
  (pm : AssocMem PtwKey Ptw) (f : PhysAddr) (calls : List Call)

/-- Step Exit where the run would leave the address space (rules R100, R101). -/
theorem stepExit_wraps (h : memSpace ≤ f.toNat + transferLength i - 1) :
    stepExit (transferOf i) (atExit i.intent i.ports s d m q am pm f calls) =
      .refuse .transferWraps := by
  have hf : f.toNat < memSpace := f.isLt
  rcases i with ⟨p, count⟩ | ⟨p, data, _ | zone⟩ | p
  · exact coreReadN_wraps (atExit .read p s d m q am pm f calls).recordDiag count
      (fun v ws => respondOk v ws) h
  · rw [stepExit_store p data (by rfl), coreWriteN_wraps _ data (by exact h)]
    rfl
  · simp only [transferLength] at h
    omega
  · simp only [transferLength] at h
    omega

/-- Step Exit where a word of the run is not there (rule R42). -/
theorem stepExit_unpopulated (hi : i.wf s.config.nMax = true)
    (hw : f.toNat + transferLength i - 1 < memSpace) {k : Nat} (hk : k < transferLength i)
    (hp : s.populated (f.toNat + k) = false) :
    stepExit (transferOf i) (atExit i.intent i.ports s d m q am pm f calls) =
      .refuse .unpopulatedMemory := by
  rcases i with ⟨p, count⟩ | ⟨p, data, _ | zone⟩ | p
  · exact coreReadN_unpopulated (atExit .read p s d m q am pm f calls).recordDiag count k
      (fun v ws => respondOk v ws) hw hk hp
  · rw [stepExit_store p data (by rfl),
      coreWriteN_unpopulated _ data k (by exact hw) hk (by exact hp)]
    rfl
  · cases data with
    | nil => simp [Instr.wf, Instr.illFormed] at hi
    | cons datum rest =>
      obtain rfl : k = 0 := Nat.lt_one_iff.1 hk
      rw [stepExit_zoneStore p datum rest zone (by rfl), coreWriteZone_eq]
      exact congrArg (Flow.andThen · _) (if_neg (Bool.eq_false_iff.1 hp))
  · exact absurd hk (Nat.not_lt_zero k)

end

section

variable {i : Instr} {s : State} {d : Sdw} {f : PhysAddr} {m : Memory}
  (hi : i.wf s.config.nMax = true) (ht : Translates i.intent s i.ports d f m)
include hi ht

/-- A cycle that translates is refused where its run would leave the address space. -/
theorem exec_wraps (hw : memSpace ≤ f.toNat + transferLength i - 1) :
    exec i s = .refused .transferWraps := by
  obtain ⟨q, am, pm, calls, hexec⟩ := exec_translates i s d hi f m ht
  rw [hexec, stepExit_wraps i s d m q am pm f calls hw]
  rfl

/-- A cycle that translates is refused where its run stays in the address space and meets a word that is
not there. -/
theorem exec_unpopulated (hw : f.toNat + transferLength i - 1 < memSpace) {k : Nat}
    (hk : k < transferLength i) (hp : s.populated (f.toNat + k) = false) :
    exec i s = .refused .unpopulatedMemory := by
  obtain ⟨q, am, pm, calls, hexec⟩ := exec_translates i s d hi f m ht
  rw [hexec, stepExit_unpopulated i s d m q am pm f calls hi hw hk hp]
  rfl

end

theorem wf_read (p : Ports) {count n : Nat} (h1 : 1 ≤ count) (h2 : count ≤ n) :
    (Instr.read p count).wf n = true := by
  simp [Instr.wf, Instr.illFormed, h1, h2]

theorem wf_store (p : Ports) {data : List Word} {n : Nat} (h1 : 1 ≤ data.length)
    (h2 : data.length ≤ n) : (Instr.store p data none).wf n = true := by
  simp [Instr.wf, Instr.illFormed, h1, h2]

theorem wf_zoneStore (p : Ports) (datum zone : Word) {n : Nat} (h : 1 ≤ n) :
    (Instr.store p [datum] (some zone)).wf n = true := by
  simp [Instr.wf, Instr.illFormed, h]

/-- Settles O43: step Exit refuses a run past the address space, for a READ and for a STORE. -/
theorem wrappingTransferIsRefused : Obligations.WrappingTransferIsRefused :=
  ⟨fun p _ _ _ _ _ h1 h2 ht hw => exec_wraps (wf_read p h1 h2) ht hw,
    fun p _ _ _ _ _ h1 h2 ht hw => exec_wraps (wf_store p h1 h2) ht hw⟩

/-- Settles O51: step Exit refuses a run that meets a word that is not there, for a READ, a STORE and a
zone STORE. -/
theorem unpopulatedOperandIsRefused : Obligations.UnpopulatedOperandIsRefused := by
  intro p s d f m k hp
  refine ⟨fun count h1 h2 ht hw hk => ?_, fun data h1 h2 ht hw hk => ?_,
    fun datum zone hn ht hk => ?_⟩
  · exact exec_unpopulated (wf_read p h1 h2) ht (by simp only [transferLength]; omega) hk hp
  · exact exec_unpopulated (wf_store p h1 h2) ht (by simp only [transferLength]; omega) hk hp
  · subst hk
    exact exec_unpopulated (wf_zoneStore p datum zone hn) ht f.isLt Nat.one_pos hp

/-! # A word stored is read back -/

/-- After a STORE word `k` of its run holds datum `k` (rule R101). -/
theorem read_of_exec_store {p : Ports} {data ws : List Word} {s t : State} {f : PhysAddr} {r : Ring}
    (h : exec (.store p data none) s = .next t) (hres : t.response = some (.ok f ws r)) {k : Nat}
    (hk : k < data.length) : Memory.read t.mem (f.toNat + k) = data[k] := by
  obtain ⟨d, f', m, q, am, pm, calls, -, rfl⟩ :=
    (cycleEnds_of_next h).completed_of_ok (by rw [hres]; rfl)
  cases hres
  exact Memory.read_writeRun_inside data m f.toNat k hk

/-- A READ delivers the words of its run as the cycle leaves them (rule R100). -/
theorem getElem?_of_exec_read {p : Ports} {count : Nat} {rdata : List Word} {s t : State}
    {f : PhysAddr} {r : Ring} (h : exec (.read p count) s = .next t)
    (hres : t.response = some (.ok f rdata r)) {k : Nat} (hk : k < count) :
    rdata[k]? = some (Memory.read t.mem (f.toNat + k)) := by
  obtain ⟨d, f', m, q, am, pm, calls, -, rfl⟩ :=
    (cycleEnds_of_next h).completed_of_ok (by rw [hres]; rfl)
  cases hres
  exact Memory.getElem?_readRun m count f.toNat k hk

/-- Settles O49: the READ delivers the words as its walk leaves them, and the STORE has written them. -/
theorem storedWordsAreReadBack : Obligations.StoredWordsAreReadBack := by
  intro p p' data rdata count s t t' f r r' ws hstore hres hread hres' k hk hk' hkept
  rw [getElem?_of_exec_read hread hres' hk, hkept, read_of_exec_store hstore hres hk',
    List.getElem?_eq_getElem hk']

/-! # The same request again -/

/-- Bit 9 of a PTW is its used flag, and no other field holds it (rule R65). -/
theorem decodePtw_or_used (w : Word) :
    decodePtw (w ||| 0x200#36) = { decodePtw w with u := true } := by
  simp [decodePtw, BitVec.extractLsb'_or]

/-- A lookup that has missed (`b` is bypass) and then installed its record, unless it was bypassed or the
record invalid, misses again or finds that record. -/
theorem lookup_after_install {κ ρ : Type} [DecidableEq κ] {size : Nat} {am am' : AssocMem κ ρ} {k : κ}
    {r : ρ} {valid b : Prop} [Decidable valid] [Decidable b] (hmiss : b ∨ amLookup am k = none)
    (ham : am' = if valid ∧ ¬b then amInstall size am k r else am) :
    (b ∨ amLookup am' k = none) ∨ (¬b ∧ amLookup am' k = some r) := by
  by_cases hb : b
  · exact .inl (.inl hb)
  subst ham
  split
  · rcases Nat.eq_zero_or_pos size with rfl | hsize
    · exact .inl (.inr rfl)
    · exact .inr ⟨hb, amLookup_install_same size am k r hsize⟩
  · exact .inl (.inr (hmiss.resolve_left hb))

/-- The state `t` has what no cycle of `s` writes: `DSBR`, `AM_ENABLE` and the parameters. -/
structure SameSetting (s t : State) : Prop where
  dsbr : t.dsbr = s.dsbr
  amEnable : t.amEnable = s.amEnable
  config : t.config = s.config

theorem CycleEnds.sameSetting {i : Instr} {s t : State} (h : CycleEnds i s t) : SameSetting s t := by
  obtain ⟨hdsbr, ham, hconfig, -⟩ := h.kept
  exact ⟨hdsbr, ham, hconfig⟩

/-- Once the walk of `s` has marked the DSPTW used, it is found as it was but for the used flag. -/
theorem decodePtw_memAfterUse (s : State) (p : Ports) :
    decodePtw (Memory.read (memAfterUse s p) (dsptwAt s p)) = { dsptwOf s p with u := true } := by
  unfold memAfterUse
  split
  · rename_i h
    rw [← h]
  · rw [Memory.read_write_same, decodePtw_or_used]

namespace SameSetting

variable {s t : State} (v : SameSetting s t)
include v

theorem bypassed (p : Ports) : Bypassed t p ↔ Bypassed s p := by
  rw [Bypassed, Bypassed, v.amEnable, v.config]

theorem populated (a : Nat) : t.populated a = s.populated a := by
  simp only [State.populated, v.config]

theorem withinDsBound (p : Ports) : WithinDsBound t p ↔ WithinDsBound s p := by
  simp only [WithinDsBound, v.config, v.dsbr]

theorem dsptwAt (p : Ports) : dsptwAt t p = dsptwAt s p := by
  simp only [Machine.dsptwAt, v.dsbr]

variable {p : Ports} {i : Intent} {d : Sdw} {m : Memory}

/-- A walk finds again what a walk has found and marked, in the memory that it left (rules R48, R96). -/
theorem walks_again (h : Walks s p d m) (hmem : t.mem = m) (hmiss : SdwMiss t p) : Walks t p d m := by
  obtain ⟨-, hb, ⟨hu, rfl, hp, rfl⟩ | ⟨hu, hp, hd, rfl, hq, rfl⟩⟩ := h
  · refine ⟨hmiss, (v.withinDsBound p).2 hb, .inl ⟨?_, hmem.symm, ?_, ?_⟩⟩
    · rwa [v.dsbr]
    · simpa only [PairPopulated, v.dsbr, v.populated] using hp
    · rw [hmem, v.dsbr]
  · have hof : dsptwOf t p = { dsptwOf s p with u := true } := by
      rw [Machine.dsptwOf, v.dsptwAt, hmem, decodePtw_memAfterUse]
    have hused : t.mem = memAfterUse t p := (if_pos (by rw [hof])).symm
    have haddr : psdwAddr t.config.frameMask (dsptwOf t p) p.segno =
        psdwAddr s.config.frameMask (dsptwOf s p) p.segno := by
      rw [hof, v.config]
      rfl
    refine ⟨hmiss, (v.withinDsBound p).2 hb, .inr ⟨?_, ?_, ?_, ?_, ?_, ?_⟩⟩
    · rwa [v.dsbr]
    · rwa [v.dsptwAt, v.populated]
    · rwa [hof]
    · rw [← hused, hmem]
    · rw [haddr]
      simpa only [PairPopulated, v.populated] using hq
    · rw [haddr]

/-- The descriptor a cycle has resolved is resolved again: cached, or walked for again. -/
theorem resolvesSegment_again (h : ResolvesSegment i s p d m) (hmem : t.mem = m)
    (ham : t.sdwam = sdwamAfterA s p d) : ResolvesSegment i t p d m := by
  rcases h with ⟨⟨hb, hl⟩, rfl⟩ | ⟨hw, hd⟩
  · refine .inl ⟨⟨mt (v.bypassed p).1 hb, ?_⟩, hmem.symm⟩
    rw [ham, sdwamAfterA, if_neg (not_miss_of_hit ⟨hb, hl⟩), amLookup_touch, hl]
  · rw [sdwamAfterA, if_pos hw.1] at ham
    have hlook := lookup_after_install hw.1 ham
    rw [← v.bypassed] at hlook
    rcases hlook with hmiss | hhit
    · exact .inr ⟨v.walks_again hw hmem hmiss, hd⟩
    · exact .inl ⟨hhit, hmem.symm⟩

/-- The page a cycle has resolved is resolved again: cached, or read again. -/
theorem resolvesPage_again {q : Ptw} (h : ResolvesPage s p d m q)
    (ham : t.ptwam = ptwamAfterResolve s p d q) : ResolvesPage t p d m q := by
  rcases h with ⟨hb, hl⟩ | ⟨hm, hp, hq⟩
  · refine .inl ⟨mt (v.bypassed p).1 hb, ?_⟩
    rw [ham, ptwamAfterResolve, if_neg (not_ptwMiss_of_hit ⟨hb, hl⟩), amLookup_touch, hl]
  · rw [ptwamAfterResolve, if_pos hm] at ham
    have hlook := lookup_after_install hm ham
    rw [← v.bypassed] at hlook
    rcases hlook with hmiss | hhit
    · exact .inr ⟨hmiss, by rwa [v.populated], hq⟩
    · exact .inl hhit

/-- A fault of step A is met again. -/
theorem segmentFault_again {k : FaultKind} {q : Ptw} {calls : List Call}
    (h : SegmentFault i s p k d m q calls) (hmem : t.mem = m) (ham : t.sdwam = s.sdwam) :
    ∃ d' q' calls', SegmentFault i t p k d' m q' calls' := by
  have hmiss : SdwMiss s p → SdwMiss t p := by
    rw [SdwMiss, SdwMiss, v.bypassed, ham]
    exact id
  cases h with
  | beyond hm hb =>
    rw [← hmem]
    exact ⟨_, _, _, .beyond (hmiss hm) (mt (v.withinDsBound p).1 hb)⟩
  | absentDsptw hm hb hu hp hd =>
    have hof : dsptwOf t p = dsptwOf s p := by simp only [Machine.dsptwOf, v.dsptwAt, hmem]
    have hf := SegmentFault.absentDsptw (i := i) (hmiss hm) ((v.withinDsBound p).2 hb)
      (by rwa [v.dsbr]) (by rwa [v.dsptwAt, v.populated]) (by rwa [hof])
    rw [hof, hmem] at hf
    exact ⟨_, _, _, hf⟩
  | invalid d m hw hi hd =>
    exact ⟨_, _, _, .invalid d m (v.walks_again hw hmem (hmiss hw.1)) hi hd⟩

theorem probes (i : Intent) (p : Ports) : Probes i t p ↔ Probes i s p := by
  rw [Probes, Probes, Uninterruptible, Uninterruptible, v.config]

/-- The address is formed again, from the PTWAM as the resolved page left it. -/
theorem formsPagedAddress_again {q : Ptw} {f : PhysAddr} {m' : Memory}
    (h : FormsPagedAddress i s p d m q f m') (ham : t.ptwam = ptwamAfterResolve s p d q) :
    FormsPagedAddress i t p d m q f m' := by
  obtain ⟨hu, hr, hq, hn, hm, hf, hm'⟩ := h
  refine ⟨hu, v.resolvesPage_again hr ham, hq, fun ha hun => ?_, fun ha hx => ?_, ?_, hm'⟩
  · rw [v.populated]
    exact hn ha ((v.probes i p).1 ⟨ha, hun⟩).2
  · rw [v.populated]
    exact hm ha hx
  · rwa [v.config]

end SameSetting

/-- A cycle that faults or stores nothing ends in the same way again (rules R48, R176). -/
theorem CycleEnds.again {i : Instr} {s t : State} (h : CycleEnds i s t)
    (hc : i.intent ≠ .store ∨ t.response.any Response.isOk = false) :
    ∃ t', CycleEnds i t t' ∧ t'.response = t.response ∧ t'.mem = t.mem := by
  have v := h.sameSetting
  cases h with
  | segmentFault k d m q calls hf =>
    obtain ⟨d', q', calls', hf'⟩ := v.segmentFault_again hf rfl rfl
    exact ⟨_, .segmentFault k d' m q' calls' hf', rfl, rfl⟩
  | violation d m hs hv =>
    exact ⟨_, .violation d m (v.resolvesSegment_again hs rfl rfl) hv, rfl, rfl⟩
  | absentPage d m q hs hv hu hr ha hq =>
    exact ⟨_, .absentPage d m q (v.resolvesSegment_again hs rfl rfl) hv hu
      (v.resolvesPage_again hr rfl) ha hq, rfl, rfl⟩
  | probe d m q hs hv hu hr hq hx hn hf =>
    exact ⟨_, .probe d m q (v.resolvesSegment_again hs rfl rfl) hv hu (v.resolvesPage_again hr rfl) hq
      ((v.probes _ _).2 hx) hn hf, rfl, rfl⟩
  | unpaged d m hs hv hu hw hp =>
    have hi : i.intent ≠ .store := hc.resolve_right nofun
    have hmem := memAfterTransfer_of_ne_store (unpagedAddr d i.ports.offset) m hi
    exact ⟨_, .unpaged d m (v.resolvesSegment_again hs hmem rfl) hv hu hw hp, rfl, hmem ▸ rfl⟩
  | paged d m m' q f hs hv hr hw hp =>
    have hi : i.intent ≠ .store := hc.resolve_right nofun
    have hmem := memAfterTransfer_of_ne_store f m' hi
    exact ⟨_, .paged d m m' q f (v.resolvesSegment_again hs (hmem.trans (hr.mem_eq hi)) rfl) hv
      (v.formsPagedAddress_again hr (if_neg fun hm => hi hm.1)) hw hp, rfl, hmem ▸ rfl⟩

/-- Settles O48: the cycle ends in the same way again, and a well-formed operation answers that end. -/
theorem repeatedCycleIsIdempotent : Obligations.RepeatedCycleIsIdempotent := by
  intro i s t h hc
  have he := cycleEnds_of_next h
  obtain ⟨t', he', hres, hmem⟩ := he.again hc
  exact ⟨t', next_of_cycleEnds (by rw [he.sameSetting.config]; exact wf_of_next h) he', hres, hmem⟩

end Sys2Proof.Machine


namespace Sys2Proof

/-! # Decoding and encoding -/

/-- Every way in which a port bundle can be an operation (rules R60, R70). -/
theorem decode_ok_cases {r : Request} {i : Instr} (h : decode r = .ok i) :
    (r.intent = Intent.code .read ∧ i = .read r.ports r.count) ∨
      (r.intent = Intent.code .store ∧ r.data.length = r.count ∧
        i = .store r.ports r.data (if r.zoneMode then some r.zone else none)) ∨
      (r.intent = Intent.code .absa ∧ i = .absa r.ports) := by
  unfold decode at h
  split at h
  · cases h
    exact .inl ⟨‹_›, rfl⟩
  · split at h
    · split at h
      · cases h
        exact .inr (.inl ⟨‹_›, ‹_›, rfl⟩)
      · cases h
    · split at h
      · cases h
        exact .inr (.inr ⟨‹_›, rfl⟩)
      · cases h

/-- The operation that was encoded is decoded (rules R60, R71). -/
theorem decode_encode (i : Instr) : decode (encode i) = .ok i := by
  cases i with
  | read p count => rfl
  | store p data zone =>
    have hcode : Intent.code .store ≠ Intent.code .read := by decide
    cases zone <;> simp [decode, encode, hcode]
  | absa p => rfl

/-- A bundle is no operation of rule R70 exactly if its code is none of the three. -/
theorem decode_unknownIntent_iff_ne_codes (r : Request) :
    decode r = .error .unknownIntent ↔
      r.intent ≠ Intent.code .read ∧ r.intent ≠ Intent.code .store ∧
        r.intent ≠ Intent.code .absa := by
  unfold decode
  split
  · simp [*]
  · split
    · split <;> simp [*]
    · split <;> simp [*]

/-- The one code of two bits besides the codes of the three operations (rule R70). -/
theorem ne_codes_iff_reserved : ∀ code : BitVec 2,
    (code ≠ Intent.code .read ∧ code ≠ Intent.code .store ∧ code ≠ Intent.code .absa) ↔
      code = 0b11#2 := by
  decide

/-- The decoder refuses the reserved code and no other (rules R61, R71). -/
theorem decode_unknownIntent_iff (r : Request) :
    decode r = .error .unknownIntent ↔ r.intent = 0b11#2 :=
  (decode_unknownIntent_iff_ne_codes r).trans (ne_codes_iff_reserved r.intent)

/-- Settles O1: decoding undoes encoding, and each of the three operations that a bundle can be holds
the ports that it has. -/
theorem decodeOfEncodeIsTheOperation : Obligations.DecodeOfEncodeIsTheOperation := by
  refine ⟨decode_encode, fun r i h => ?_⟩
  rcases decode_ok_cases h with ⟨hcode, rfl⟩ | ⟨hcode, hlen, rfl⟩ | ⟨hcode, rfl⟩
  · exact ⟨hcode.symm, rfl, rfl, fun _ => rfl, nofun⟩
  · refine ⟨hcode.symm, rfl, rfl, fun _ => hlen, fun _ => ⟨rfl, ?_, fun hz => ?_⟩⟩
    · cases r.zoneMode <;> rfl
    · simp [encode, hz]
  · exact ⟨hcode.symm, rfl, rfl, fun h => absurd rfl h, nofun⟩

end Sys2Proof

namespace Sys2Proof.Machine

/-- Settles O3: the reserved code is the one that the decoder refuses, and a step decodes what has
arrived before it runs it. -/
theorem reservedIntentIsRefused : Obligations.ReservedIntentIsRefused := by
  refine ⟨decode_unknownIntent_iff, fun s r rest hidle hin hcode => ?_⟩
  rw [step_request hidle hin, (decode_unknownIntent_iff r).2 hcode]
  rfl

/-- Settles O4: three of the bundles are encodings, of which the decoder gives back the operation; the
fourth differs from one in ports that an ABSA does not have, and the two words are cut into their
fields. -/
theorem sampleEncodingsDecode : Obligations.SampleEncodingsDecode :=
  ⟨decode_encode (.read _ _), decode_encode (.store _ _ (some _)), decode_encode (.store _ _ none),
    rfl, by decide, by decide⟩

/-! # Requests that are not well formed -/

/-- A READ with a count that rule R61 rejects. -/
theorem illFormed_read (p : Ports) {count nMax : Nat} (h : count = 0 ∨ nMax < count) :
    (Instr.read p count).illFormed nMax = some .badCount :=
  if_neg (by omega)

/-- A STORE with a count that rule R61 rejects, whether or not it is a zone write. -/
theorem illFormed_store (p : Ports) {data : List Word} (zone : Option Word) {nMax : Nat}
    (h : data.length = 0 ∨ nMax < data.length) :
    (Instr.store p data zone).illFormed nMax = some .badCount :=
  if_neg (by omega)

/-- A zone write of an admitted count other than 1. -/
theorem illFormed_zoneStore (p : Ports) {data : List Word} (zone : Word) {nMax : Nat}
    (h1 : 1 ≤ data.length) (h2 : data.length ≤ nMax) (h : data.length ≠ 1) :
    (Instr.store p data (some zone)).illFormed nMax = some .zoneCount := by
  rw [Instr.illFormed, if_pos ⟨h1, h2⟩, if_pos ⟨rfl, h⟩]

/-- Settles O42: each of the requests fails a check of rule R61, and is refused by its name. -/
theorem illFormedRequestsAreRefused : Obligations.IllFormedRequestsAreRefused :=
  ⟨fun p _ s h => exec_illFormed _ s _ (illFormed_read p h),
    fun p _ zone s h => exec_illFormed _ s _ (illFormed_store p zone h),
    fun p _ zone s h1 h2 h => exec_illFormed _ s _ (illFormed_zoneStore p zone h1 h2 h)⟩

end Sys2Proof.Machine

namespace Sys2Proof.Machine

/-! # Descriptor words -/

/-- The bits of a word that a field of `n` bits from bit `low` takes. -/
def fieldMask (low n : Nat) : Word := fieldAt (BitVec.allOnes n) low

/-- A field read from a word and put in its place again is the word's bits there. -/
theorem fieldAt_extractLsb' (w : Word) (low n : Nat) :
    fieldAt (w.extractLsb' low n) low = w &&& fieldMask low n := by
  refine BitVec.eq_of_getLsbD_eq fun k hk => ?_
  simp only [fieldMask, BitVec.getLsbD_and, getLsbD_fieldAt, BitVec.getLsbD_extractLsb',
    BitVec.getLsbD_allOnes, hk]
  by_cases hlow : k < low
  · simp [hlow]
  · simp [hlow, Nat.add_sub_cancel' (Nat.not_lt.1 hlow), Bool.and_comm]

/-- A flag is a field of one bit. -/
theorem ofBool_getLsbD (w : Word) (low : Nat) :
    BitVec.ofBool (w.getLsbD low) = w.extractLsb' low 1 := by
  refine BitVec.eq_of_getLsbD_eq fun k hk => ?_
  obtain rfl : k = 0 := Nat.lt_one_iff.1 hk
  simp

/-- A flag read from a word and put in its place again is the word's bit there. -/
theorem flagAt_getLsbD (w : Word) (low : Nat) :
    flagAt (w.getLsbD low) low = w &&& fieldMask low 1 := by
  rw [flagAt, ofBool_getLsbD, fieldAt_extractLsb']

/-- A field put in its place is read from there. -/
theorem extractLsb'_fieldAt_same {n : Nat} (x : BitVec n) {low : Nat} (h : low + n ≤ 36) :
    (fieldAt x low).extractLsb' low n = x := by
  refine BitVec.eq_of_getLsbD_eq fun k hk => ?_
  have hin : low + k < 36 := by omega
  rw [BitVec.getLsbD_extractLsb', getLsbD_fieldAt]
  simp [hk, hin]

/-- No bit outside its place is a bit of a field. -/
theorem getLsbD_fieldAt_outside {n : Nat} (x : BitVec n) {low k : Nat} (h : k < low ∨ low + n ≤ k) :
    (fieldAt x low).getLsbD k = false := by
  rw [getLsbD_fieldAt]
  rcases h with h | h
  · simp [h]
  · rw [BitVec.getLsbD_of_ge x _ (by omega), Bool.and_false]

/-- A field put beside another one's place is not read there. -/
theorem extractLsb'_fieldAt_outside {n : Nat} (x : BitVec n) {low start len : Nat}
    (h : start + len ≤ low ∨ low + n ≤ start) : (fieldAt x low).extractLsb' start len = 0#len := by
  refine BitVec.eq_of_getLsbD_eq fun k hk => ?_
  rw [BitVec.getLsbD_extractLsb', getLsbD_fieldAt_outside x (by omega), Bool.and_false,
    BitVec.getLsbD_zero]

/-- A flag put beside a field's place is not read there. -/
theorem extractLsb'_flagAt_outside (b : Bool) {low start len : Nat}
    (h : start + len ≤ low ∨ low < start) : (flagAt b low).extractLsb' start len = 0#len :=
  extractLsb'_fieldAt_outside _ h

/-- The fields of a descriptor are read back from its two words (rule R64). -/
theorem decodeSdw_encodeSdw (d : Sdw) (h : d.pointer = d.addr) :
    decodeSdw (encodeSdwEven d) (encodeSdwOdd d) = d := by
  obtain ⟨addr, r1, r2, r3, df, fc, bound, r, e, w, p, u, g, c, eb, pointer⟩ := d
  obtain rfl : pointer = addr := h
  simp (disch := omega) [-BitVec.getLsbD_eq_getElem, decodeSdw, encodeSdwEven, encodeSdwOdd,
    BitVec.extractLsb'_or, extractLsb'_fieldAt_same, extractLsb'_fieldAt_outside,
    extractLsb'_flagAt_outside, getLsbD_fieldAt_outside, getLsbD_flagAt]

/-- The fields of a page table word are read back from it (rule R65). -/
theorem decodePtw_encodePtw (q : Ptw) : decodePtw (encodePtw q) = q := by
  obtain ⟨addr, u, m, df, fc⟩ := q
  simp (disch := omega) [-BitVec.getLsbD_eq_getElem, decodePtw, encodePtw, BitVec.extractLsb'_or,
    extractLsb'_fieldAt_same, extractLsb'_fieldAt_outside, extractLsb'_flagAt_outside,
    getLsbD_fieldAt_outside, getLsbD_flagAt]

/-- The fields of an even word use all its bits (rule R64). -/
theorem encodeSdwEven_decodeSdw (even odd : Word) : encodeSdwEven (decodeSdw even odd) = even := by
  have hmask : fieldMask 12 24 ||| fieldMask 9 3 ||| fieldMask 6 3 ||| fieldMask 3 3 |||
      fieldMask 2 1 ||| fieldMask 0 2 = BitVec.allOnes 36 := by decide
  simp only [encodeSdwEven, decodeSdw, fieldAt_extractLsb', flagAt_getLsbD,
    ← BitVec.and_or_distrib_left, hmask, BitVec.and_allOnes]

/-- The fields of an odd word use all its bits but bit 35 (rule R64). -/
theorem encodeSdwOdd_decodeSdw (even odd : Word) :
    encodeSdwOdd (decodeSdw even odd) = odd &&& 0x7FFFFFFFF#36 := by
  have hmask : fieldMask 21 14 ||| fieldMask 20 1 ||| fieldMask 19 1 ||| fieldMask 18 1 |||
      fieldMask 17 1 ||| fieldMask 16 1 ||| fieldMask 15 1 ||| fieldMask 14 1 ||| fieldMask 0 14 =
        0x7FFFFFFFF#36 := by decide
  simp only [encodeSdwOdd, decodeSdw, fieldAt_extractLsb', flagAt_getLsbD,
    ← BitVec.and_or_distrib_left, hmask]

/-- The bits that the fields of a page table word use (rule R65). -/
theorem encodePtw_decodePtw (w : Word) : encodePtw (decodePtw w) = w &&& 0xFFFFC0247#36 := by
  have hmask : fieldMask 18 18 ||| fieldMask 9 1 ||| fieldMask 6 1 ||| fieldMask 2 1 |||
      fieldMask 0 2 = 0xFFFFC0247#36 := by decide
  simp only [encodePtw, decodePtw, fieldAt_extractLsb', flagAt_getLsbD,
    ← BitVec.and_or_distrib_left, hmask]

/-- Settles O2: each field is read from its own place, and the places together are the bits used. -/
theorem descriptorWordsRoundTrip : Obligations.DescriptorWordsRoundTrip :=
  ⟨decodeSdw_encodeSdw,
    fun even odd => ⟨encodeSdwEven_decodeSdw even odd, encodeSdwOdd_decodeSdw even odd, rfl⟩,
    decodePtw_encodePtw, encodePtw_decodePtw⟩

end Sys2Proof.Machine

namespace Sys2Proof.Machine

/-! # The invariant: the associative memories -/

/-- An associative memory that holds at most `size` entries and no key twice (rules R83, R87). -/
def AmBounded {κ ρ : Type} (size : Nat) (am : AssocMem κ ρ) : Prop :=
  am.length ≤ size ∧ (am.map Prod.fst).Nodup

theorem amBounded_iff (s : State) :
    s.amBounded = true ↔
      AmBounded s.config.amSizeSdw s.sdwam ∧ AmBounded s.config.amSizePtw s.ptwam := by
  simp only [State.amBounded, AmBounded, Bool.and_eq_true, decide_eq_true_eq]
  tauto

section

variable {κ ρ : Type} {size : Nat}

theorem amBounded_nil : AmBounded size ([] : AssocMem κ ρ) :=
  ⟨Nat.zero_le size, List.nodup_nil⟩

variable [DecidableEq κ] {am : AssocMem κ ρ}

theorem AmBounded.remove (h : AmBounded size am) (k : κ) : AmBounded size (amRemove am k) :=
  ⟨(length_amRemove am k).trans h.1, keys_amRemove_nodup am k h.2⟩

theorem AmBounded.touch (h : AmBounded size am) (k : κ) : AmBounded size (amTouch am k) :=
  ⟨(length_amTouch am k).trans h.1, keys_amTouch_nodup am k h.2⟩

theorem AmBounded.install (h : AmBounded size am) (k : κ) (r : ρ) :
    AmBounded size (amInstall size am k r) :=
  ⟨length_amInstall size am k r, keys_amInstall_nodup size am k r h.2⟩

theorem AmBounded.update (h : AmBounded size am) (k : κ) (f : ρ → ρ) :
    AmBounded size (amUpdate am k f) := by
  rwa [AmBounded, length_amUpdate, keys_amUpdate]

end

/-- Step A touches an entry of the SDWAM, installs one, or leaves it (rules R80, R82). -/
theorem amBounded_sdwamAfterA {s : State} (p : Ports) (d : Sdw)
    (h : AmBounded s.config.amSizeSdw s.sdwam) :
    AmBounded s.config.amSizeSdw (sdwamAfterA s p d) := by
  unfold sdwamAfterA sdwamAfterWalk
  split
  · split
    · exact h.install p.segno d
    · exact h
  · exact h.touch p.segno

/-- The resolution of a page touches an entry of the PTWAM, installs one, or leaves it (rules R84,
R86). -/
theorem amBounded_ptwamAfterResolve {s : State} (p : Ports) (d : Sdw) (q : Ptw)
    (h : AmBounded s.config.amSizePtw s.ptwam) :
    AmBounded s.config.amSizePtw (ptwamAfterResolve s p d q) := by
  unfold ptwamAfterResolve
  split
  · split
    · exact h.install _ q
    · exact h
  · exact h.touch _

/-- The mark changes a record of the PTWAM in its place (rule R97). -/
theorem amBounded_ptwamAfterMark {size : Nat} {pm : AssocMem PtwKey Ptw} (i : Intent) (p : Ports)
    (d : Sdw) (q : Ptw) (h : AmBounded size pm) : AmBounded size (ptwamAfterMark i p d q pm) := by
  unfold ptwamAfterMark
  split
  · exact h.update _ _
  · exact h

/-- A cycle keeps the associative memories bounded. -/
theorem CycleEnds.amBounded {i : Instr} {s t : State} (h : CycleEnds i s t)
    (hs : s.amBounded = true) : t.amBounded = true := by
  rw [amBounded_iff] at hs ⊢
  obtain ⟨hsdw, hptw⟩ := hs
  have hA := fun d => amBounded_sdwamAfterA i.ports d hsdw
  have hI := fun d q => amBounded_ptwamAfterResolve i.ports d q hptw
  cases h with
  | segmentFault => exact ⟨hsdw, hptw⟩
  | violation d => exact ⟨hA d, hptw⟩
  | absentPage d m q => exact ⟨hA d, hI d q⟩
  | probe d m q => exact ⟨hA d, hI d q⟩
  | unpaged d => exact ⟨hA d, hptw⟩
  | paged d m m' q => exact ⟨hA d, amBounded_ptwamAfterMark _ _ d q (hI d q)⟩

/-! # The invariant: memory -/

/-- A write to a physical address keeps the canonical form: every one is below 2^24 (rule R41). -/
theorem Memory.wf_write_toNat {m : Memory} (a : PhysAddr) (v : Word) (h : Memory.wf m = true) :
    Memory.wf (Memory.write m a.toNat v) = true :=
  Memory.wf_write m a.toNat v a.isLt h

theorem SegmentMemory.wf {s : State} {p : Ports} {m : Memory} (h : SegmentMemory s p m)
    (hs : Memory.wf s.mem = true) : Memory.wf m = true := by
  rcases h with rfl | ⟨-, -, -, rfl⟩
  · exact hs
  · exact Memory.wf_write_toNat _ _ hs

theorem wf_memAfterMark (i : Intent) (p : Ports) (d : Sdw) {m : Memory} (q : Ptw)
    (h : Memory.wf m = true) : Memory.wf (memAfterMark i p d m q) = true := by
  unfold memAfterMark
  split
  · exact Memory.wf_write_toNat _ _ h
  · exact h

/-- A transfer within the address space keeps the canonical form (rules R100 to R102). -/
theorem wf_memAfterTransfer {i : Instr} {f : PhysAddr} {m : Memory}
    (hw : f.toNat + transferLength i - 1 < memSpace) (h : Memory.wf m = true) :
    Memory.wf (memAfterTransfer f m i) = true := by
  have hf : f.toNat < memSpace := f.isLt
  rcases i with _ | ⟨p, data, _ | zone⟩ | _
  · exact h
  · simp only [transferLength] at hw
    exact Memory.wf_writeRun data m f.toNat (by omega) h
  · cases data with
    | nil => exact h
    | cons => exact Memory.wf_write_toNat f _ h
  · exact h

/-- A cycle keeps memory in canonical form. -/
theorem CycleEnds.wf_mem {i : Instr} {s t : State} (h : CycleEnds i s t)
    (hs : Memory.wf s.mem = true) : Memory.wf t.mem = true := by
  cases h with
  | segmentFault k d m q calls hf => exact hf.segmentMemory.wf hs
  | violation d m hr => exact hr.segmentMemory.wf hs
  | absentPage d m q hr => exact hr.segmentMemory.wf hs
  | probe d m q hr => exact hr.segmentMemory.wf hs
  | unpaged d m hr hv hu hw => exact wf_memAfterTransfer hw (hr.segmentMemory.wf hs)
  | paged d m m' q f hr hv hp hw =>
    obtain ⟨-, -, -, -, -, -, rfl⟩ := hp
    exact wf_memAfterTransfer hw (wf_memAfterMark _ _ d q (hr.segmentMemory.wf hs))

/-! # The invariant: the mask, and the step -/

/-- A mask with bits of `used` alone is legal, if `used` has no bit that the block never sets. -/
theorem acvLegal_of_and_eq_zero {s : State} {used : AcvMask} (h : s.acvFaults &&& ~~~used = 0)
    (hused : ~~~used &&& acvNeverSet = acvNeverSet) : s.acvLegal = true := by
  rw [State.acvLegal, beq_iff_eq, ← hused, ← BitVec.and_assoc, h]
  exact BitVec.zero_and

/-- A cycle leaves only bits in `acvFaults` that the block can set (rules R68, R192 (b)). -/
theorem acvLegal_of_next {i : Instr} {s t : State} (h : exec i s = .next t) :
    t.acvLegal = true := by
  obtain ⟨hread, hstore, -⟩ := maskHoldsOnlyBitsOfTheIntent i s t h
  by_cases hi : i.intent = .store
  · exact acvLegal_of_and_eq_zero (hstore hi) (by decide)
  · exact acvLegal_of_and_eq_zero (hread hi) (by decide)

/-- A cycle keeps the invariant, and ends in IDLE. -/
theorem exec_keeps_inv {i : Instr} {s t : State} (hs : s.Inv) (h : exec i s = .next t) : t.Inv := by
  obtain ⟨-, hmem, ham, -⟩ := hs
  have he := cycleEnds_of_next h
  exact ⟨(everyCycleEndsInAStepTheRulesGive i s t h).1, he.wf_mem hmem, he.amBounded ham,
    acvLegal_of_next h⟩

/-- An action of the outside keeps the invariant (log entry 7). -/
theorem applyOutside_keeps_inv {a : OutsideAction} {s t : State} (hs : s.Inv)
    (h : applyOutside a s = .go t) : t.Inv := by
  obtain ⟨hidle, hmem, ham, hacv⟩ := hs
  obtain ⟨hsdw, hptw⟩ := (amBounded_iff s).1 ham
  cases a with
  | loadDsbr =>
    cases h
    exact ⟨hidle, hmem, ham, hacv⟩
  | setAmEnable =>
    cases h
    exact ⟨hidle, hmem, ham, hacv⟩
  | clearSdwam =>
    cases h
    exact ⟨hidle, hmem, (amBounded_iff _).2 ⟨amBounded_nil, hptw⟩, hacv⟩
  | clearPtwam =>
    cases h
    exact ⟨hidle, hmem, (amBounded_iff _).2 ⟨hsdw, amBounded_nil⟩, hacv⟩
  | evictSdw segno =>
    cases h
    exact ⟨hidle, hmem, (amBounded_iff _).2 ⟨hsdw.remove segno, hptw⟩, hacv⟩
  | evictPtw pointer page =>
    cases h
    exact ⟨hidle, hmem, (amBounded_iff _).2 ⟨hsdw, hptw.remove (pointer, page)⟩, hacv⟩
  | writeWord address value =>
    rw [applyOutside, ofAccess_memWrite] at h
    split at h
    · cases h
      exact ⟨hidle, Memory.wf_write_toNat address value hmem, ham, hacv⟩
    · cases h

/-- Settles O11: a step without input changes nothing, and cycles and actions of the outside keep the
invariant, of which the taking of an input changes no part. -/
theorem everyStepKeepsInvariant : Obligations.EveryStepKeepsInvariant := by
  intro s t hs h
  obtain ⟨-, ⟨-, rfl⟩ | ⟨r, rest, i, -, -, hexec⟩ | ⟨a, rest, -, hout⟩⟩ := step_next_cases h
  · exact hs
  · exact exec_keeps_inv (s := { s with inputs := rest }) hs hexec
  · exact applyOutside_keeps_inv (s := { s with inputs := rest }) hs hout

end Sys2Proof.Machine


namespace Sys2Proof.Machine

/-! # Which entry an install writes, and what a hit does -/

section

variable {κ ρ : Type}

theorem key_mem {am : AssocMem κ ρ} {k : κ} {r : ρ} (h : (k, r) ∈ am) : k ∈ am.map Prod.fst :=
  List.mem_map.2 ⟨_, h, rfl⟩

variable [DecidableEq κ]

theorem amRemove_eq_self {am : AssocMem κ ρ} {k : κ} (h : ∀ r, (k, r) ∉ am) : amRemove am k = am := by
  refine List.filter_eq_self.2 fun e he => decide_eq_true fun hk => ?_
  subst hk
  exact h e.2 he

theorem amRemove_cons (e : κ × ρ) (am : AssocMem κ ρ) (k : κ) :
    amRemove (e :: am) k = if e.1 = k then amRemove am k else e :: amRemove am k := by
  by_cases h : e.1 = k <;> simp [amRemove, h]

/-- The entries without a key's, and that one in front, are the entries in another order. -/
theorem cons_amRemove_perm {am : AssocMem κ ρ} {k : κ} {r : ρ} (hk : (am.map Prod.fst).Nodup)
    (h : (k, r) ∈ am) : ((k, r) :: amRemove am k).Perm am := by
  induction am with
  | nil => simp at h
  | cons e rest ih =>
    obtain ⟨hnew, hrest⟩ := List.nodup_cons.1 hk
    rw [amRemove_cons]
    rcases List.mem_cons.1 h with rfl | h
    · rw [if_pos rfl, amRemove_eq_self fun r' hr => hnew (key_mem hr)]
    · have hne : e.1 ≠ k := fun he => hnew (by rw [he]; exact key_mem h)
      rw [if_neg hne]
      exact (List.Perm.swap e (k, r) _).trans ((ih hrest h).cons e)

/-- Where no key is listed twice, a lookup finds every entry. -/
theorem amLookup_of_mem {am : AssocMem κ ρ} {k : κ} {r : ρ} (hk : (am.map Prod.fst).Nodup)
    (h : (k, r) ∈ am) : amLookup am k = some r := by
  induction am with
  | nil => simp at h
  | cons e rest ih =>
    obtain ⟨hnew, hrest⟩ := List.nodup_cons.1 hk
    rw [amLookup_cons]
    rcases List.mem_cons.1 h with rfl | h
    · exact if_pos rfl
    · have hne : e.1 ≠ k := fun he => hnew (by rw [he]; exact key_mem h)
      rw [if_neg hne, ih hrest h]

/-- An install for which there is room replaces no entry of another key. -/
theorem amInstall_of_length_lt {size : Nat} {am : AssocMem κ ρ} {k : κ} (r : ρ)
    (h : (amRemove am k).length < size) : amInstall size am k r = (k, r) :: amRemove am k :=
  List.take_of_length_le h

/-- An install over the entry of its key drops no other (rule R83). -/
theorem amInstall_over {size : Nat} {am : AssocMem κ ρ} {k : κ} {r' : ρ} (r : ρ)
    (hk : (am.map Prod.fst).Nodup) (hsize : am.length ≤ size) (h : (k, r') ∈ am) :
    amInstall size am k r = (k, r) :: amRemove am k ∧ (amInstall size am k r).length = am.length := by
  have hlen : (amRemove am k).length + 1 = am.length := (cons_amRemove_perm hk h).length_eq
  rw [amInstall_of_length_lt r (by omega)]
  exact ⟨rfl, hlen⟩

/-- An install of a new key into full entries drops the least recently used one (rule R83). -/
theorem amInstall_full {am : AssocMem κ ρ} {k : κ} (r : ρ) (hsize : 0 < am.length)
    (h : ∀ r', (k, r') ∉ am) : amInstall am.length am k r = (k, r) :: am.dropLast := by
  rw [amInstall, amRemove_eq_self h, List.take_cons hsize, List.dropLast_eq_take]

/-- A hit moves its entry to the front and keeps the others (rule R83). -/
theorem amTouch_of_mem {am : AssocMem κ ρ} {k : κ} {r : ρ} (hk : (am.map Prod.fst).Nodup)
    (h : (k, r) ∈ am) : amTouch am k = (k, r) :: amRemove am k := by
  rw [amTouch, amLookup_of_mem hk h]

/-- Rule R83 of any keys and records: which entry an install writes, and what a hit does. -/
theorem install_replaces_leastRecentlyUsed (size : Nat) (am : AssocMem κ ρ) (k : κ) (r : ρ)
    (hsize : 0 < size) (hk : (am.map Prod.fst).Nodup) (hlen : am.length ≤ size) :
    amLookup (amInstall size am k r) k = some r ∧
      ((∃ r', (k, r') ∈ am) → (amInstall size am k r).length = am.length ∧
        ∀ j, j ≠ k → amLookup (amInstall size am k r) j = amLookup am j) ∧
      ((∀ r', (k, r') ∉ am) → am.length < size → amInstall size am k r = (k, r) :: am) ∧
      ((∀ r', (k, r') ∉ am) → am.length = size → amInstall size am k r = (k, r) :: am.dropLast) ∧
      ((k, r) ∈ am → (amTouch am k).head? = some (k, r) ∧ (amTouch am k).Perm am) := by
  refine ⟨amLookup_install_same size am k r hsize, fun ⟨r', h⟩ => ?_, fun h hlt => ?_,
    fun h hfull => ?_, fun h => ?_⟩
  · obtain ⟨hover, hsame⟩ := amInstall_over r hk hlen h
    refine ⟨hsame, fun j hj => ?_⟩
    rw [hover, amLookup_cons, if_neg hj.symm, amLookup_remove, if_neg hj]
  · have hrem := amRemove_eq_self h
    rw [amInstall_of_length_lt r (by rwa [hrem]), hrem]
  · subst hfull
    exact amInstall_full r hsize h
  · rw [amTouch_of_mem hk h]
    exact ⟨rfl, cons_amRemove_perm hk h⟩

end

/-- Settles O50: both associative memories have the same operations. -/
theorem installReplacesTheLeastRecentlyUsed : Obligations.InstallReplacesTheLeastRecentlyUsed :=
  ⟨install_replaces_leastRecentlyUsed, install_replaces_leastRecentlyUsed⟩

/-! # The flags that the modifiers set -/

/-- The setting of bit `n` of a word in memory keeps its others (rules R96, R97). -/
theorem Memory.getLsbD_read_setBit (m : Memory) (a : Nat) {n : Nat} (hn : n < 36) (k : Nat) :
    (read (write m a (read m a ||| BitVec.twoPow 36 n)) a).getLsbD k =
      (decide (k = n) || (read m a).getLsbD k) := by
  rw [read_write_same, BitVec.getLsbD_or, BitVec.getLsbD_twoPow, Bool.or_comm]
  simp only [hn, decide_true, Bool.true_and, eq_comm]

/-- A change in place changes the record found under its key and no other (rule R97). -/
theorem amLookup_update_eq_ite {κ ρ : Type} [DecidableEq κ] (am : AssocMem κ ρ) (k j : κ)
    (f : ρ → ρ) :
    amLookup (amUpdate am k f) j = if j = k then (amLookup am j).map f else amLookup am j := by
  rw [amLookup_update]
  split
  · next h => rw [h]
  · rfl

/-- Settles O27: everything `modify_dsptw` does is one write, of the word with bit 9 set. -/
theorem modifyDsptwSetsTheUsedBit : Obligations.ModifyDsptwSetsTheUsedBit := by
  intro s hp
  exact ⟨_, (modifyDsptw_eq s).trans (if_pos hp), fun a ha => Memory.read_write_other _ _ ha,
    Memory.getLsbD_read_setBit s.mem (dsptwAddr s.dsbr s.tsr).toNat (n := 9) (by decide)⟩

/-- Settles O28: everything `modify_ptw` does is one write, of the word with bit 6 set, and the same change
in the register and in the PTWAM record of the page. -/
theorem modifyPtwSetsTheModifiedBit : Obligations.ModifyPtwSetsTheModifiedBit := by
  intro s hp
  exact ⟨_, _, (modifyPtw_eq s).trans (if_pos hp), fun a ha => Memory.read_write_other _ _ ha,
    Memory.getLsbD_read_setBit s.mem (ptwAddr s.sdw s.ca).toNat (n := 6) (by decide),
    fun k => amLookup_update_eq_ite s.ptwam (ptwKey s.sdw s.ca) k _⟩

end Sys2Proof.Machine

namespace Sys2Proof.Machine

/-! # What step A leaves to the end of a cycle -/

/-- Every fault of step A follows a miss (rules R89, R122, R124). -/
theorem SegmentFault.miss {i : Intent} {s : State} {p : Ports} {k : FaultKind} {d : Sdw} {m : Memory}
    {q : Ptw} {calls : List Call} (h : SegmentFault i s p k d m q calls) : SdwMiss s p := by
  cases h with
  | beyond hm => exact hm
  | absentDsptw hm => exact hm
  | invalid d m hw => exact hw.1

/-- The cycle has gone past step A, which has resolved the descriptor that the `SDW` register holds at the
end (`t`) and has left memory `m`; `rest` are the calls after it, and none of them walks. -/
structure PastStepA (i : Instr) (s t : State) (m : Memory) (rest : List Call) : Prop where
  resolves : ResolvesSegment i.intent s i.ports t.sdw m
  sdwam : t.sdwam = sdwamAfterA s i.ports t.sdw
  trace : t.trace = segmentCalls s i.ports t.sdw ++ rest
  rest_isWalk : ∀ c ∈ rest, c.isWalk = false
  path : t.path.take 3 = [.a, .b, .g]

/-- Every cycle faults in step A or goes past it. -/
theorem CycleEnds.segmentFault_or_pastStepA {i : Instr} {s t : State} (h : CycleEnds i s t) :
    (∃ k d m q calls, SegmentFault i.intent s i.ports k d m q calls ∧
        t = raiseFault k (walked i.intent i.ports s d m q calls)) ∨
      ∃ m rest, PastStepA i s t m rest := by
  have hfault : ∀ k, ∀ c ∈ [Call.doFault k], c.isWalk = false := fun k => by simp [Call.isWalk]
  have hres := fun d q c hc =>
    have ⟨_, _, hwalk, _⟩ := resolveCalls_kinds s i.ports d q c hc
    hwalk
  have hprobe := fun d c hc =>
    have ⟨_, _, hwalk, _⟩ := probeCalls_kinds i.intent s i.ports d c hc
    hwalk
  have hpage := fun d q c hc =>
    have ⟨_, _, hwalk⟩ := pageCalls_kinds i.intent s i.ports d q c hc
    hwalk
  have htrans := fun f c hc =>
    have ⟨_, _, hwalk, _⟩ := transferCalls_kinds f i c hc
    hwalk
  cases h with
  | segmentFault k d m q calls hf => exact .inl ⟨k, d, m, q, calls, hf, rfl⟩
  | violation d m hs => exact .inr ⟨m, _, hs, rfl, rfl, hfault _, rfl⟩
  | absentPage d m q hs =>
    exact .inr ⟨m, _, hs, rfl, List.append_assoc ..,
      List.forall_mem_append.2 ⟨hres d q, hfault _⟩, rfl⟩
  | probe d m q hs =>
    exact .inr ⟨m, _, hs, rfl, (List.append_assoc ..).trans (List.append_assoc ..),
      List.forall_mem_append.2 ⟨hres d q, List.forall_mem_append.2 ⟨hprobe d, hfault _⟩⟩, rfl⟩
  | unpaged d m hs => exact .inr ⟨m, _, hs, rfl, rfl, htrans _, rfl⟩
  | paged d m m' q f hs =>
    exact .inr ⟨m, _, hs, rfl, List.append_assoc ..,
      List.forall_mem_append.2 ⟨hpage d q, htrans f⟩, rfl⟩

/-- A cycle whose descriptor step A can resolve goes past it. -/
theorem CycleEnds.pastStepA {i : Instr} {s t : State} {d : Sdw} {m : Memory} (h : CycleEnds i s t)
    (hs : ResolvesSegment i.intent s i.ports d m) : ∃ rest, PastStepA i s t m rest ∧ t.sdw = d := by
  rcases h.segmentFault_or_pastStepA with ⟨k, d', m', q, calls, hf, -⟩ | ⟨m', rest, hpast⟩
  · exact (hf.not_resolves hs).elim
  · obtain ⟨hd, rfl⟩ := hpast.resolves.unique hs
    exact ⟨rest, hpast, hd⟩

theorem segmentCalls_of_hit {s : State} {p : Ports} {d : Sdw} (h : SdwHit s p d) (d' : Sdw) :
    segmentCalls s p d' = [.fetchSdwFromSdwam p.segno .hit] :=
  if_neg (not_miss_of_hit h)

/-- Settles O20: a hit resolves the descriptor, with one call. -/
theorem hitUsesTheCachedRecord : Obligations.HitUsesTheCachedRecord := by
  intro i s t d hhit h
  obtain ⟨rest, hpast, rfl⟩ := (cycleEnds_of_next h).pastStepA (.inl ⟨hhit, rfl⟩)
  rw [hpast.trace, segmentCalls_of_hit hhit]
  exact ⟨rfl, hpast.path, rfl, List.forall_mem_cons.2 ⟨rfl, hpast.rest_isWalk⟩⟩

/-! ## The calls of a walk -/

/-- The walk's own calls and the installation are what `isWalk` names. -/
theorem filter_isWalk_walkCalls (s : State) (p : Ports) :
    (walkCalls s p).filter Call.isWalk = walkCalls s p := by
  unfold walkCalls
  (repeat' split) <;> rfl

theorem filter_isWalk_loadCalls (s : State) (p : Ports) (d : Sdw) :
    (loadCalls s p d).filter Call.isWalk = loadCalls s p d := by
  unfold loadCalls
  split <;> rfl

/-- A walk that passes the bound check and meets no absent DSPTW makes all its calls, and then installs the
descriptor that it leaves in the `SDW` register, if it is valid (rules R122, R123, R125). -/
theorem CycleEnds.filter_isWalk_trace {i : Instr} {s t : State} (h : CycleEnds i s t)
    (hmiss : SdwMiss s i.ports) (hb : WithinDsBound s i.ports)
    (hd : s.dsbr.u = false → (dsptwOf s i.ports).df = true) :
    t.trace.filter Call.isWalk = walkCalls s i.ports ++ loadCalls s i.ports t.sdw := by
  rcases h.segmentFault_or_pastStepA with ⟨k, d, m, q, calls, hf, rfl⟩ | ⟨m, rest, hpast⟩
  · cases hf with
    | beyond _ hn => exact absurd hb hn
    | absentDsptw _ _ hu _ hn => exact absurd (hd hu) (by simp [hn])
    | invalid d m _ _ hn =>
      have hload : loadCalls s i.ports d = [] := if_neg (by simp [hn])
      simp [walked, hload, filter_isWalk_walkCalls, Call.isWalk]
  · have hrest : rest.filter Call.isWalk = [] := by simpa using hpast.rest_isWalk
    simp [hpast.trace, segmentCalls, hmiss, hrest, filter_isWalk_walkCalls, filter_isWalk_loadCalls,
      Call.isWalk]

theorem CycleEnds.head_trace_of_miss {i : Instr} {s t : State} (h : CycleEnds i s t)
    (hmiss : SdwMiss s i.ports) : t.trace.head? = some (.fetchSdwFromSdwam i.ports.segno .miss) := by
  rcases h.segmentFault_or_pastStepA with ⟨k, d, m, q, calls, hf, rfl⟩ | ⟨m, rest, hpast⟩
  · cases hf <;> rfl
  · rw [hpast.trace, segmentCalls, if_pos hmiss]
    rfl

/-- The bypass flag at the end of a cycle (rule R111). -/
theorem CycleEnds.noMatch_eq {i : Instr} {s t : State} (h : CycleEnds i s t) :
    t.noMatch = decide (Bypassed s i.ports) := by
  rw [← noMatch_eq_decide i.intent]
  cases h <;> rfl

/-- Settles O21: the calls of a walk and of an installation, written out. -/
theorem walkMakesItsCallsInOrder : Obligations.WalkMakesItsCallsInOrder := by
  intro i s t hmiss hb h
  have he := cycleEnds_of_next h
  have hload : loadCalls s i.ports t.sdw =
      if t.sdw.df then [.loadSdwam i.ports.segno t.noMatch] else [] := by
    rw [he.noMatch_eq, loadCalls]
  refine ⟨he.head_trace_of_miss hmiss, fun hu => ?_, fun hu hd => ?_⟩
  · rw [he.filter_isWalk_trace hmiss hb (by simp [hu]), hload, walkCalls, if_pos hu]
    rfl
  · rw [he.filter_isWalk_trace hmiss hb (fun _ => hd), hload, walkCalls, if_neg (by simp [hu])]
    simp

/-! ## The SDWAM -/

/-- What a walk has fetched is what step A has resolved, or has faulted at because it is invalid. -/
theorem CycleEnds.sdwam_of_walks {i : Instr} {s t : State} {d : Sdw} {m : Memory} (h : CycleEnds i s t)
    (hw : Walks s i.ports d m) : t.sdwam = sdwamAfterWalk s i.ports d := by
  rcases h.segmentFault_or_pastStepA with ⟨k, d', m', q, calls, hf, rfl⟩ | ⟨m', rest, hpast⟩
  · have hn : ¬d.df = true := fun hd => hf.not_resolves (.inr ⟨hw, fun _ => hd⟩)
    exact (if_neg fun hc => hn hc.1).symm
  · rcases hpast.resolves with ⟨hhit, -⟩ | ⟨hw', -⟩
    · exact absurd hw.1 (not_miss_of_hit hhit)
    · rw [hpast.sdwam, sdwamAfterA, if_pos hw.1, (hw'.unique hw).1]

/-- Settles O26: an installed record is found, and nothing else is installed. -/
theorem fetchedDescriptorIsInstalled : Obligations.FetchedDescriptorIsInstalled := by
  intro i s t d m hw h
  rw [(cycleEnds_of_next h).sdwam_of_walks hw, sdwamAfterWalk]
  refine ⟨fun hd hb hsize => ?_, fun hn => if_neg fun hc => ?_⟩
  · rw [if_pos ⟨hd, hb⟩]
    exact amLookup_install_same _ _ _ _ hsize
  · rcases hn with hn | hn
    · simp [hn] at hc
    · exact hc.2 hn

end Sys2Proof.Machine

namespace Sys2Proof.Machine

/-! # The associative memories after a cycle -/

/-- Another segment's lookup finds after step A what it found, or its entry was replaced (rule R83). -/
theorem amLookup_sdwamAfterA_other (s : State) (p : Ports) (d : Sdw) {k : SegNo} (hk : k ≠ p.segno) :
    amLookup (sdwamAfterA s p d) k = amLookup s.sdwam k ∨ amLookup (sdwamAfterA s p d) k = none := by
  unfold sdwamAfterA sdwamAfterWalk
  split
  · split
    · exact amLookup_install_other _ _ _ _ _ hk
    · exact .inl rfl
  · exact .inl (amLookup_touch _ _ _)

/-- A hit changes no record of the SDWAM (rule R83). -/
theorem amLookup_sdwamAfterA_of_hit {s : State} {p : Ports} {d : Sdw} (h : SdwHit s p d) (d' : Sdw)
    (k : SegNo) : amLookup (sdwamAfterA s p d') k = amLookup s.sdwam k := by
  rw [sdwamAfterA, if_neg (not_miss_of_hit h), amLookup_touch]

theorem CycleEnds.amLookup_sdwam_other {i : Instr} {s t : State} (h : CycleEnds i s t) {k : SegNo}
    (hk : k ≠ i.ports.segno) :
    amLookup t.sdwam k = amLookup s.sdwam k ∨ amLookup t.sdwam k = none := by
  rcases h.segmentFault_or_pastStepA with ⟨_, d, m, q, calls, hf, rfl⟩ | ⟨m, rest, hpast⟩
  · exact .inl rfl
  · rw [hpast.sdwam]
    exact amLookup_sdwamAfterA_other s i.ports t.sdw hk

theorem CycleEnds.amLookup_sdwam_of_hit {i : Instr} {s t : State} (h : CycleEnds i s t) {d : Sdw}
    (hhit : SdwHit s i.ports d) (k : SegNo) : amLookup t.sdwam k = amLookup s.sdwam k := by
  obtain ⟨rest, hpast, rfl⟩ := h.pastStepA (.inl ⟨hhit, rfl⟩)
  rw [hpast.sdwam, amLookup_sdwamAfterA_of_hit hhit]

/-- A cycle leaves the PTWAM, or resolves a page, or resolves it and marks it (rules R84, R86, R97). -/
theorem CycleEnds.ptwam_cases {i : Instr} {s t : State} (h : CycleEnds i s t) :
    t.ptwam = s.ptwam ∨
      ∃ q, t.ptwam = ptwamAfterResolve s i.ports t.sdw q ∨
        t.ptwam = ptwamAfterMark i.intent i.ports t.sdw q (ptwamAfterResolve s i.ports t.sdw q) := by
  cases h with
  | segmentFault => exact .inl rfl
  | violation => exact .inl rfl
  | absentPage d m q => exact .inr ⟨q, .inl rfl⟩
  | probe d m q => exact .inr ⟨q, .inl rfl⟩
  | unpaged => exact .inl rfl
  | paged d m m' q => exact .inr ⟨q, .inr rfl⟩

/-- The resolution of a page under bypass leaves the PTWAM (rules R84, R86). -/
theorem ptwamAfterResolve_of_bypassed {s : State} {p : Ports} (d : Sdw) (q : Ptw) (hb : Bypassed s p) :
    ptwamAfterResolve s p d q = s.ptwam := by
  rw [ptwamAfterResolve, if_pos (.inl hb), if_neg fun h => h.2 hb]

/-- Another page's lookup finds after the resolution of a page what it found, or its entry was replaced
(rule R87). -/
theorem amLookup_ptwamAfterResolve_other (s : State) (p : Ports) (d : Sdw) (q : Ptw) {k : PtwKey}
    (hk : k ≠ (d.pointer, pageOf p.offset)) :
    amLookup (ptwamAfterResolve s p d q) k = amLookup s.ptwam k ∨
      amLookup (ptwamAfterResolve s p d q) k = none := by
  unfold ptwamAfterResolve
  split
  · split
    · exact amLookup_install_other _ _ _ _ _ hk
    · exact .inl rfl
  · exact .inl (amLookup_touch _ _ _)

/-- The mark changes no other page's record (rule R97). -/
theorem amLookup_ptwamAfterMark_other (i : Intent) (p : Ports) (d : Sdw) (q : Ptw)
    (pm : AssocMem PtwKey Ptw) {k : PtwKey} (hk : k ≠ (d.pointer, pageOf p.offset)) :
    amLookup (ptwamAfterMark i p d q pm) k = amLookup pm k := by
  unfold ptwamAfterMark
  split
  · rw [amLookup_update, if_neg hk]
  · rfl

/-- The mark changes `M` of a record and nothing else (rule R97). -/
theorem amLookup_ptwamAfterMark_except_m (i : Intent) (p : Ports) (d : Sdw) (q : Ptw)
    (pm : AssocMem PtwKey Ptw) (k : PtwKey) :
    (amLookup (ptwamAfterMark i p d q pm) k).map (fun r => { r with m := false }) =
      (amLookup pm k).map (fun r => { r with m := false }) := by
  unfold ptwamAfterMark
  split
  · rw [amLookup_update_eq_ite]
    split
    · rw [Option.map_map]
      rfl
    · rfl
  · rfl

/-- A bypassed cycle changes no more of a PTWAM record than `M` (rule R97). -/
theorem CycleEnds.amLookup_ptwam_of_bypassed {i : Instr} {s t : State} (h : CycleEnds i s t)
    (hb : Bypassed s i.ports) (k : PtwKey) :
    (amLookup t.ptwam k).map (fun q => { q with m := false }) =
      (amLookup s.ptwam k).map (fun q => { q with m := false }) := by
  rcases h.ptwam_cases with hkept | ⟨q, hres | hmark⟩
  · rw [hkept]
  · rw [hres, ptwamAfterResolve_of_bypassed _ _ hb]
  · rw [hmark, ptwamAfterResolve_of_bypassed _ _ hb, amLookup_ptwamAfterMark_except_m]

/-- Another page's lookup finds after a cycle what it found, or its entry was replaced. -/
theorem CycleEnds.amLookup_ptwam_other {i : Instr} {s t : State} (h : CycleEnds i s t) {k : PtwKey}
    (hk : k ≠ (t.sdw.pointer, pageOf i.ports.offset)) :
    amLookup t.ptwam k = amLookup s.ptwam k ∨ amLookup t.ptwam k = none := by
  rcases h.ptwam_cases with hkept | ⟨q, hres | hmark⟩
  · exact .inl (by rw [hkept])
  · rw [hres]
    exact amLookup_ptwamAfterResolve_other s i.ports t.sdw q hk
  · rw [hmark, amLookup_ptwamAfterMark_other _ _ _ _ _ hk]
    exact amLookup_ptwamAfterResolve_other s i.ports t.sdw q hk

/-- Settles O19: what a lookup finds after step A and after the resolution and the mark of a page. -/
theorem cycleAssociativeMemoryFrame : Obligations.CycleAssociativeMemoryFrame := by
  intro i s t h
  have he := cycleEnds_of_next h
  exact ⟨fun hb => ⟨he.sdwam_of_bypassed hb, he.amLookup_ptwam_of_bypassed hb⟩,
    fun d hhit => he.amLookup_sdwam_of_hit hhit, fun k hk => he.amLookup_sdwam_other hk,
    fun k hk => he.amLookup_ptwam_other hk⟩

/-! # The second probe -/

/-- A page that is resolved and present is found in the PTWAM afterwards, unless it is bypassed. -/
theorem amLookup_ptwamAfterResolve_same {s : State} {p : Ports} {d : Sdw} {m : Memory} {q : Ptw}
    (hr : ResolvesPage s p d m q) (hq : q.df = true) (hb : ¬Bypassed s p)
    (hsize : 0 < s.config.amSizePtw) :
    amLookup (ptwamAfterResolve s p d q) (d.pointer, pageOf p.offset) = some q := by
  rcases hr with hhit | ⟨hmiss, -⟩
  · rw [ptwamAfterResolve, if_neg (not_ptwMiss_of_hit hhit), amLookup_touch, hhit.2]
  · rw [ptwamAfterResolve, if_pos hmiss, if_pos ⟨hq, hb⟩, amLookup_install_same _ _ _ _ hsize]

/-- Settles O35: the fault of the second probe, after the first page was resolved and installed. -/
theorem secondProbeFaults : Obligations.SecondProbeFaults := by
  intro i s d m q hi ha hun hs hv hu hr hq hp hn
  refine ⟨_, exec_probe i s d m hi q hs hv hu hr hq ⟨ha, hun⟩ hp hn, rfl, rfl, rfl, rfl, fun c hc => ?_,
    amLookup_ptwamAfterResolve_same hr hq⟩
  simp only [raiseFault_trace, inI_trace, List.mem_append, List.mem_singleton] at hc
  rcases hc with ((hc | hc) | hc) | rfl
  · obtain ⟨htrans, -, -, hmod⟩ := segmentCalls_kinds s i.ports d c hc
    exact ⟨htrans, hmod⟩
  · obtain ⟨htrans, -, -, hmod⟩ := resolveCalls_kinds s i.ports d q c hc
    exact ⟨htrans, hmod⟩
  · obtain ⟨htrans, -, -, hmod⟩ := probeCalls_kinds i.intent s i.ports d c hc
    exact ⟨htrans, hmod⟩
  · exact ⟨rfl, rfl⟩

/-! # The mark of a page -/

theorem filter_isModifyPtw_eq_nil {calls : List Call} (h : ∀ c ∈ calls, c.isModifyPtw = false) :
    calls.filter Call.isModifyPtw = [] :=
  List.filter_eq_nil_iff.2 fun c hc => Bool.eq_false_iff.1 (h c hc)

section

variable (s : State) (p : Ports) (d : Sdw) (q : Ptw) (f : PhysAddr) (i : Instr)

@[simp] theorem filter_isModifyPtw_segmentCalls : (segmentCalls s p d).filter Call.isModifyPtw = [] :=
  filter_isModifyPtw_eq_nil fun c hc =>
    have ⟨_, _, _, hmod⟩ := segmentCalls_kinds s p d c hc
    hmod

theorem filter_isModifyPtw_walkCalls : (walkCalls s p).filter Call.isModifyPtw = [] :=
  filter_isModifyPtw_eq_nil fun c hc =>
    have ⟨_, _, _, hmod⟩ := walkCalls_kinds s p c hc
    hmod

@[simp] theorem filter_isModifyPtw_resolveCalls : (resolveCalls s p d q).filter Call.isModifyPtw = [] :=
  filter_isModifyPtw_eq_nil fun c hc =>
    have ⟨_, _, _, hmod⟩ := resolveCalls_kinds s p d q c hc
    hmod

@[simp] theorem filter_isModifyPtw_probeCalls (i : Intent) :
    (probeCalls i s p d).filter Call.isModifyPtw = [] :=
  filter_isModifyPtw_eq_nil fun c hc =>
    have ⟨_, _, _, hmod⟩ := probeCalls_kinds i s p d c hc
    hmod

@[simp] theorem filter_isModifyPtw_transferCalls : (transferCalls f i).filter Call.isModifyPtw = [] :=
  filter_isModifyPtw_eq_nil fun c hc =>
    have ⟨_, _, _, hmod⟩ := transferCalls_kinds f i c hc
    hmod

@[simp] theorem filter_isModifyPtw_markCalls (i : Intent) :
    (markCalls i p d q).filter Call.isModifyPtw = markCalls i p d q := by
  unfold markCalls
  split <;> rfl

@[simp] theorem filter_isModifyPtw_doFault (k : FaultKind) : [Call.doFault k].filter Call.isModifyPtw = [] :=
  rfl

end

theorem SegmentFault.filter_isModifyPtw {i : Intent} {s : State} {p : Ports} {k : FaultKind} {d : Sdw}
    {m : Memory} {q : Ptw} {calls : List Call} (h : SegmentFault i s p k d m q calls) :
    calls.filter Call.isModifyPtw = [] := by
  cases h with
  | beyond => cases s.dsbr.u <;> rfl
  | absentDsptw => rfl
  | invalid => exact filter_isModifyPtw_walkCalls s p

/-- Only the mark of a page makes `modify_ptw` calls. -/
theorem CycleEnds.filter_isModifyPtw_trace {i : Instr} {s t : State} (h : CycleEnds i s t) :
    t.trace.filter Call.isModifyPtw = [] ∨
      ∃ d q, t.trace.filter Call.isModifyPtw = markCalls i.intent i.ports d q := by
  cases h with
  | segmentFault k d m q calls hf => exact .inl (by simp [walked, hf.filter_isModifyPtw])
  | violation => exact .inl (by simp [atG, atB])
  | absentPage => exact .inl (by simp)
  | probe => exact .inl (by simp)
  | unpaged => exact .inl (by simp [completed])
  | paged d m m' q => exact .inr ⟨d, q, by simp [completed, pageCalls]⟩

/-- A cycle that forms its address in a paged segment and answers a next state has completed. -/
theorem completed_of_formsPagedAddress {i : Instr} {s t : State} {d : Sdw} {m m' : Memory} {q : Ptw}
    {f : PhysAddr} (hs : ResolvesSegment i.intent s i.ports d m) (hv : AccessAllowed i.intent i.ports d)
    (hr : FormsPagedAddress i.intent s i.ports d m q f m') (h : exec i s = .next t) :
    t = completed i s d m' (ptwAfterMark i.intent q) (sdwamAfterA s i.ports d)
      (ptwamAfterMark i.intent i.ports d q (ptwamAfterResolve s i.ports d q)) f
      (segmentCalls s i.ports d ++ pageCalls i.intent s i.ports d q) := by
  have hi := wf_of_next h
  by_cases hfits : f.toNat + transferLength i - 1 < memSpace ∧
      ∀ k < transferLength i, s.populated (f.toNat + k) = true
  · rw [exec_paged i s d m hi m' q f hs hv hr hfits.1 hfits.2] at h
    cases h
    rfl
  · obtain ⟨r, hrefused⟩ := stepExit_refused i s d m' (ptwAfterMark i.intent q)
      (sdwamAfterA s i.ports d) (ptwamAfterMark i.intent i.ports d q (ptwamAfterResolve s i.ports d q)) f
      (segmentCalls s i.ports d ++ pageCalls i.intent s i.ports d q) hfits
    rw [exec_formAddress i s d m hi hs hv, formAddress_paged _ _ _ _ _ m' _ q _ _ f hr, Flow.go_andThen,
      hrefused] at h
    cases h

/-- After a STORE's mark, or where the page was marked before, `M` is 1 in the holding register. -/
theorem ptwAfterMark_store (q : Ptw) : ptwAfterMark .store q = { q with m := true } := by
  unfold ptwAfterMark
  split
  · rfl
  · next h =>
    have hm : q.m = true := by simpa using h
    rw [← hm]

/-- After a STORE's mark, or where the page was marked before, `M` is 1 in the PTWAM record of the page. -/
theorem amLookup_ptwamAfterMark_store {pm : AssocMem PtwKey Ptw} {p : Ports} {d : Sdw} {q : Ptw}
    (h : amLookup pm (d.pointer, pageOf p.offset) = some q) :
    amLookup (ptwamAfterMark .store p d q pm) (d.pointer, pageOf p.offset) =
      some { q with m := true } := by
  rw [← ptwAfterMark_store, ptwamAfterMark, ptwAfterMark]
  split
  · rw [amLookup_update, if_pos rfl, h]
    rfl
  · exact h

theorem markCalls_store (p : Ports) (d : Sdw) (q : Ptw) :
    markCalls .store p d q = if q.m then [] else [.modifyPtw d p.offset] := by
  cases hm : q.m <;> simp [markCalls, hm]

theorem markCalls_of_ne_store {i : Intent} (p : Ports) (d : Sdw) (q : Ptw) (hi : i ≠ .store) :
    markCalls i p d q = [] :=
  if_neg fun h => hi h.1

/-- Settles O36: the calls and the records of a page that is marked, and of one that is not. -/
theorem storeMarksThePageOnce : Obligations.StoreMarksThePageOnce := by
  refine ⟨fun p data zone s t d m₁ m q f hs hv hr h => ?_, fun i s t hi h => ?_⟩
  · obtain rfl := completed_of_formsPagedAddress (i := .store p data zone) hs hv hr h
    obtain ⟨-, hpage, hq, -⟩ := hr
    refine ⟨?_, ptwAfterMark_store q, fun hb hsize => ?_⟩
    · rw [← markCalls_store]
      simp [completed, pageCalls, Instr.intent, Instr.ports]
    · exact amLookup_ptwamAfterMark_store
        (amLookup_ptwamAfterResolve_same hpage (hq nofun) hb hsize)
  · rcases (cycleEnds_of_next h).filter_isModifyPtw_trace with hnone | ⟨d, q, hmark⟩
    · exact hnone
    · rw [hmark, markCalls_of_ne_store _ _ _ hi]

end Sys2Proof.Machine

namespace Sys2Proof.Machine

/-! # A zone STORE completes -/

/-- A run that fits meets the conditions of a transfer (rules R42, R100, R101). -/
theorem RunFits.transferable {s : State} {f : PhysAddr} {n : Nat} (h : RunFits s f n) :
    f.toNat + n - 1 < memSpace ∧ ∀ k < n, s.populated (f.toNat + k) = true := by
  obtain ⟨hle, hp⟩ := h
  have hf : f.toNat < memSpace := f.isLt
  exact ⟨by omega, hp⟩

/-- The zone merge, bit by bit (rule R102). -/
theorem getLsbD_zoneMerge (old datum zone : Word) (k : Nat) :
    (zoneMerge old datum zone).getLsbD k =
      if zone.getLsbD k then datum.getLsbD k else old.getLsbD k := by
  rw [zoneMerge, BitVec.getLsbD_or, BitVec.getLsbD_and, BitVec.getLsbD_and, BitVec.getLsbD_not]
  cases hz : zone.getLsbD k with
  | true => simp
  | false =>
    by_cases hk : k < 36
    · simp [hk]
    · simp [BitVec.getLsbD_of_ge old k (Nat.not_lt.1 hk)]

/-- Settles O39: a zone STORE that translates completes, and its transfer is one write, of the merge. -/
theorem zoneStoreCompletes : Obligations.ZoneStoreCompletes := by
  intro p datum zone s d f m hn ht hfits
  obtain ⟨hw, hp⟩ := hfits.transferable
  obtain ⟨q, am, pm, calls, hexec, -⟩ := exec_completed (.store p [datum] (some zone)) s d
    (wf_zoneStore p datum zone hn) f m ht hw hp
  refine ⟨_, hexec, rfl, fun k => ?_, fun a ha => Memory.read_write_other _ _ ha, rfl, rfl, rfl, rfl, rfl⟩
  rw [completed_mem, memAfterTransfer, Memory.read_write_same, getLsbD_zoneMerge]

/-! # Coherent associative memories -/

/-- `s` with both associative memories empty. -/
abbrev State.withoutCaches (s : State) : State := { s with sdwam := [], ptwam := [] }

/-- The SDWAM agrees with memory on the segment: its record is valid, and what a walk would fetch without
changing memory. -/
def SdwCoherent (s : State) (p : Ports) : Prop :=
  ∀ d, amLookup s.sdwam p.segno = some d → d.df = true ∧ Walks s.withoutCaches p d s.mem

/-- The PTWAM agrees with memory on the page of every descriptor that resolves. -/
def PtwCoherent (i : Intent) (s : State) (p : Ports) : Prop :=
  ∀ d m q, ResolvesSegment i s p d m → amLookup s.ptwam (d.pointer, pageOf p.offset) = some q →
    s.populated (ptwAt p d) = true ∧ q = decodePtw (Memory.read m (ptwAt p d))

section

variable {i : Intent} {s : State} {p : Ports}

/-- A walk reads nothing of the associative memories. -/
theorem Walks.withoutCaches {d : Sdw} {m : Memory} (h : Walks s p d m) : Walks s.withoutCaches p d m :=
  ⟨.inr rfl, h.2⟩

theorem SegmentFault.withoutCaches {k : FaultKind} {d : Sdw} {m : Memory} {q : Ptw} {calls : List Call}
    (h : SegmentFault i s p k d m q calls) : SegmentFault i s.withoutCaches p k d m q calls := by
  cases h with
  | beyond hm hb => exact .beyond (.inr rfl) hb
  | absentDsptw hm hb hu hp hd => exact .absentDsptw (.inr rfl) hb hu hp hd
  | invalid d m hw hi hd => exact .invalid d m hw.withoutCaches hi hd

/-- A coherent record is what the walk in its place fetches. -/
theorem SdwCoherent.resolvesSegment {d : Sdw} {m : Memory} (hc : SdwCoherent s p)
    (h : ResolvesSegment i s p d m) : ResolvesSegment i s.withoutCaches p d m := by
  rcases h with ⟨⟨-, hl⟩, rfl⟩ | ⟨hw, hd⟩
  · obtain ⟨hd, hw⟩ := hc d hl
    exact .inr ⟨hw, fun _ => hd⟩
  · exact .inr ⟨hw.withoutCaches, hd⟩

/-- A coherent record is what the read in its place delivers. -/
theorem PtwCoherent.resolvesPage {d : Sdw} {m : Memory} {q : Ptw} (hc : PtwCoherent i s p)
    (hs : ResolvesSegment i s p d m) (h : ResolvesPage s p d m q) :
    ResolvesPage s.withoutCaches p d m q := by
  rcases h with ⟨-, hl⟩ | ⟨-, hread⟩
  · exact .inr ⟨.inr rfl, hc d m q hs hl⟩
  · exact .inr ⟨.inr rfl, hread⟩

theorem PtwCoherent.formsPagedAddress {d : Sdw} {m m' : Memory} {q : Ptw} {f : PhysAddr}
    (hc : PtwCoherent i s p) (hs : ResolvesSegment i s p d m) (h : FormsPagedAddress i s p d m q f m') :
    FormsPagedAddress i s.withoutCaches p d m q f m' := by
  obtain ⟨hu, hr, hrest⟩ := h
  exact ⟨hu, hc.resolvesPage hs hr, hrest⟩

end

/-- With coherent associative memories a cycle ends as it does with empty ones. -/
theorem CycleEnds.withoutCaches {i : Instr} {s t : State} (h : CycleEnds i s t)
    (hsdw : SdwCoherent s i.ports) (hptw : PtwCoherent i.intent s i.ports) :
    ∃ t', CycleEnds i s.withoutCaches t' ∧ t'.response = t.response ∧ t'.mem = t.mem := by
  cases h with
  | segmentFault k d m q calls hf => exact ⟨_, .segmentFault k d m q calls hf.withoutCaches, rfl, rfl⟩
  | violation d m hs hv => exact ⟨_, .violation d m (hsdw.resolvesSegment hs) hv, rfl, rfl⟩
  | absentPage d m q hs hv hu hr ha hq =>
    exact ⟨_, .absentPage d m q (hsdw.resolvesSegment hs) hv hu (hptw.resolvesPage hs hr) ha hq, rfl, rfl⟩
  | probe d m q hs hv hu hr hq hx hn hf =>
    exact ⟨_, .probe d m q (hsdw.resolvesSegment hs) hv hu (hptw.resolvesPage hs hr) hq hx hn hf,
      rfl, rfl⟩
  | unpaged d m hs hv hu hw hp =>
    exact ⟨_, .unpaged d m (hsdw.resolvesSegment hs) hv hu hw hp, rfl, rfl⟩
  | paged d m m' q f hs hv hr hw hp =>
    exact ⟨_, .paged d m m' q f (hsdw.resolvesSegment hs) hv (hptw.formsPagedAddress hs hr) hw hp,
      rfl, rfl⟩

/-- Settles O47: the cycle ends as with empty associative memories, and a well-formed operation answers that
end. -/
theorem coherentCachesDoNotChangeTheResult : Obligations.CoherentCachesDoNotChangeTheResult := by
  intro i s t hsdw hptw h
  obtain ⟨t', he, hres, hmem⟩ := (cycleEnds_of_next h).withoutCaches hsdw hptw
  have hwf := wf_of_next h
  exact ⟨t', next_of_cycleEnds (s := s.withoutCaches) hwf he, hres, hmem⟩

end Sys2Proof.Machine

namespace Sys2Proof.Machine

/-! # A READ, a STORE and an ABSA complete -/

/-- Settles O37: a READ that translates completes, and its transfer is a run of reads. -/
theorem readCompletes : Obligations.ReadCompletes := by
  intro p count s d f m h1 h2 ht hfits
  obtain ⟨hw, hp⟩ := hfits.transferable
  obtain ⟨q, am, pm, calls, hexec, -⟩ := exec_completed (.read p count) s d (wf_read p h1 h2) f m ht
    hw hp
  exact ⟨_, _, hexec, rfl, Memory.length_readRun m count f.toNat,
    Memory.getElem?_readRun m count f.toNat, rfl, rfl, rfl, rfl, rfl, rfl⟩

/-- Settles O38: a STORE that translates completes, and its transfer is a run of writes. -/
theorem storeCompletes : Obligations.StoreCompletes := by
  intro p data s d f m h1 h2 ht hfits
  obtain ⟨hw, hp⟩ := hfits.transferable
  obtain ⟨q, am, pm, calls, hexec, -⟩ := exec_completed (.store p data none) s d (wf_store p h1 h2) f m
    ht hw hp
  exact ⟨_, hexec, rfl, Memory.read_writeRun_inside data m f.toNat,
    Memory.read_writeRun_outside data m f.toNat, rfl, rfl, rfl, rfl, rfl⟩

/-- A run that would leave the address space is one of a READ or a STORE. -/
theorem intent_ne_absa_of_wraps {i : Instr} {f : PhysAddr}
    (hw : memSpace ≤ f.toNat + transferLength i - 1) : i.intent ≠ .absa := by
  have hf : f.toNat < memSpace := f.isLt
  cases i with
  | read => nofun
  | store => nofun
  | absa =>
    simp only [transferLength] at hw
    omega

/-- Settles O40: an ABSA that translates completes, since it has no run that could be refused, and makes no
call beyond those of the translation. -/
theorem absaCompletes : Obligations.AbsaCompletes := by
  intro p s d f m ht
  have hw : f.toNat + transferLength (.absa p) - 1 < memSpace :=
    Nat.lt_of_not_le fun hwraps => intent_ne_absa_of_wraps hwraps rfl
  obtain ⟨q, am, pm, calls, hexec, hcalls⟩ := exec_completed (.absa p) s d rfl f m ht hw nofun
  refine ⟨_, hexec, rfl, rfl, fun c hc => ?_, rfl, rfl, rfl, rfl, rfl⟩
  rcases List.mem_append.1 hc with hc | hc
  · exact (hcalls c hc).1
  · cases hc

/-! # Every well-formed request is answered -/

/-- Every cycle that ends has delivered a response (rule R62). -/
theorem CycleEnds.response_isSome {i : Instr} {s t : State} (h : CycleEnds i s t) :
    t.response.isSome = true := by
  cases h <;> rfl

/-- With all of the address space populated every access has memory behind it (rules R41, R42). -/
theorem populated_of_memSpace_le {s : State} (h : memSpace ≤ s.config.memWords) {a : Nat}
    (ha : a < memSpace) : s.populated a = true :=
  (State.populated_iff s a).2 ⟨Nat.lt_of_lt_of_le ha h, ha⟩

/-- With all of the address space populated a cycle translates or ends before step Exit. -/
theorem translates_or_cycleEnds (i : Instr) {s : State} (h : memSpace ≤ s.config.memWords) :
    (∃ d f m, Translates i.intent s i.ports d f m) ∨ ∃ t, CycleEnds i s t := by
  have hall : ¬∃ a : PhysAddr, s.populated a.toNat = false := by
    rintro ⟨a, ha⟩
    rw [populated_of_memSpace_le h a.isLt] at ha
    cases ha
  rcases stepA_cases i.intent i.ports s with ⟨d, m, hs⟩ | ⟨k, d, m, q, calls, hf⟩ | ⟨hun, -⟩
  · by_cases hv : violations i.intent i.ports d = 0
    · have ha := (violations_eq_zero _ _ _).1 hv
      rcases formAddress_cases i.intent i.ports s d m s.ptw s.sdwam [] with
        ⟨hu, -⟩ | ⟨q, f, m', hr, -⟩ | ⟨q, hu, hr, hi, hq, -⟩ | ⟨q, hu, hr, hq, hp, hn, hd, -⟩ |
        ⟨hun, -⟩
      · exact .inl ⟨d, _, m, m, hs, ha, .inl ⟨hu, rfl, rfl⟩⟩
      · exact .inl ⟨d, f, m', m, hs, ha, .inr ⟨q, hr⟩⟩
      · exact .inr ⟨_, .absentPage d m q hs ha hu hr hi hq⟩
      · exact .inr ⟨_, .probe d m q hs ha hu hr hq hp hn hd⟩
      · exact absurd hun hall
    · exact .inr ⟨_, .violation d m hs hv⟩
  · exact .inr ⟨_, .segmentFault k d m q calls hf⟩
  · exact absurd hun hall

/-- Settles O41: a cycle that does not end in a fault reaches step Exit, where the transfer completes or
would leave the address space. -/
theorem everyWellFormedRequestIsAnswered : Obligations.EveryWellFormedRequestIsAnswered := by
  intro i s hi hall
  rcases translates_or_cycleEnds i hall with ⟨d, f, m, ht⟩ | ⟨t, he⟩
  · by_cases hw : f.toNat + transferLength i - 1 < memSpace
    · obtain ⟨q, am, pm, calls, hexec, -⟩ := exec_completed i s d hi f m ht hw fun k hk =>
        populated_of_memSpace_le hall (by omega)
      exact .inl ⟨_, hexec, rfl⟩
    · have hwraps := Nat.le_of_not_lt hw
      exact .inr ⟨intent_ne_absa_of_wraps hwraps, exec_wraps hi ht hwraps⟩
  · exact .inl ⟨t, next_of_cycleEnds hi he, he.response_isSome⟩

end Sys2Proof.Machine

namespace Sys2Proof.Machine

/-! # The faults of step A -/

/-- Settles O22: an absent DSPTW is one of the ways in which step A faults, and it leaves memory and the
associative memories as they were. -/
theorem absentDsptwFaults : Obligations.AbsentDsptwFaults := by
  intro i s hwf hmiss hb hu hp hd
  exact ⟨_, exec_segmentFault i s hwf (.absentDsptw hmiss hb hu hp hd), rfl, rfl, rfl, rfl, rfl⟩

/-- Settles O23: an invalid SDW is one of the ways in which step A faults; memory stays as the walk has
left it, and step A ends before the installation. -/
theorem invalidSdwFaults : Obligations.InvalidSdwFaults := by
  intro i s d m hwf hi hw hd
  exact ⟨_, exec_segmentFault i s hwf (.invalid d m hw hi hd), rfl, rfl, rfl, rfl, rfl⟩

/-! # The records of the associative memories are valid -/

theorem amValid_iff (s : State) :
    s.amValid = true ↔
      s.sdwam.all (fun e => e.2.df) = true ∧ s.ptwam.all (fun e => e.2.df) = true := by
  rw [State.amValid, Bool.and_eq_true]

/-- Step A installs a fetched SDW only if it is valid (rule R125). -/
theorem sdwamAfterA_valid {s : State} (p : Ports) (d : Sdw)
    (h : s.sdwam.all (fun e => e.2.df) = true) :
    (sdwamAfterA s p d).all (fun e => e.2.df) = true := by
  unfold sdwamAfterA sdwamAfterWalk
  split
  · split
    next hinst => exact amInstall_all _ _ _ _ _ h hinst.1
    next => exact h
  · exact amTouch_all _ _ _ h

/-- The resolution of a page installs a fetched PTW only if it is valid (rule R154). -/
theorem ptwamAfterResolve_valid {s : State} (p : Ports) (d : Sdw) (q : Ptw)
    (h : s.ptwam.all (fun e => e.2.df) = true) :
    (ptwamAfterResolve s p d q).all (fun e => e.2.df) = true := by
  unfold ptwamAfterResolve
  split
  · split
    next hinst => exact amInstall_all _ _ _ _ _ h hinst.1
    next => exact h
  · exact amTouch_all _ _ _ h

/-- The mark of a page changes no record's `DF` (rule R97). -/
theorem ptwamAfterMark_valid (i : Intent) (p : Ports) (d : Sdw) (q : Ptw) {pm : AssocMem PtwKey Ptw}
    (h : pm.all (fun e => e.2.df) = true) :
    (ptwamAfterMark i p d q pm).all (fun e => e.2.df) = true := by
  unfold ptwamAfterMark
  split
  · exact amUpdate_all _ _ _ _ h fun _ _ hr => hr
  · exact h

/-- A cycle keeps the records valid, however it ends (rule R191). -/
theorem CycleEnds.amValid {i : Instr} {s t : State} (h : CycleEnds i s t) (hs : s.amValid = true) :
    t.amValid = true := by
  rw [amValid_iff] at hs ⊢
  obtain ⟨hsdw, hptw⟩ := hs
  have hres := fun q => ptwamAfterResolve_valid i.ports t.sdw q hptw
  constructor
  · rcases h.segmentFault_or_pastStepA with ⟨k, d, m, q, calls, -, rfl⟩ | ⟨m, rest, hpast⟩
    · exact hsdw
    · rw [hpast.sdwam]
      exact sdwamAfterA_valid i.ports t.sdw hsdw
  · rcases h.ptwam_cases with hkept | ⟨q, hpage | hmark⟩
    · rwa [hkept]
    · rw [hpage]
      exact hres q
    · rw [hmark]
      exact ptwamAfterMark_valid _ _ _ q (hres q)

theorem amRemove_subset {κ ρ : Type} [DecidableEq κ] (am : AssocMem κ ρ) (k : κ) : amRemove am k ⊆ am :=
  List.filter_subset_self am

/-- No action of the outside brings a record into an associative memory (log entry 7). -/
theorem applyOutside_subset {a : OutsideAction} {s t : State} (h : applyOutside a s = .go t) :
    t.sdwam ⊆ s.sdwam ∧ t.ptwam ⊆ s.ptwam := by
  have hsame : s.sdwam ⊆ s.sdwam ∧ s.ptwam ⊆ s.ptwam := ⟨List.Subset.refl _, List.Subset.refl _⟩
  cases a with
  | loadDsbr => cases h; exact hsame
  | setAmEnable => cases h; exact hsame
  | clearSdwam => cases h; exact ⟨List.nil_subset _, hsame.2⟩
  | clearPtwam => cases h; exact ⟨hsame.1, List.nil_subset _⟩
  | evictSdw segno => cases h; exact ⟨amRemove_subset s.sdwam segno, hsame.2⟩
  | evictPtw pointer page => cases h; exact ⟨hsame.1, amRemove_subset s.ptwam (pointer, page)⟩
  | writeWord address value =>
    rw [applyOutside, ofAccess_memWrite] at h
    split at h
    · cases h; exact hsame
    · cases h

/-- Records that were valid before are valid where no new one has come. -/
theorem amValid_of_subset {s t : State} (hs : s.amValid = true)
    (h : t.sdwam ⊆ s.sdwam ∧ t.ptwam ⊆ s.ptwam) : t.amValid = true := by
  obtain ⟨hsdw, hptw⟩ := h
  simp only [amValid_iff, List.all_eq_true] at hs ⊢
  exact ⟨fun e he => hs.1 e (hsdw he), fun e he => hs.2 e (hptw he)⟩

/-- Settles O12: reset has no records, cycles install valid ones alone, and actions of the outside
install none. -/
theorem cachedDescriptorsStayValid : Obligations.CachedDescriptorsStayValid := by
  refine ⟨rfl, fun s t hs h => ?_⟩
  obtain ⟨-, ⟨-, rfl⟩ | ⟨r, rest, i, -, -, hexec⟩ | ⟨a, rest, -, hout⟩⟩ := step_next_cases h
  · exact hs
  · exact (cycleEnds_of_next hexec).amValid hs
  · exact amValid_of_subset hs (applyOutside_subset (s := { s with inputs := rest }) hout)

end Sys2Proof.Machine

namespace Sys2Proof.Machine

/-! # Step B, bit by bit -/

/-- Access violation `n` is bit `15 - n` of the mask. -/
theorem getLsbD_acvBit (n k : Nat) : (acvBit n).getLsbD k = true ↔ k = 15 - n := by
  rw [acvBit, ← BitVec.twoPow_eq, BitVec.getLsbD_twoPow, Bool.and_eq_true, decide_eq_true_iff,
    decide_eq_true_iff]
  omega

theorem getLsbD_acvIf (n k : Nat) (c : Prop) [Decidable c] :
    (acvIf n c).getLsbD k = true ↔ k = 15 - n ∧ c := by
  by_cases hc : c <;> simp [acvIf, hc, getLsbD_acvBit, -BitVec.getLsbD_eq_getElem]

/-- Rule R130: the bracket bit says that the three rings do not ascend. -/
theorem getLsbD_bracketBits (d : Sdw) (k : Nat) :
    (bracketBits d).getLsbD k = true ↔ k = 15 ∧ (d.r1 > d.r2 ∨ d.r2 > d.r3) := by
  rw [bracketBits, getLsbD_acvIf, Classical.not_and_iff_not_or_not, BitVec.not_le, BitVec.not_le]

/-- The bits that step B sets in a READ or ABSA (rules R130 to R133). -/
theorem getLsbD_stepB_read {s : State} (h0 : s.acvFaults = 0) (h : s.intent ≠ .store) (k : Nat) :
    (stepB s).acvFaults.getLsbD k = true ↔
      (k = 15 ∧ (s.sdw.r1 > s.sdw.r2 ∨ s.sdw.r2 > s.sdw.r3)) ∨ (k = 12 ∧ s.trr > s.sdw.r2) ∨
        (k = 11 ∧ s.sdw.r = false ∧ s.psr ≠ s.tsr) := by
  have hoff : BitVec.getLsbD (if s.sdw.r = true then 0 else readOffBits s.psr s.tsr) k = true ↔
      k = 11 ∧ s.sdw.r = false ∧ s.psr ≠ s.tsr := by
    cases s.sdw.r <;> simp [readOffBits, getLsbD_acvIf, -BitVec.getLsbD_eq_getElem]
  rw [stepB_read s h, h0, BitVec.getLsbD_or, BitVec.getLsbD_or, BitVec.getLsbD_or, Bool.or_eq_true,
    Bool.or_eq_true, Bool.or_eq_true, hoff, getLsbD_bracketBits, readRingBits, getLsbD_acvIf]
  simp [or_assoc]

/-- The bits that step B sets in a STORE (rules R130, R134 to R136). -/
theorem getLsbD_stepB_store {s : State} (h0 : s.acvFaults = 0) (h : s.intent = .store) (k : Nat) :
    (stepB s).acvFaults.getLsbD k = true ↔
      (k = 15 ∧ (s.sdw.r1 > s.sdw.r2 ∨ s.sdw.r2 > s.sdw.r3)) ∨
        (k = 10 ∧ (if s.psr = s.tsr then s.prr else s.trr) > s.sdw.r1) ∨
          (k = 9 ∧ s.sdw.w = false) := by
  have hoff : BitVec.getLsbD (if s.sdw.w = true then 0 else writeOffBits) k = true ↔
      k = 9 ∧ s.sdw.w = false := by
    cases s.sdw.w <;> simp [writeOffBits, getLsbD_acvBit, -BitVec.getLsbD_eq_getElem]
  rw [stepB_store s h, h0, BitVec.getLsbD_or, BitVec.getLsbD_or, BitVec.getLsbD_or, Bool.or_eq_true,
    Bool.or_eq_true, Bool.or_eq_true, hoff, getLsbD_bracketBits, writeRingBits, getLsbD_acvIf]
  simp [or_assoc, eq_comm (a := s.tsr)]

/-- The bits that step B sets, for every intent. -/
theorem getLsbD_stepB {s : State} (h0 : s.acvFaults = 0) (k : Nat) :
    (stepB s).acvFaults.getLsbD k = true ↔
      (k = 15 ∧ (s.sdw.r1 > s.sdw.r2 ∨ s.sdw.r2 > s.sdw.r3)) ∨
        (k = 12 ∧ s.intent ≠ .store ∧ s.trr > s.sdw.r2) ∨
          (k = 11 ∧ s.intent ≠ .store ∧ s.sdw.r = false ∧ s.psr ≠ s.tsr) ∨
            (k = 10 ∧ s.intent = .store ∧
              (if s.psr = s.tsr then s.prr else s.trr) > s.sdw.r1) ∨
              (k = 9 ∧ s.intent = .store ∧ s.sdw.w = false) := by
  by_cases hi : s.intent = .store
  · rw [getLsbD_stepB_store h0 hi]
    simp only [hi, ne_eq, not_true_eq_false, false_and, and_false, false_or, true_and]
  · rw [getLsbD_stepB_read h0 hi]
    simp only [hi, ne_eq, not_false_eq_true, false_and, and_false, or_false, true_and]

/-- Step B writes the mask, `TRR` and the `step` register, and nothing else. -/
theorem stepB_frame (s : State) :
    stepB s = { s with
      acvFaults := (stepB s).acvFaults, trr := (stepB s).trr, seqStep := .g,
      path := s.path ++ [.g] } := by
  by_cases hi : s.intent = .store
  · rw [stepB_store s hi]
  · rw [stepB_read s hi]

theorem stepB_trr_read {s : State} (h : s.intent ≠ .store) :
    (stepB s).trr = if s.sdw.r = false then s.prr else s.trr := by
  rw [stepB_read s h]
  cases s.sdw.r <;> rfl

theorem stepB_trr_store {s : State} (h : s.intent = .store) :
    (stepB s).trr =
      if s.sdw.w = false then s.prr else if s.psr = s.tsr then s.prr else s.trr := by
  rw [stepB_store s h]
  cases s.sdw.w <;> simp [eq_comm (a := s.tsr)]

/-- Settles O29: the bits of the mask come from one description of them all, each bit by its number. -/
theorem ringChecksClosedForm : Obligations.RingChecksClosedForm := by
  intro s h0
  have hbit := getLsbD_stepB h0
  have hrest : ∀ k, k ∉ [15, 12, 11, 10, 9] → (stepB s).acvFaults.getLsbD k = false := by
    intro k hk
    simp only [List.mem_cons, List.not_mem_nil, or_false, not_or] at hk
    obtain ⟨h15, h12, h11, h10, h9⟩ := hk
    refine Bool.eq_false_iff.2 fun hset => ?_
    simp only [hbit, h15, h12, h11, h10, h9, false_and, or_false] at hset
  refine ⟨stepB_frame s, ?_, ?_, ?_, ?_, ?_, hrest, stepB_trr_read, stepB_trr_store⟩
  all_goals
    rw [hbit]
    simp

end Sys2Proof.Machine

namespace Sys2Proof.Machine

/-! # Step G -/

/-- A valid descriptor that step A has resolved is found in the SDWAM afterwards, unless it is bypassed
(rules R83, R125). -/
theorem amLookup_sdwamAfterA_same {i : Intent} {s : State} {p : Ports} {d : Sdw} {m : Memory}
    (hs : ResolvesSegment i s p d m) (hd : d.df = true) (hb : ¬Bypassed s p)
    (hsize : 0 < s.config.amSizeSdw) : amLookup (sdwamAfterA s p d) p.segno = some d := by
  rcases hs with ⟨hhit, -⟩ | ⟨hw, -⟩
  · rw [amLookup_sdwamAfterA_of_hit hhit, hhit.2]
  · rw [sdwamAfterA, if_pos hw.1, sdwamAfterWalk, if_pos ⟨hd, hb⟩, amLookup_install_same _ _ _ _ hsize]

/-- Step A raises no fault where it goes on. -/
theorem filter_isDoFault_segmentCalls (s : State) (p : Ports) (d : Sdw) :
    (segmentCalls s p d).filter Call.isDoFault = [] := by
  refine List.filter_eq_nil_iff.2 fun c hc => ?_
  obtain ⟨-, hfault, -⟩ := segmentCalls_kinds s p d c hc
  exact Bool.eq_false_iff.1 hfault

/-- Settles O30: the cycle ends in the fault of step G, so its calls are those of step A and the one fault,
and what step A has left of memory and of the SDWAM stays. -/
theorem commitRaisesTheExactMask : Obligations.CommitRaisesTheExactMask := by
  intro i s d m hi hs hv
  refine ⟨_, exec_violation i s d m hi hs hv, rfl, rfl, rfl, rfl, rfl, ?_, ?_,
    amLookup_sdwamAfterA_same hs⟩
  · refine List.forall_mem_append.2 ⟨fun c hc => ?_, by simp [Call.isAfterCommit]⟩
    obtain ⟨-, -, hcommit, -⟩ := segmentCalls_kinds s i.ports d c hc
    exact hcommit
  · simp [atG, atB, filter_isDoFault_segmentCalls, Call.isDoFault]

/-- The bound check sets access violation 15, the mask's bit 0, past the last word of the bound's last unit
(rules R140, R141). -/
theorem boundBits_eq_ite (ca : Offset) (d : Sdw) :
    boundBits ca d = if ca.toNat ≤ 16 * d.bound.toNat + 15 then 0 else 0x0001#16 := by
  simp only [boundBits, acvIf, boundUnits_lt, ← Nat.not_le, ite_not]
  rfl

/-- Settles O31: the greatest bound admits every offset, because an offset has 18 bits. -/
theorem boundCountsSixteenWordUnits : Obligations.BoundCountsSixteenWordUnits := by
  refine ⟨boundBits_eq_ite, fun ca d hmax => ?_⟩
  have hin : ca.toNat ≤ 16 * (0x3FFF#14).toNat + 15 := Nat.le_of_lt_succ ca.isLt
  rw [boundBits_eq_ite, hmax, if_pos hin]

end Sys2Proof.Machine

namespace Sys2Proof.Machine

/-! # The final address of steps H and I -/

/-- The base of an unpaged segment is `ADDR` with its low 4 bits cleared (rule R150). -/
theorem toNat_unpagedBase (a : PhysAddr) : (a &&& 0xFFFFF0#24).toNat = a.toNat / 16 * 16 := by
  have hclear : a &&& 0xFFFFF0#24 = a >>> 4 <<< 4 := (BitVec.shiftLeft_ushiftRight (n := 4)).symm
  rw [hclear, BitVec.toNat_shiftLeft, BitVec.toNat_ushiftRight, Nat.shiftRight_eq_div_pow,
    Nat.shiftLeft_eq]
  omega

/-- FANP as arithmetic (rules R150, R151). -/
theorem toNat_unpagedAddr (d : Sdw) (ca : Offset) :
    (unpagedAddr d ca).toNat = (d.addr.toNat / 16 * 16 + ca.toNat) % 16777216 := by
  have hoffset : (ca.setWidth 24).toNat = ca.toNat := BitVec.toNat_setWidth_of_le (by decide)
  rw [unpagedAddr, BitVec.toNat_add, toNat_unpagedBase, hoffset]

/-- Settles O32: both addresses add their offset to the same base, which the difference cancels. -/
theorem unpagedAddressIsLinear : Obligations.UnpagedAddressIsLinear :=
  ⟨toNat_unpagedAddr, fun d a b =>
    add_sub_add_left_eq_sub (a.setWidth 24) (b.setWidth 24) (d.addr &&& 0xFFFFF0#24)⟩

/-- A page begins 64 words further for each unit of its masked frame (rule R158). -/
theorem toNat_frameBase (mask addr : Frame) :
    (frameBase mask addr).toNat = (addr &&& mask).toNat * 64 % 16777216 := by
  have hframe : ((addr &&& mask).setWidth 24).toNat = (addr &&& mask).toNat :=
    BitVec.toNat_setWidth_of_le (by decide)
  rw [frameBase, BitVec.toNat_shiftLeft, hframe, Nat.shiftLeft_eq]

/-- The word in the page, `CA mod 1024` (rule R63), in an address's width. -/
theorem toNat_wordInPage (ca : Offset) : ((wordInPage ca).setWidth 24).toNat = ca.toNat % 1024 := by
  rw [BitVec.toNat_setWidth_of_le (by decide), wordInPage, BitVec.extractLsb'_toNat]
  rfl

/-- FAP as arithmetic (rule R158). -/
theorem toNat_pagedAddr (mask : Frame) (q : Ptw) (ca : Offset) :
    (pagedAddr mask q ca).toNat =
      ((q.addr &&& mask).toNat * 64 + ca.toNat % 1024) % 16777216 := by
  rw [pagedAddr, BitVec.toNat_add, toNat_frameBase, toNat_wordInPage]
  exact Nat.mod_add_mod _ _ _

/-- A mask that clears the low 4 bits leaves a multiple of 16. -/
theorem toNat_and_mod_16 {mask : Frame} (hmask : mask &&& 0xF#18 = 0) (addr : Frame) :
    (addr &&& mask).toNat % 16 = 0 := by
  have hlow : (addr &&& mask) &&& 0xF#18 = 0 := by
    rw [BitVec.and_assoc, hmask]
    exact BitVec.and_zero
  have hnat := congrArg BitVec.toNat hlow
  rw [BitVec.toNat_and] at hnat
  exact (Nat.and_two_pow_sub_one_eq_mod _ 4).symm.trans hnat

/-- Settles O33: the frame is a multiple of 16 units of 64 words, so of a page of 1024 words, and a masked
frame is at most the mask. -/
theorem pagedAddressIsFrameAndWord : Obligations.PagedAddressIsFrameAndWord := by
  refine ⟨toNat_pagedAddr, fun mask q ca hmask => ?_, fun q => ?_⟩
  · have hframe := toNat_and_mod_16 hmask q.addr
    rw [toNat_pagedAddr]
    constructor <;> omega
  · have hdefault : (q.addr &&& 0xFFF0#18).toNat ≤ 0xFFF0 := Nat.and_le_right
    have hwide : (q.addr &&& 0x3FFF0#18).toNat ≤ 0x3FFF0 := Nat.and_le_right
    constructor <;> omega

/-! # An absent page -/

/-- The resolution of an absent page installs nothing: every lookup finds what it found (rule R154). -/
theorem amLookup_ptwamAfterResolve_absent (s : State) (p : Ports) (d : Sdw) {q : Ptw} (hq : q.df = false)
    (k : PtwKey) : amLookup (ptwamAfterResolve s p d q) k = amLookup s.ptwam k := by
  by_cases hmiss : PtwMiss s p d
  · rw [ptwamAfterResolve, if_pos hmiss, if_neg (by simp [hq])]
  · rw [ptwamAfterResolve, if_neg hmiss, amLookup_touch]

/-- Settles O34: the cycle ends in the fault of the present check, so its calls are those of step A, those
that resolve the page, and the one fault. -/
theorem absentPageFaults : Obligations.AbsentPageFaults := by
  intro i s d m q hi ha hs hv hu hr hq
  refine ⟨_, exec_absentPage i s d m hi q hs hv hu hr ha hq, rfl, rfl, rfl,
    amLookup_ptwamAfterResolve_absent s i.ports d hq, fun c hc => ?_,
    raiseFault_inI_path _ _ _ s m q _ _ _ hu⟩
  simp only [raiseFault_trace, inI_trace, List.mem_append, List.mem_singleton] at hc
  rcases hc with (hc | hc) | rfl
  · obtain ⟨htrans, -, -, hmod⟩ := segmentCalls_kinds s i.ports d c hc
    exact ⟨htrans, hmod⟩
  · obtain ⟨htrans, -, -, hmod⟩ := resolveCalls_kinds s i.ports d q c hc
    exact ⟨htrans, hmod⟩
  · exact ⟨rfl, rfl⟩

end Sys2Proof.Machine

namespace Sys2Proof.Machine

/-! # The transfer and the fault of a cycle -/

/-- Calls of which none reads or writes operand memory and none raises a fault. -/
def OnlyTranslates (calls : List Call) : Prop := ∀ c ∈ calls, c.isTransfer = false ∧ c.isDoFault = false

theorem OnlyTranslates.append {calls calls' : List Call} (h : OnlyTranslates calls)
    (h' : OnlyTranslates calls') : OnlyTranslates (calls ++ calls') :=
  List.forall_mem_append.2 ⟨h, h'⟩

theorem OnlyTranslates.filter_isTransfer {calls : List Call} (h : OnlyTranslates calls) :
    calls.filter Call.isTransfer = [] :=
  List.filter_eq_nil_iff.2 fun c hc => Bool.eq_false_iff.1 (h c hc).1

theorem OnlyTranslates.filter_isDoFault {calls : List Call} (h : OnlyTranslates calls) :
    calls.filter Call.isDoFault = [] :=
  List.filter_eq_nil_iff.2 fun c hc => Bool.eq_false_iff.1 (h c hc).2

section

variable (s : State) (p : Ports) (d : Sdw) (q : Ptw) (i : Intent)

theorem onlyTranslates_segmentCalls : OnlyTranslates (segmentCalls s p d) := fun c hc =>
  have ⟨htransfer, hfault, _⟩ := segmentCalls_kinds s p d c hc
  ⟨htransfer, hfault⟩

theorem onlyTranslates_walkCalls : OnlyTranslates (walkCalls s p) := fun c hc =>
  have ⟨htransfer, hfault, _⟩ := walkCalls_kinds s p c hc
  ⟨htransfer, hfault⟩

theorem onlyTranslates_resolveCalls : OnlyTranslates (resolveCalls s p d q) := fun c hc =>
  have ⟨htransfer, hfault, _⟩ := resolveCalls_kinds s p d q c hc
  ⟨htransfer, hfault⟩

theorem onlyTranslates_probeCalls : OnlyTranslates (probeCalls i s p d) := fun c hc =>
  have ⟨htransfer, hfault, _⟩ := probeCalls_kinds i s p d c hc
  ⟨htransfer, hfault⟩

theorem onlyTranslates_pageCalls : OnlyTranslates (pageCalls i s p d q) := fun c hc =>
  have ⟨htransfer, hfault, _⟩ := pageCalls_kinds i s p d q c hc
  ⟨htransfer, hfault⟩

end

theorem SegmentFault.onlyTranslates {i : Intent} {s : State} {p : Ports} {k : FaultKind} {d : Sdw}
    {m : Memory} {q : Ptw} {calls : List Call} (h : SegmentFault i s p k d m q calls) :
    OnlyTranslates calls := by
  cases h with
  | beyond => cases s.dsbr.u <;> simp [OnlyTranslates, Call.isTransfer, Call.isDoFault]
  | absentDsptw => simp [OnlyTranslates, Call.isTransfer, Call.isDoFault]
  | invalid => exact List.forall_mem_cons.2 ⟨⟨rfl, rfl⟩, onlyTranslates_walkCalls s p⟩

/-- After calls that only translate, a cycle either raises one fault or completes (rules R169, R177). -/
theorem CycleEnds.raised_or_completed {i : Instr} {s t : State} (h : CycleEnds i s t) :
    (∃ k u, t = raiseFault k u ∧ OnlyTranslates u.trace) ∨
      ∃ d m q am pm f calls, t = completed i s d m q am pm f calls ∧ OnlyTranslates calls := by
  cases h with
  | segmentFault k d m q calls hf => exact .inl ⟨_, _, rfl, hf.onlyTranslates⟩
  | violation d => exact .inl ⟨_, _, rfl, onlyTranslates_segmentCalls s i.ports d⟩
  | absentPage d m q =>
    exact .inl ⟨_, _, rfl,
      (onlyTranslates_segmentCalls s i.ports d).append (onlyTranslates_resolveCalls s i.ports d q)⟩
  | probe d m q =>
    exact .inl ⟨_, _, rfl,
      ((onlyTranslates_segmentCalls s i.ports d).append (onlyTranslates_resolveCalls s i.ports d q)).append
        (onlyTranslates_probeCalls s i.ports d i.intent)⟩
  | unpaged d => exact .inr ⟨_, _, _, _, _, _, _, rfl, onlyTranslates_segmentCalls s i.ports d⟩
  | paged d m m' q =>
    exact .inr ⟨_, _, _, _, _, _, _, rfl,
      (onlyTranslates_segmentCalls s i.ports d).append (onlyTranslates_pageCalls s i.ports d q i.intent)⟩

theorem isOk_faultResponse (k : FaultKind) (r : Ring) : (k.response r).isOk = false := by
  cases k <;> rfl

section

variable {i : Instr} {s : State} {d : Sdw} {m : Memory} {q : Ptw} {am : AssocMem SegNo Sdw}
  {pm : AssocMem PtwKey Ptw} {f : PhysAddr} {calls : List Call}

@[simp] theorem completed_trace :
    (completed i s d m q am pm f calls).trace = calls ++ transferCalls f i := (rfl)

/-- A cycle that completes makes the transfer call of its operation and no other (rule R169). -/
theorem filter_isTransfer_completed (h : OnlyTranslates calls) :
    (completed i s d m q am pm f calls).trace.filter Call.isTransfer = transferCalls f i := by
  rw [completed_trace, List.filter_append, h.filter_isTransfer, List.nil_append, List.filter_eq_self]
  intro c hc
  obtain ⟨htransfer, -⟩ := transferCalls_kinds f i c hc
  exact htransfer

theorem filter_isDoFault_completed (h : OnlyTranslates calls) :
    (completed i s d m q am pm f calls).trace.filter Call.isDoFault = [] := by
  rw [completed_trace, List.filter_append, h.filter_isDoFault, List.nil_append, List.filter_eq_nil_iff]
  intro c hc
  obtain ⟨-, hfault, -⟩ := transferCalls_kinds f i c hc
  exact Bool.eq_false_iff.1 hfault

end

section

variable (k : FaultKind) {u : State} (h : OnlyTranslates u.trace)
include h

theorem filter_isTransfer_raiseFault : (raiseFault k u).trace.filter Call.isTransfer = [] := by
  rw [raiseFault_trace, List.filter_append, h.filter_isTransfer]
  rfl

theorem filter_isDoFault_raiseFault : (raiseFault k u).trace.filter Call.isDoFault = [.doFault k] := by
  rw [raiseFault_trace, List.filter_append, h.filter_isDoFault]
  rfl

end

/-- Settles O15: the cycle raises a fault, whose response is not `Ok`, or completes, whose response is;
the calls before either only translate. -/
theorem transferCallsMatchTheOutcome : Obligations.TransferCallsMatchTheOutcome := by
  intro i s t h
  rcases (cycleEnds_of_next h).raised_or_completed with
    ⟨k, u, rfl, hu⟩ | ⟨d, m, q, am, pm, f, calls, rfl, hcalls⟩
  · refine ⟨fun f ws r hok => ?_, fun _ => ⟨filter_isTransfer_raiseFault k hu, k, ?_, ?_,
      filter_isDoFault_raiseFault k hu⟩⟩
    · have hfault := isOk_faultResponse k u.trr
      rw [Option.some.inj hok] at hfault
      cases hfault
    · rw [raiseFault_response, raiseFault_trr]
    · rw [raiseFault_trace, List.getLast?_concat]
  · refine ⟨fun f' ws r hok => ?_, fun hfault => nomatch hfault⟩
    obtain ⟨rfl, -, -⟩ := Response.ok.inj (Option.some.inj hok)
    exact ⟨filter_isDoFault_completed hcalls, (filter_isTransfer_completed hcalls).trans rfl⟩

end Sys2Proof.Machine

namespace Sys2Proof.Machine

/-! # Reset, and runs -/

/-- Settles O10: reset is IDLE, lists no word of memory and no record, and has no bit in the mask. -/
theorem resetMeetsInvariant : Obligations.ResetMeetsInvariant := by
  obtain ⟨hidle, -⟩ := powerOnReset
  exact ⟨hidle, rfl, (amBounded_iff _).2 ⟨amBounded_nil, amBounded_nil⟩, rfl⟩

/-- No action of the outside writes the `step` register (log entry 7). -/
theorem applyOutside_seqStep {a : OutsideAction} {s t : State} (h : applyOutside a s = .go t) :
    t.seqStep = s.seqStep := by
  cases a with
  | writeWord address value =>
    rw [applyOutside, ofAccess_memWrite] at h
    split at h <;> cases h
    rfl
  | _ =>
    cases h
    rfl

/-- `step` = IDLE between cycles (rule R192 (a)), from any state: a step begins in IDLE and ends there. -/
theorem step_next_idle {s t : State} (h : step s = .next t) : t.seqStep = .idle := by
  obtain ⟨hidle, ⟨-, rfl⟩ | ⟨r, rest, i, -, -, hexec⟩ | ⟨a, rest, -, hout⟩⟩ := step_next_cases h
  · exact hidle
  · exact (everyCycleEndsInAStepTheRulesGive i _ t hexec).1
  · exact (applyOutside_seqStep hout).trans hidle

/-- A run of any machine meets no fault if it begins where `P` holds, every step keeps `P`, and no step
taken where `P` holds is a fault. -/
theorem run_ne_fault_of_invariant {M : Host.Core} {P : M.State → Prop}
    (hkeep : ∀ s t, P s → M.step s = .next t → P t) (hsafe : ∀ s f, P s → M.step s ≠ .fault f)
    (k : Nat) {s : M.State} (hs : P s) (f : M.Fault) : M.run k s ≠ .fault f := by
  induction k generalizing s with
  | zero => exact nofun
  | succ k ih =>
    rw [Host.Core.run]
    cases hstep : M.step s with
    | next t => exact ih (hkeep s t hs hstep)
    | fault g => exact absurd hstep (hsafe s g hs)
    | refused e => exact nofun

/-- Settles O8: a step faults only where the block is not IDLE, and every step of the run is taken from
IDLE. -/
theorem runsFromIdleMeetNoFault : Obligations.RunsFromIdleMeetNoFault := by
  intro n s hidle k _
  exact run_ne_fault_of_invariant (M := Sys2Proof.core) (P := fun u : State => u.seqStep = .idle)
    (fun _ _ _ hstep => step_next_idle hstep) (fun _ f h => step_ne_fault h f) k hidle

end Sys2Proof.Machine
